-- ==== Sys2Proof/Word.lean ====
section
/-! DEFINITION. Word.lean: the register widths of the Viking processor and the bit-vector types that hold
its values (00_scope.md R4, R9, R11; 20_memory.md R41). -/

namespace Sys2Proof

/-- The two register widths a Viking implementation may have (R4; parameter XLEN of R9). -/
inductive XLen where
  | x16
  | x32
deriving DecidableEq, Repr

/-- XLEN: the width in bits of r0..r7, of PC, of an address and of a word (R9). -/
def XLen.bits : XLen → Nat
  | .x16 => 16
  | .x32 => 32

/-- WORD_BYTES = XLEN / 8 (R9, R41). -/
def XLen.wordBytes : XLen → Nat
  | .x16 => 2
  | .x32 => 4

/-- The type of a register value or an address: wide enough for both variants. A 16-bit machine keeps
its XLEN-bit value (R11) in the low half, with the high half zero (log entry 2). -/
abbrev Word := BitVec 32

/-- "Um byte possui 8 bits" (R41). -/
abbrev Byte := BitVec 8

/-- A 16-bit instruction word, the same in both variants (R70). -/
abbrev Code := BitVec 16

end Sys2Proof
end

