-- ==== Sys2Proof/Config.lean ====
section
/-! DEFINITION. Config.lean: the parameters the spec leaves open to the implementation (00_scope.md R9;
92_eei_decisions.md D1, D5, D11, D14, D18, D19). Their two columns of values stand in Machine/AddressMap.lean;
WORD_BYTES follows from XLEN (Word.lean); IMAGE and INPUT are arguments of Machine/Loader.lean. -/

namespace Sys2Proof

/-- What one implementation fixes, for all of a run: the parameters of R9 (log entry 1). -/
structure Config where
  /-- XLEN (R9, D1). -/
  xlen : XLen
  /-- MEM_SIZE: RAM is the bytes 0 .. MEM_SIZE-1 (R9, R49, R50, D19). -/
  memSize : Nat
  /-- SP_INIT: r7 at the start of a run (R9, R36, D11). -/
  spInit : Word
  /-- OUT_CHAR: the address of the character output register (R9, R49, R50). -/
  outChar : Word
  /-- OUT_INT: the address of the integer output register (R9, R49, R50). -/
  outInt : Word
  /-- IN_CHAR: the address of the character input register (R9, R49, R50). -/
  inChar : Word
  /-- IN_INT: the address of the integer input register (R9, R49, R50, D18). -/
  inInt : Word
  /-- STRICT_FIXED_FIELDS: a non-zero must-be-r0 field makes the word illegal (R9, R82, D5). -/
  strictFixedFields : Bool
  /-- STACK_CHECK: the run ends when r7 drops below the stack limit (R9, R300, D14). -/
  stackCheck : Bool
deriving DecidableEq, Repr

end Sys2Proof
end

