-- ==== Sys2Proof/Machine/AddressMap.lean ====
section
/-! DEFINITION. Machine/AddressMap.lean: the two columns of values that the spec gives the parameters (00_scope.md R9;
20_memory.md R49 for 16 bits, R50 for 32 bits), and what makes a set of parameters an address map. -/

namespace Sys2Proof

/-- The reference values of R9: the 16-bit reference simulator (R49), both switches true. -/
def Config.reference : Config :=
  { xlen := .x16
    memSize := 0xE000
    spInit := 0xDFFE#32
    outChar := 0xF000#32
    outInt := 0xF002#32
    inChar := 0xF004#32
    inInt := 0xF006#32
    strictFixedFields := true
    stackCheck := true }

/-- The 32-bit column of R9 (R50, D18, D19), both switches true. -/
def Config.wide : Config :=
  { xlen := .x32
    memSize := 0x00100000
    spInit := 0x000FFFFC#32
    outChar := 0xF0000000#32
    outInt := 0xF0000004#32
    inChar := 0xF0000008#32
    inInt := 0xF000000C#32
    strictFixedFields := true
    stackCheck := true }

/-- The four device addresses (R49, R50). -/
def Config.devices (c : Config) : List Word := [c.outChar, c.outInt, c.inChar, c.inInt]

/-- The parameters make an address map of the kind R49 and R50 draw: RAM holds whole words and lies in the address space,
SP_INIT is a word in RAM (R322), and the four device registers are distinct words outside RAM. R9 does not say which
values a parameter may take; these conditions are the model's (DESIGN CHOICE, log entry 1). -/
structure Config.WellFormed (c : Config) : Prop where
  /-- RAM is a whole number of words (R49, R50). -/
  ramOfWords : c.memSize % c.xlen.wordBytes = 0
  /-- RAM lies in the address space (R11, R33). -/
  ramFits : c.memSize ≤ 2 ^ c.xlen.bits
  /-- SP_INIT is word-aligned (R322). -/
  spAligned : c.spInit.toNat % c.xlen.wordBytes = 0
  /-- The word at SP_INIT is RAM (R322). -/
  spInRam : c.spInit.toNat + c.xlen.wordBytes ≤ c.memSize
  /-- A device register is word-aligned, so that a word access can reach it (R45, R53). -/
  deviceAligned : ∀ a ∈ c.devices, a.toNat % c.xlen.wordBytes = 0
  /-- A device register is no RAM (R53). -/
  deviceOutsideRam : ∀ a ∈ c.devices, c.memSize ≤ a.toNat
  /-- A device address is an XLEN-bit address (R11). -/
  deviceNarrow : ∀ a ∈ c.devices, a.toNat < 2 ^ c.xlen.bits
  /-- The four devices have four addresses (R292). -/
  devicesDistinct : c.devices.Nodup

end Sys2Proof
end

