-- ==== Sys2Proof/Machine/State.lean ====
section
/-! DEFINITION. Machine/State.lean: everything the spec gives the machine, as plain data (10_state.md R20 to
R38; 60_exceptions.md R281, R300), and the machine right after reset. -/

namespace Sys2Proof.Machine

/-- Why a step has no successor. The first five are the model faults of 60_exceptions.md R281: the run ends
with the state as it was before the faulting instruction, which is the state the step was asked about. The
last two say that the run had already ended (00_scope.md R14). -/
inductive Fault where
  /-- PC is odd at the start of a step (R47). Raised by `fetch`. Safe: the spec's own model fault. -/
  | misalignedFetch (pc : Word)
  /-- An instruction word not wholly in RAM (R63), raised by `fetch`, or a data access that is neither RAM
  nor a permitted device access (R55), raised by `memRead` and `memWrite`. Safe: the spec's own model fault. -/
  | accessFault (a : Word)
  /-- The word is not one of the legal words of R86. Raised by `decodeStep`. Safe: the spec's own model fault. -/
  | illegalInstruction (w : Code)
  /-- LDW or STW at an address that is not a multiple of WORD_BYTES (R46). Raised by `memRead` and `memWrite`.
  Safe: the spec's own model fault. -/
  | misalignedAccess (a : Word)
  /-- LDW from an input register when no input is left (R296, R297). Raised by the device reads. Safe: the
  spec's own model fault. -/
  | inputExhausted
  /-- The run has ended with outcome Halted: HCF was executed earlier (R180). Raised by `step` on a state whose
  `halted` is set. Safe: the spec gives a halted state no successor (U6). -/
  | runHalted
  /-- The run has ended with outcome StackLimit: the stack check fired after an earlier instruction (R300).
  Raised by `step` on a state whose `stackLimitHit` is set. Safe: the spec gives it no successor (U19). -/
  | runStackLimit
deriving DecidableEq, Repr

/-- Why an instruction has no meaning in the model. -/
inductive Refusal where
  /-- Raised by `exec` for an arm that has no meaning yet. Safe: nothing is claimed about that instruction. -/
  | notModelled (mnemonic : String)
deriving DecidableEq, Repr

/-- The eight general registers r0..r7 (R20): ordinary read-write registers, none hardwired (R21), with no
banks or windows. Read with `State.reg`, written with `State.setReg`. -/
structure RegFile where
  r0 : Word
  r1 : Word
  r2 : Word
  r3 : Word
  r4 : Word
  r5 : Word
  r6 : Word
  r7 : Word
deriving DecidableEq, Repr

/-- RAM (R33) as the bytes that differ from what an unlisted address reads as: addresses strictly rising.
`Memory.wf` of Machine/Memory.lean states the form. -/
abbrev Memory := List Host.Cell

/-- The complete state tuple of R38, with the parameters of R9 and the latched outcome of R300. -/
structure State where
  /-- The implementation parameters of R9. No step changes them (the model's own field, log entry 1). -/
  cfg : Config
  /-- r0..r7 (R20). -/
  regs : RegFile
  /-- The program counter (R25, R26): the address of the instruction to execute. -/
  pc : Word
  /-- RAM (R33). -/
  mem : Memory
  /-- `halted` of R34: HCF was executed. -/
  halted : Bool
  /-- The stack check of R300 fired after the last instruction (the outcome StackLimit of R14; the model's own
  field, log entry 4). -/
  stackLimitHit : Bool
  /-- `fault` of R34: the model fault that ended the run, recorded by `run` (log entry 5). -/
  fault : Option Fault
  /-- `stack_limit` of R34: 2 × (words of IMAGE) + 2, fixed at load time. -/
  stackLimit : Nat
  /-- `cycles` of R34: instructions executed, HCF not counted. -/
  cycles : Nat
  /-- `output` of R34: the bytes written so far to OUT_CHAR and OUT_INT, oldest first. -/
  output : List Byte
  /-- `input` of R34: the host input not yet consumed, next item first. -/
  input : List Int
deriving DecidableEq, Repr

/-- The machine right after reset: R36 and R320 with the reference parameters, IMAGE empty (so the stack
limit is 2·0 + 2) and INPUT empty. A program is loaded with `State.initial` of Machine/Loader.lean. -/
def State.reset : State :=
  { cfg := Config.reference
    regs := { r0 := 0#32, r1 := 0#32, r2 := 0#32, r3 := 0#32
              r4 := 0#32, r5 := 0#32, r6 := 0#32, r7 := Config.reference.spInit }
    pc := 0#32
    mem := []
    halted := false
    stackLimitHit := false
    fault := none
    stackLimit := 2
    cycles := 0
    output := []
    input := [] }

end Sys2Proof.Machine
end

