-- ==== Sys2Proof/Syntax.lean ====
section
/-! DEFINITION. Syntax.lean: the instructions of the Viking processor, one constructor per row of
spec/opcode_table.json (29 rows; 30_encoding.md R78, R79). -/

namespace Sys2Proof

/-- The eight general registers (10_state.md R20). None is hardwired (R21). -/
inductive Reg where
  | r0 | r1 | r2 | r3 | r4 | r5 | r6 | r7
deriving DecidableEq, Repr

/-- The 8-bit Immediate field of the I format, not yet extended (30_encoding.md R72, R76). -/
abbrev Imm8 := BitVec 8

/-- One constructor per row of the opcode table. A constructor of the R format carries all three register
fields of its word, the must-be-r0 fields too (R82): `Instr.fixedFieldsZero` of WellFormed.lean checks
them. The suffix `R` or `I` is the format where a mnemonic has both; `bezRAsm` and `bnzRAsm` are the second
encodings (Op2 = 00) of the register branches (R81). -/
inductive Instr where
  /-- AND Rst,RsA,RsB (R100) -/
  | andR (rst rsa rsb : Reg)
  /-- AND Rst,Immediate (R101) -/
  | andI (rst : Reg) (imm8 : Imm8)
  /-- OR Rst,RsA,RsB (R102) -/
  | orR (rst rsa rsb : Reg)
  /-- OR Rst,Immediate (R103) -/
  | orI (rst : Reg) (imm8 : Imm8)
  /-- XOR Rst,RsA,RsB (R104) -/
  | xorR (rst rsa rsb : Reg)
  /-- XOR Rst,Immediate (R105) -/
  | xorI (rst : Reg) (imm8 : Imm8)
  /-- SLT Rst,RsA,RsB (R106) -/
  | sltR (rst rsa rsb : Reg)
  /-- SLT Rst,Immediate (R107) -/
  | sltI (rst : Reg) (imm8 : Imm8)
  /-- SLTU Rst,RsA,RsB (R108) -/
  | sltuR (rst rsa rsb : Reg)
  /-- SLTU Rst,Immediate (R109) -/
  | sltuI (rst : Reg) (imm8 : Imm8)
  /-- ADD Rst,RsA,RsB (R110) -/
  | addR (rst rsa rsb : Reg)
  /-- ADD Rst,Immediate (R111) -/
  | addI (rst : Reg) (imm8 : Imm8)
  /-- SUB Rst,RsA,RsB (R112) -/
  | subR (rst rsa rsb : Reg)
  /-- SUB Rst,Immediate (R113) -/
  | subI (rst : Reg) (imm8 : Imm8)
  /-- LDR Rst,Immediate (R114) -/
  | ldr (rst : Reg) (imm8 : Imm8)
  /-- LDC Rst,Immediate (R115) -/
  | ldc (rst : Reg) (imm8 : Imm8)
  /-- LSR Rst,RsA,r0 (R130); rsb must be r0 -/
  | lsr (rst rsa rsb : Reg)
  /-- ASR Rst,RsA,r0 (R131); rsb must be r0 -/
  | asr (rst rsa rsb : Reg)
  /-- LDB Rst,r0,RsB (R141); rsa must be r0 -/
  | ldb (rst rsa rsb : Reg)
  /-- STB r0,RsA,RsB (R142); rst must be r0 -/
  | stb (rst rsa rsb : Reg)
  /-- LDW Rst,r0,RsB (R143); rsa must be r0 -/
  | ldw (rst rsa rsb : Reg)
  /-- STW r0,RsA,RsB (R144); rst must be r0 -/
  | stw (rst rsa rsb : Reg)
  /-- BEZ r0,RsA,RsB, the manual's encoding, Op2 = 11 (R160); rst must be r0 -/
  | bezR (rst rsa rsb : Reg)
  /-- BEZ r0,RsA,RsB, the assembler's encoding, Op2 = 00 (R160, R81); rst must be r0 -/
  | bezRAsm (rst rsa rsb : Reg)
  /-- BEZ Rst,Immediate (R161) -/
  | bezI (rst : Reg) (imm8 : Imm8)
  /-- BNZ r0,RsA,RsB, the manual's encoding, Op2 = 11 (R162); rst must be r0 -/
  | bnzR (rst rsa rsb : Reg)
  /-- BNZ r0,RsA,RsB, the assembler's encoding, Op2 = 00 (R162, R81); rst must be r0 -/
  | bnzRAsm (rst rsa rsb : Reg)
  /-- BNZ Rst,Immediate (R163) -/
  | bnzI (rst : Reg) (imm8 : Imm8)
  /-- HCF (R180), the single word 0x0003 -/
  | hcf
deriving DecidableEq, Repr

end Sys2Proof
end

