-- ==== Sys2Proof/Machine/Operands.lean ====
section
/-! DEFINITION. Machine/Operands.lean: XLEN-bit values, the extensions of an immediate or a byte, and the reads
and writes of registers and pc (00_scope.md R11, R12; 30_encoding.md R76). -/

namespace Sys2Proof.Machine

/-- `v mod 2^XLEN` (R11, R12). -/
def trim (x : XLen) (v : Word) : Word := (v.setWidth x.bits).setWidth 32

/-- `zext_8`: an 8-bit value extended with zeros (R12). -/
def zext8 (v : BitVec 8) : Word := v.setWidth 32

/-- `sext_8`: an 8-bit value extended to XLEN bits by replicating bit 7 (R12). -/
def sext8 (x : XLen) (v : BitVec 8) : Word := trim x (v.signExtend 32)

/-- `signed(v)`: the two's-complement reading of an XLEN-bit value (R11). -/
def signed (x : XLen) (v : Word) : Int := (v.setWidth x.bits).toInt

/-- The cell of a register. -/
def RegFile.get (f : RegFile) : Reg → Word
  | .r0 => f.r0
  | .r1 => f.r1
  | .r2 => f.r2
  | .r3 => f.r3
  | .r4 => f.r4
  | .r5 => f.r5
  | .r6 => f.r6
  | .r7 => f.r7

/-- Replace the cell of a register. -/
def RegFile.set (f : RegFile) (i : Reg) (v : Word) : RegFile :=
  match i with
  | .r0 => { f with r0 := v }
  | .r1 => { f with r1 := v }
  | .r2 => { f with r2 := v }
  | .r3 => { f with r3 := v }
  | .r4 => { f with r4 := v }
  | .r5 => { f with r5 := v }
  | .r6 => { f with r6 := v }
  | .r7 => { f with r7 := v }

/-- `r[i]`: read general register i, an XLEN-bit value (R12). -/
def State.reg (s : State) (i : Reg) : Word := trim s.cfg.xlen (s.regs.get i)

/-- `r[i] <- v`: write general register i with v mod 2^XLEN (R12). -/
def State.setReg (s : State) (i : Reg) (v : Word) : State :=
  { s with regs := s.regs.set i (trim s.cfg.xlen v) }

/-- `pc <- t`: the address of the next instruction, mod 2^XLEN (R12, R26, R29). -/
def State.setPc (s : State) (t : Word) : State := { s with pc := trim s.cfg.xlen t }

/-- `pc <- pc + 2` (R27). -/
def State.advance (s : State) : State := s.setPc (s.pc + 2#32)

/-- The second operand of an I-format AND, OR or LDC: the immediate, zero-extended (R76). -/
def State.zeroImm (_ : State) (imm8 : Imm8) : Word := zext8 imm8

/-- The second operand of an I-format XOR, SLT, SLTU, ADD, SUB or LDR and the offset of BEZ and BNZ: the
immediate, sign-extended to XLEN bits (R76). -/
def State.signImm (s : State) (imm8 : Imm8) : Word := sext8 s.cfg.xlen imm8

end Sys2Proof.Machine
end

