-- ==== Sys2Proof/Machine/Flags.lean ====
section
/-! DEFINITION. Machine/Flags.lean: the architecture has no status flags (10_state.md R30). The signals N, V and
C exist only inside one SLT or SLTU (41_computation.md R117); they are functions of the two operands, not
state, together with the two comparisons they decide. -/

namespace Sys2Proof.Machine

/-- The subtraction done internally, `(a - b) mod 2^XLEN` (R117). -/
def aluDifference (x : XLen) (a b : Word) : Word := trim x (a - b)

/-- Bit XLEN-1, the sign bit (R10). -/
def signBit (x : XLen) (v : Word) : Bool := v.getLsbD (x.bits - 1)

/-- N: the sign of the difference (R117). -/
def aluN (x : XLen) (a b : Word) : Bool := signBit x (aluDifference x a b)

/-- V: signed overflow of a - b (R117). -/
def aluV (x : XLen) (a b : Word) : Bool :=
  (signBit x a != signBit x b) && (signBit x (aluDifference x a b) != signBit x a)

/-- C: the borrow of a - b, as unsigned integers (R117). -/
def aluC (x : XLen) (a b : Word) : Bool :=
  decide (((trim x a).toNat : Int) - ((trim x b).toNat : Int) < 0)

/-- The condition of SLT: signed(a) < signed(b) (R106, R107). -/
def lessSigned (x : XLen) (a b : Word) : Bool := decide (signed x a < signed x b)

/-- The condition of SLTU: a < b, both unsigned (R108, R109). -/
def lessUnsigned (x : XLen) (a b : Word) : Bool := decide ((trim x a).toNat < (trim x b).toNat)

/-- The whole register a comparison writes: 1 or 0 (R106). -/
def truthWord (c : Bool) : Word := if c then 1#32 else 0#32

end Sys2Proof.Machine
end

