-- ==== Sys2Proof/WellFormed.lean ====
section
/-! DEFINITION. WellFormed.lean: which instructions the manual's encoding tables contain. The types of
Syntax.lean already bound every field to its width; what is left to check is the fixed-field rule
30_encoding.md R82. -/

namespace Sys2Proof

/-- R82: "LSR, ASR have RsB = 000; LDB, LDW have RsA = 000; STB, STW and register-form BEZ, BNZ have
Rst = 000". Every other form has no fixed register field. -/
def Instr.fixedFieldsZero : Instr → Bool
  | .lsr _ _ rsb | .asr _ _ rsb => rsb == .r0
  | .ldb _ rsa _ | .ldw _ rsa _ => rsa == .r0
  | .stb rst _ _ | .stw rst _ _ => rst == .r0
  | .bezR rst _ _ | .bezRAsm rst _ _ | .bnzR rst _ _ | .bnzRAsm rst _ _ => rst == .r0
  | .andR _ _ _ | .andI _ _ | .orR _ _ _ | .orI _ _ | .xorR _ _ _ | .xorI _ _ => true
  | .sltR _ _ _ | .sltI _ _ | .sltuR _ _ _ | .sltuI _ _ => true
  | .addR _ _ _ | .addI _ _ | .subR _ _ _ | .subI _ _ | .ldr _ _ | .ldc _ _ => true
  | .bezI _ _ | .bnzI _ _ | .hcf => true

/-- Well-formed under the switch STRICT_FIXED_FIELDS: with the switch off the fixed fields are ignored,
so every term is an instruction (R82). -/
def Instr.wellFormed (strict : Bool) (i : Instr) : Bool :=
  !strict || i.fixedFieldsZero

end Sys2Proof
end

