-- ==== Sys2Proof/Decode.lean ====
section
/-! DEFINITION. Decode.lean: from instruction words to instructions and back (30_encoding.md R70 to R86).
The decoder is total: it answers an instruction or names why the word is none. -/

namespace Sys2Proof

/-- Why bytes are not an instruction. Both word cases are the reserved set of R83 and raise the model
fault IllegalInstruction(word) when executed. -/
inductive DecodeError where
  /-- fewer than the two bytes every instruction has (R70) -/
  | truncated
  /-- no row of R78 and R79 has this Opcode, Imm and Op2 -/
  | reservedOpcode (w : Code)
  /-- a row matches but for a must-be-r0 field that is not 000, under STRICT_FIXED_FIELDS (R82) -/
  | fixedField (w : Code)
deriving DecidableEq, Repr

/-! ### Fields (R13, R71, R72) -/

def fieldOpcode (w : Code) : BitVec 4 := w.extractLsb' 12 4
def fieldImm (w : Code) : BitVec 1 := w.extractLsb' 11 1
def fieldRst (w : Code) : BitVec 3 := w.extractLsb' 8 3
def fieldRsA (w : Code) : BitVec 3 := w.extractLsb' 5 3
def fieldRsB (w : Code) : BitVec 3 := w.extractLsb' 2 3
def fieldOp2 (w : Code) : BitVec 2 := w.extractLsb' 0 2
def fieldImm8 (w : Code) : Imm8 := w.extractLsb' 0 8

/-- A 3-bit register field with value k names rk (R74). -/
def regOfField (f : BitVec 3) : Reg :=
  match f.toNat with
  | 0 => .r0
  | 1 => .r1
  | 2 => .r2
  | 3 => .r3
  | 4 => .r4
  | 5 => .r5
  | 6 => .r6
  | _ => .r7

/-- The 3-bit field that names a register (R74). -/
def fieldOfReg : Reg → BitVec 3
  | .r0 => 0#3
  | .r1 => 1#3
  | .r2 => 2#3
  | .r3 => 3#3
  | .r4 => 4#3
  | .r5 => 5#3
  | .r6 => 6#3
  | .r7 => 7#3

/-! ### The opcode map -/

/-- The HCF word, tested whole before any field is looked at (R85). -/
def hcfWord : Code := 0x0003#16

/-- R78: the I-format instruction of an Opcode. -/
def iFormatRow (opc : BitVec 4) : Option (Reg → Imm8 → Instr) :=
  match opc.toNat with
  | 0 => some .andI
  | 1 => some .orI
  | 2 => some .xorI
  | 3 => some .sltI
  | 4 => some .sltuI
  | 5 => some .addI
  | 6 => some .subI
  | 8 => some .ldr
  | 9 => some .ldc
  | 10 => some .bezI
  | 11 => some .bnzI
  | _ => none

/-- R79: the R-format instruction of an Op2 and an Opcode. -/
def rFormatRow (op2 : BitVec 2) (opc : BitVec 4) : Option (Reg → Reg → Reg → Instr) :=
  match op2.toNat, opc.toNat with
  | 0, 0 => some .andR
  | 0, 1 => some .orR
  | 0, 2 => some .xorR
  | 0, 3 => some .sltR
  | 0, 4 => some .sltuR
  | 0, 5 => some .addR
  | 0, 6 => some .subR
  | 0, 10 => some .bezRAsm
  | 0, 11 => some .bnzRAsm
  | 1, 0 => some .lsr
  | 1, 1 => some .asr
  | 2, 0 => some .ldb
  | 2, 1 => some .stb
  | 2, 4 => some .ldw
  | 2, 5 => some .stw
  | 3, 10 => some .bezR
  | 3, 11 => some .bnzR
  | _, _ => none

/-- The instruction whose opcode bits a word has, its fixed fields not yet checked (R86 with
STRICT_FIXED_FIELDS = false). Bit 11 alone selects the format (R73). -/
def decodeFields (w : Code) : Option Instr :=
  if w = hcfWord then some .hcf
  else if fieldImm w = 1#1 then
    (iFormatRow (fieldOpcode w)).map fun mk => mk (regOfField (fieldRst w)) (fieldImm8 w)
  else
    (rFormatRow (fieldOp2 w) (fieldOpcode w)).map fun mk =>
      mk (regOfField (fieldRst w)) (regOfField (fieldRsA w)) (regOfField (fieldRsB w))

/-- R86 `decode`, with the parameter STRICT_FIXED_FIELDS. -/
def decode (strict : Bool) (w : Code) : Except DecodeError Instr :=
  match decodeFields w with
  | none => .error (.reservedOpcode w)
  | some i => if i.wellFormed strict then .ok i else .error (.fixedField w)

/-- The big-endian word of two bytes: "o primeiro byte de uma instrução" is the most significant
(20_memory.md R42, R44). -/
def codeOfBytes (hi lo : Byte) : Code := hi ++ lo

/-- The two bytes of a word, as they lie in memory from the lowest address (R42). -/
def bytesOfCode (w : Code) : List Byte := [w.extractLsb' 8 8, w.extractLsb' 0 8]

/-- Decode the instruction at the head of a list of bytes, with the bytes that follow it. -/
def decodeBytes (strict : Bool) : List Byte → Except DecodeError (Instr × List Byte)
  | hi :: lo :: rest =>
    match decode strict (codeOfBytes hi lo) with
    | .ok i => .ok (i, rest)
    | .error e => .error e
  | _ => .error .truncated

/-- The host's question, under the reference parameters (STRICT_FIXED_FIELDS = true): the instruction the
decoder reads from the table's bits, laid out as the hardware stores them. -/
def decodeTableWord (nbits w : Nat) : Option Instr :=
  match decodeBytes true (bytesOfCode (BitVec.ofNat 16 (w % 2 ^ nbits))) with
  | .ok (i, _) => some i
  | .error _ => none

/-! ### The encoder -/

/-- R71: Opcode, 0, Rst, RsA, RsB, Op2. -/
def encodeR (opc : BitVec 4) (op2 : BitVec 2) (rst rsa rsb : Reg) : Code :=
  opc ++ 0#1 ++ fieldOfReg rst ++ fieldOfReg rsa ++ fieldOfReg rsb ++ op2

/-- R72: Opcode, 1, Rst, Immediate. -/
def encodeI (opc : BitVec 4) (rst : Reg) (imm8 : Imm8) : Code :=
  opc ++ 1#1 ++ fieldOfReg rst ++ imm8

/-- The word of an instruction (R78, R79, R85). -/
def encode : Instr → Code
  | .andR rst rsa rsb => encodeR 0#4 0#2 rst rsa rsb
  | .orR rst rsa rsb => encodeR 1#4 0#2 rst rsa rsb
  | .xorR rst rsa rsb => encodeR 2#4 0#2 rst rsa rsb
  | .sltR rst rsa rsb => encodeR 3#4 0#2 rst rsa rsb
  | .sltuR rst rsa rsb => encodeR 4#4 0#2 rst rsa rsb
  | .addR rst rsa rsb => encodeR 5#4 0#2 rst rsa rsb
  | .subR rst rsa rsb => encodeR 6#4 0#2 rst rsa rsb
  | .andI rst imm8 => encodeI 0#4 rst imm8
  | .orI rst imm8 => encodeI 1#4 rst imm8
  | .xorI rst imm8 => encodeI 2#4 rst imm8
  | .sltI rst imm8 => encodeI 3#4 rst imm8
  | .sltuI rst imm8 => encodeI 4#4 rst imm8
  | .addI rst imm8 => encodeI 5#4 rst imm8
  | .subI rst imm8 => encodeI 6#4 rst imm8
  | .ldr rst imm8 => encodeI 8#4 rst imm8
  | .ldc rst imm8 => encodeI 9#4 rst imm8
  | .lsr rst rsa rsb => encodeR 0#4 1#2 rst rsa rsb
  | .asr rst rsa rsb => encodeR 1#4 1#2 rst rsa rsb
  | .ldb rst rsa rsb => encodeR 0#4 2#2 rst rsa rsb
  | .stb rst rsa rsb => encodeR 1#4 2#2 rst rsa rsb
  | .ldw rst rsa rsb => encodeR 4#4 2#2 rst rsa rsb
  | .stw rst rsa rsb => encodeR 5#4 2#2 rst rsa rsb
  | .bezR rst rsa rsb => encodeR 10#4 3#2 rst rsa rsb
  | .bezRAsm rst rsa rsb => encodeR 10#4 0#2 rst rsa rsb
  | .bezI rst imm8 => encodeI 10#4 rst imm8
  | .bnzR rst rsa rsb => encodeR 11#4 3#2 rst rsa rsb
  | .bnzRAsm rst rsa rsb => encodeR 11#4 0#2 rst rsa rsb
  | .bnzI rst imm8 => encodeI 11#4 rst imm8
  | .hcf => hcfWord

end Sys2Proof
end

