-- ==== Sys2Proof/Machine/Memory.lean ====
section
/-! DEFINITION. Machine/Memory.lean: RAM as a sparse list of cells in one canonical form, read and written by
the byte, and the big-endian words made of bytes (20_memory.md R42, R43). What lies in RAM and what does
not is decided in Machine/Ops.lean. -/

namespace Sys2Proof.Machine

/-- What an address that is not listed reads as: RAM outside the image is zero at the start of a run
(10_state.md R36; D12). -/
def unlistedByte : Byte := 0#8

/-- Every address listed is above `lo`, strictly rising, and no cell holds the unlisted byte. -/
def cellsAbove (lo : Nat) : Memory → Bool
  | [] => true
  | (a, b) :: m => decide (lo < a) && decide (b ≠ unlistedByte) && cellsAbove a m

/-- The canonical form: addresses strictly rising, no cell equal to what an unlisted address reads as. Equal
memories are then equal lists. -/
def Memory.wf : Memory → Bool
  | [] => true
  | (a, b) :: m => decide (b ≠ unlistedByte) && cellsAbove a m

/-- Every listed address is below a bound (RAM is the bytes 0 .. MEM_SIZE-1, R33). -/
def Memory.below (n : Nat) (m : Memory) : Prop := ∀ c ∈ m, c.1 < n

/-- The byte at an address. -/
def readByte : Memory → Nat → Byte
  | [], _ => unlistedByte
  | (k, b) :: m, a => if a = k then b else if a < k then unlistedByte else readByte m a

/-- Put a cell in front, unless it holds the unlisted byte. -/
def consCell (a : Nat) (b : Byte) (m : Memory) : Memory :=
  if b = unlistedByte then m else (a, b) :: m

/-- Write the byte at an address, keeping the canonical form. -/
def writeByte : Memory → Nat → Byte → Memory
  | [], a, b => consCell a b []
  | (k, c) :: m, a, b =>
    if a < k then consCell a b ((k, c) :: m)
    else if a = k then consCell a b m
    else (k, c) :: writeByte m a b

/-- The big-endian value of the `n` bytes from address `a`: `RAM[a] ++ ... ++ RAM[a+n-1]` (R51). -/
def readBytes (m : Memory) (a : Nat) : Nat → Word
  | 0 => 0#32
  | n + 1 => (readBytes m a n <<< 8) ||| (readByte m (a + n)).setWidth 32

/-- Write the low `8n` bits of `v` to the `n` bytes from address `a`, most significant byte first (R52). -/
def writeBytes (m : Memory) (a : Nat) : Nat → Word → Memory
  | 0, _ => m
  | n + 1, v => writeBytes (writeByte m (a + n) (v.setWidth 8)) a n (v >>> 8)

/-- The 16-bit instruction word at an address: `RAM[a] ++ RAM[a+1]` (R44). -/
def readCode (m : Memory) (a : Nat) : Code :=
  codeOfBytes (readByte m a) (readByte m (a + 1))

/-- Place bytes from address `a` upward. -/
def placeBytes (m : Memory) (a : Nat) : List Byte → Memory
  | [] => m
  | b :: bs => placeBytes (writeByte m a b) (a + 1) bs

/-- Place 16-bit words from address `a` upward, big-endian (R321). -/
def placeWords (m : Memory) (a : Nat) : List Code → Memory
  | [] => m
  | w :: ws => placeWords (placeBytes m a (bytesOfCode w)) (a + 2) ws

end Sys2Proof.Machine
end

