-- ==== Sys2Proof/Machine/Ops.lean ====
section
/-! DEFINITION. Machine/Ops.lean: the operations the instruction meanings share: raising a model fault, the
devices, MemRead and MemWrite, Fetch, and one form each for computing, loading, storing and branching
(20_memory.md R44 to R55; 60_exceptions.md R281 to R300). The architecture has no exceptions and no return
from one (60_exceptions.md R280): a model fault ends the run. -/

namespace Sys2Proof.Machine

/-- What one instruction or one step answers. -/
abbrev Result := Host.Outcome State Fault Refusal

/-- `raise <Fault>(info)`: stop the run with a model fault; no architectural state changes (R12, R281). Nothing is
saved and control goes nowhere: the architecture has no vector and no handler (R280, R284). -/
def raise (f : Fault) : Result := .fault f

/-! ### Named state updates -/

def State.setMem (s : State) (m : Memory) : State := { s with mem := m }

/-- Append bytes to the host output (R294, R295). -/
def State.emit (s : State) (bs : List Byte) : State := { s with output := s.output ++ bs }

/-- Leave only `rest` of the host input (R296, R297). -/
def State.setInput (s : State) (rest : List Int) : State := { s with input := rest }

/-- `halted <- true` (R180). -/
def State.halt (s : State) : State := { s with halted := true }

/-- Count one executed instruction (R335). -/
def State.count (s : State) : State := { s with cycles := s.cycles + 1 }

/-- Latch whether the stack check fired (R300). -/
def State.latchStackLimit (s : State) (hit : Bool) : State := { s with stackLimitHit := hit }

/-! ### Devices (R292 to R298) -/

/-- The ASCII code of a decimal digit (R295). -/
def digitByte (d : Nat) : Byte := BitVec.ofNat 8 (0x30 + d % 10)

/-- The decimal digits of `n`, most significant first, no leading zeros, `0` for zero; `fuel` above `n` is
enough. -/
def decimalDigits : Nat → Nat → List Byte
  | 0, _ => []
  | fuel + 1, n =>
    if n < 10 then [digitByte n] else decimalDigits fuel (n / 10) ++ [digitByte n]

/-- The decimal text of an integer: a leading `-` for negative values, no sign for positive (R295). -/
def decimalText (z : Int) : List Byte :=
  if z < 0 then 0x2D#8 :: decimalDigits (z.natAbs + 1) z.natAbs
  else decimalDigits (z.natAbs + 1) z.natAbs

/-- `WriteCharDevice(v)`: append the single byte v[7:0] (R294). -/
def writeCharDevice (s : State) (v : Word) : State := s.emit [v.setWidth 8]

/-- `WriteIntDevice(v)`: append the decimal text of signed(v), with no separator (R295). -/
def writeIntDevice (s : State) (v : Word) : State := s.emit (decimalText (signed s.cfg.xlen v))

/-- `ReadCharDevice()`: consume the head n of `input`; the result is n mod 256, zero-extended (R296). -/
def readCharDevice (s : State) : Except Fault (Word × State) :=
  match s.input with
  | [] => .error .inputExhausted
  | n :: rest => .ok (zext8 (BitVec.ofInt 8 n), s.setInput rest)

/-- `ReadIntDevice()`: consume the head n of `input`; the result is n mod 2^XLEN (R297). -/
def readIntDevice (s : State) : Except Fault (Word × State) :=
  match s.input with
  | [] => .error .inputExhausted
  | n :: rest => .ok (trim s.cfg.xlen (BitVec.ofInt 32 n), s.setInput rest)

/-! ### Memory accesses -/

/-- The two access widths: n = 1 and n = WORD_BYTES (R48). -/
inductive Size where
  | byte
  | word
deriving DecidableEq, Repr

/-- The number of bytes of an access (R48). -/
def sizeBytes (x : XLen) : Size → Nat
  | .byte => 1
  | .word => x.wordBytes

/-- A word access at an address that is not a multiple of WORD_BYTES (R45, R46). -/
def misaligned (x : XLen) (sz : Size) (a : Word) : Bool :=
  sz == .word && a.toNat % x.wordBytes != 0

/-- All `n` bytes from `a` are in RAM, computed without wrap-around (R51, R52). -/
def inRam (c : Config) (a : Word) (n : Nat) : Bool := decide (a.toNat + n ≤ c.memSize)

/-- `MemRead(a, n)` (R51): the value, and the state after the device side effect if any (R54). -/
def memRead (s : State) (sz : Size) (a : Word) : Except Fault (Word × State) :=
  if misaligned s.cfg.xlen sz a then .error (.misalignedAccess a)
  else if sz = .word ∧ a = s.cfg.inChar then readCharDevice s
  else if sz = .word ∧ a = s.cfg.inInt then readIntDevice s
  else if inRam s.cfg a (sizeBytes s.cfg.xlen sz) then
    .ok (readBytes s.mem a.toNat (sizeBytes s.cfg.xlen sz), s)
  else .error (.accessFault a)

/-- `MemWrite(a, n, v)` (R52). -/
def memWrite (s : State) (sz : Size) (a v : Word) : Except Fault State :=
  if misaligned s.cfg.xlen sz a then .error (.misalignedAccess a)
  else if sz = .word ∧ a = s.cfg.outChar then .ok (writeCharDevice s v)
  else if sz = .word ∧ a = s.cfg.outInt then .ok (writeIntDevice s v)
  else if inRam s.cfg a (sizeBytes s.cfg.xlen sz) then
    .ok (s.setMem (writeBytes s.mem a.toNat (sizeBytes s.cfg.xlen sz) v))
  else .error (.accessFault a)

/-- `Fetch(pc)`: from RAM only, no side effect (R44, R47, R63). -/
def fetch (s : State) : Except Fault Code :=
  if s.pc.toNat % 2 ≠ 0 then .error (.misalignedFetch s.pc)
  else if inRam s.cfg s.pc 2 then .ok (readCode s.mem s.pc.toNat)
  else .error (.accessFault s.pc)

/-- Decode the fetched word; an undefined word raises IllegalInstruction (R83, R86). -/
def decodeStep (s : State) (w : Code) : Except Fault Instr :=
  match decode s.cfg.strictFixedFields w with
  | .ok i => .ok i
  | .error _ => .error (.illegalInstruction w)

/-! ### The four shapes of an instruction -/

/-- A computation or a shift: the sources are already read; write r[rst], then pc + 2 (R119, R133). -/
def compute (rst : Reg) (v : Word) (s : State) : Result :=
  .next ((s.setReg rst v).advance)

/-- A load: one access at r[rsb], r[rst] gets the value read, then pc + 2; on a fault nothing changes (R145). -/
def load (sz : Size) (extend : Word → Word) (rst rsb : Reg) (s : State) : Result :=
  match memRead s sz (s.reg rsb) with
  | .ok (v, t) => .next ((t.setReg rst (extend v)).advance)
  | .error f => raise f

/-- A store: one access at r[rsb] with the value of r[rsa], then pc + 2; no register is written (R145, R24). -/
def store (sz : Size) (rsa rsb : Reg) (s : State) : Result :=
  match memWrite s sz (s.reg rsb) (s.reg rsa) with
  | .ok t => .next t.advance
  | .error f => raise f

/-- A conditional branch: the target if taken, else pc + 2. The target is not checked (R167) and no register is
written (R169). -/
def branch (taken : Bool) (target : Word) (s : State) : Result :=
  .next (if taken then s.setPc target else s.advance)

/-- The target of a PC-relative branch: the offset is added to the address of the following instruction (R164). -/
def relativeTarget (s : State) (imm8 : Imm8) : Word := s.pc + 2#32 + s.signImm imm8

/-! ### Around an instruction -/

/-- The end of the run, if it has ended: a model fault recorded by `run`, HCF, or the stack check (R14). -/
def State.ending (s : State) : Option Fault :=
  match s.fault with
  | some f => some f
  | none =>
    if s.halted then some .runHalted
    else if s.stackLimitHit then some .runStackLimit
    else none

/-- The environment's stack check: `r[7] < limit` as unsigned values (R300). -/
def stackCheckFires (s : State) : Bool :=
  s.cfg.stackCheck && decide ((s.reg .r7).toNat < s.stackLimit)

/-- What a step adds after an instruction other than HCF: one more cycle, then the stack check (R86, R300). -/
def retire (i : Instr) (s : State) : State :=
  if i = .hcf then s else s.count.latchStackLimit (stackCheckFires s)

end Sys2Proof.Machine
end

