-- ==== Sys2Proof/Machine/Branch.lean ====
section
/-! DEFINITION. Machine/Branch.lean: the conditional branches (44_branch.md R160 to R169). The whole XLEN-bit
register is tested (R165); there is no delay slot (R168). -/

namespace Sys2Proof.Machine

/-- "zero" means all bits 0 (R165). -/
def isZero (v : Word) : Bool := v == 0#32

/-- BEZ, register form: if r[rsa] = 0 then pc <- r[rsb] else pc <- pc + 2 (R160). -/
def execBezR (_rst rsa rsb : Reg) (s : State) : Result :=
  branch (isZero (s.reg rsa)) (s.reg rsb) s

/-- BEZ, register form in the assembler's encoding: the same instruction (R160, R81). -/
def execBezRAsm (_rst rsa rsb : Reg) (s : State) : Result :=
  branch (isZero (s.reg rsa)) (s.reg rsb) s

/-- BEZ, PC-relative: if r[rst] = 0 then pc <- pc + 2 + sext_8(imm8) else pc <- pc + 2 (R161). -/
def execBezI (rst : Reg) (imm8 : Imm8) (s : State) : Result :=
  branch (isZero (s.reg rst)) (relativeTarget s imm8) s

/-- BNZ, register form: if r[rsa] != 0 then pc <- r[rsb] else pc <- pc + 2 (R162). -/
def execBnzR (_rst rsa rsb : Reg) (s : State) : Result :=
  branch (!isZero (s.reg rsa)) (s.reg rsb) s

/-- BNZ, register form in the assembler's encoding: the same instruction (R162, R81). -/
def execBnzRAsm (_rst rsa rsb : Reg) (s : State) : Result :=
  branch (!isZero (s.reg rsa)) (s.reg rsb) s

/-- BNZ, PC-relative: if r[rst] != 0 then pc <- pc + 2 + sext_8(imm8) else pc <- pc + 2 (R163). -/
def execBnzI (rst : Reg) (imm8 : Imm8) (s : State) : Result :=
  branch (!isZero (s.reg rst)) (relativeTarget s imm8) s

end Sys2Proof.Machine
end

