-- ==== Sys2Proof/Machine/Computation.lean ====
section
/-! DEFINITION. Machine/Computation.lean: the computation class (41_computation.md R100 to R116, R119). Every
meaning reads its sources, writes r[rst] and advances pc; none touches memory or raises a fault. -/

namespace Sys2Proof.Machine

/-- AND: r[rst] <- r[rsa] & r[rsb] (R100). -/
def execAndR (rst rsa rsb : Reg) (s : State) : Result :=
  compute rst (s.reg rsa &&& s.reg rsb) s

/-- AND: r[rst] <- r[rst] & zext_8(imm8) (R101). -/
def execAndI (rst : Reg) (imm8 : Imm8) (s : State) : Result :=
  compute rst (s.reg rst &&& s.zeroImm imm8) s

/-- OR: r[rst] <- r[rsa] | r[rsb] (R102). -/
def execOrR (rst rsa rsb : Reg) (s : State) : Result :=
  compute rst (s.reg rsa ||| s.reg rsb) s

/-- OR: r[rst] <- r[rst] | zext_8(imm8) (R103). -/
def execOrI (rst : Reg) (imm8 : Imm8) (s : State) : Result :=
  compute rst (s.reg rst ||| s.zeroImm imm8) s

/-- XOR: r[rst] <- r[rsa] ^ r[rsb] (R104). -/
def execXorR (rst rsa rsb : Reg) (s : State) : Result :=
  compute rst (s.reg rsa ^^^ s.reg rsb) s

/-- XOR: r[rst] <- r[rst] ^ sext_8(imm8) (R105). -/
def execXorI (rst : Reg) (imm8 : Imm8) (s : State) : Result :=
  compute rst (s.reg rst ^^^ s.signImm imm8) s

/-- SLT: r[rst] <- 1 if r[rsa] < r[rsb], both signed, else 0 (R106). -/
def execSltR (rst rsa rsb : Reg) (s : State) : Result :=
  compute rst (truthWord (lessSigned s.cfg.xlen (s.reg rsa) (s.reg rsb))) s

/-- SLT: r[rst] <- 1 if r[rst] < sext_8(imm8), both signed, else 0 (R107). -/
def execSltI (rst : Reg) (imm8 : Imm8) (s : State) : Result :=
  compute rst (truthWord (lessSigned s.cfg.xlen (s.reg rst) (s.signImm imm8))) s

/-- SLTU: r[rst] <- 1 if r[rsa] < r[rsb], both unsigned, else 0 (R108). -/
def execSltuR (rst rsa rsb : Reg) (s : State) : Result :=
  compute rst (truthWord (lessUnsigned s.cfg.xlen (s.reg rsa) (s.reg rsb))) s

/-- SLTU: r[rst] <- 1 if r[rst] < sext_8(imm8), both unsigned, else 0 (R109). -/
def execSltuI (rst : Reg) (imm8 : Imm8) (s : State) : Result :=
  compute rst (truthWord (lessUnsigned s.cfg.xlen (s.reg rst) (s.signImm imm8))) s

/-- ADD: r[rst] <- r[rsa] + r[rsb] (R110). -/
def execAddR (rst rsa rsb : Reg) (s : State) : Result :=
  compute rst (s.reg rsa + s.reg rsb) s

/-- ADD: r[rst] <- r[rst] + sext_8(imm8) (R111). -/
def execAddI (rst : Reg) (imm8 : Imm8) (s : State) : Result :=
  compute rst (s.reg rst + s.signImm imm8) s

/-- SUB: r[rst] <- r[rsa] - r[rsb] (R112). -/
def execSubR (rst rsa rsb : Reg) (s : State) : Result :=
  compute rst (s.reg rsa - s.reg rsb) s

/-- SUB: r[rst] <- r[rst] - sext_8(imm8) (R113). -/
def execSubI (rst : Reg) (imm8 : Imm8) (s : State) : Result :=
  compute rst (s.reg rst - s.signImm imm8) s

/-- LDR: r[rst] <- sext_8(imm8), whatever r[rst] held (R114). -/
def execLdr (rst : Reg) (imm8 : Imm8) (s : State) : Result :=
  compute rst (s.signImm imm8) s

/-- LDC: r[rst] <- ((r[rst] << 8) mod 2^XLEN) + zext_8(imm8) (R115). -/
def execLdc (rst : Reg) (imm8 : Imm8) (s : State) : Result :=
  compute rst ((s.reg rst <<< 8) + s.zeroImm imm8) s

end Sys2Proof.Machine
end

