-- ==== Sys2Proof/Machine/LoadStore.lean ====
section
/-! DEFINITION. Machine/LoadStore.lean: the four memory instructions (43_load_store.md R140 to R145). The address is
the unmodified content of RsB (R140); the remaining register field is fixed and carries no information (R145). -/

namespace Sys2Proof.Machine

/-- LDB: r[rst] <- sext_8(MemRead(r[rsb], 1)) (R141). -/
def execLdb (rst _rsa rsb : Reg) (s : State) : Result :=
  load .byte (fun v => sext8 s.cfg.xlen (v.setWidth 8)) rst rsb s

/-- STB: MemWrite(r[rsb], 1, r[rsa][7:0]) (R142). -/
def execStb (_rst rsa rsb : Reg) (s : State) : Result :=
  store .byte rsa rsb s

/-- LDW: r[rst] <- MemRead(r[rsb], WORD_BYTES), no extension (R143). -/
def execLdw (rst _rsa rsb : Reg) (s : State) : Result :=
  load .word id rst rsb s

/-- STW: MemWrite(r[rsb], WORD_BYTES, r[rsa]) (R144). -/
def execStw (_rst rsa rsb : Reg) (s : State) : Result :=
  store .word rsa rsb s

end Sys2Proof.Machine
end

