-- ==== Sys2Proof/Machine/Shift.lean ====
section
/-! DEFINITION. Machine/Shift.lean: the shifts, right by exactly one bit (42_shift.md R130 to R133). The field
RsB carries no information and the content of r0 is not used (R132). -/

namespace Sys2Proof.Machine

/-- `0 ++ v[XLEN-1:1]` (R130). -/
def shiftRightLogical (x : XLen) (v : Word) : Word := ((v.setWidth x.bits) >>> 1).setWidth 32

/-- `v[XLEN-1] ++ v[XLEN-1:1]` (R131). -/
def shiftRightArithmetic (x : XLen) (v : Word) : Word :=
  ((v.setWidth x.bits).sshiftRight 1).setWidth 32

/-- LSR: r[rst] <- 0 ++ r[rsa][XLEN-1:1] (R130). -/
def execLsr (rst rsa _rsb : Reg) (s : State) : Result :=
  compute rst (shiftRightLogical s.cfg.xlen (s.reg rsa)) s

/-- ASR: r[rst] <- r[rsa][XLEN-1] ++ r[rsa][XLEN-1:1] (R131). -/
def execAsr (rst rsa _rsb : Reg) (s : State) : Result :=
  compute rst (shiftRightArithmetic s.cfg.xlen (s.reg rsa)) s

end Sys2Proof.Machine
end

