-- ==== Sys2Proof/Machine/System.lean ====
section
/-! DEFINITION. Machine/System.lean: HCF, the one system-type operation (45_system.md R180 to R182). -/

namespace Sys2Proof.Machine

/-- HCF: `halted <- true` and nothing else; pc keeps the address of the HCF word (R180). -/
def execHcf (s : State) : Result := .next s.halt

end Sys2Proof.Machine
end

