-- ==== Sys2Proof/Machine/Dispatch.lean ====
section
/-! DEFINITION. Machine/Dispatch.lean: one arm per instruction, each a direct call of its meaning. -/

namespace Sys2Proof.Machine

def exec (i : Instr) (s : State) : Host.Outcome State Fault Refusal :=
  match i with
  | .andR rst rsa rsb => Sys2Proof.Machine.execAndR rst rsa rsb s
  | .andI rst imm8 => Sys2Proof.Machine.execAndI rst imm8 s
  | .orR rst rsa rsb => Sys2Proof.Machine.execOrR rst rsa rsb s
  | .orI rst imm8 => Sys2Proof.Machine.execOrI rst imm8 s
  | .xorR rst rsa rsb => Sys2Proof.Machine.execXorR rst rsa rsb s
  | .xorI rst imm8 => Sys2Proof.Machine.execXorI rst imm8 s
  | .sltR rst rsa rsb => Sys2Proof.Machine.execSltR rst rsa rsb s
  | .sltI rst imm8 => Sys2Proof.Machine.execSltI rst imm8 s
  | .sltuR rst rsa rsb => Sys2Proof.Machine.execSltuR rst rsa rsb s
  | .sltuI rst imm8 => Sys2Proof.Machine.execSltuI rst imm8 s
  | .addR rst rsa rsb => Sys2Proof.Machine.execAddR rst rsa rsb s
  | .addI rst imm8 => Sys2Proof.Machine.execAddI rst imm8 s
  | .subR rst rsa rsb => Sys2Proof.Machine.execSubR rst rsa rsb s
  | .subI rst imm8 => Sys2Proof.Machine.execSubI rst imm8 s
  | .ldr rst imm8 => Sys2Proof.Machine.execLdr rst imm8 s
  | .ldc rst imm8 => Sys2Proof.Machine.execLdc rst imm8 s
  | .lsr rst rsa rsb => Sys2Proof.Machine.execLsr rst rsa rsb s
  | .asr rst rsa rsb => Sys2Proof.Machine.execAsr rst rsa rsb s
  | .ldb rst rsa rsb => Sys2Proof.Machine.execLdb rst rsa rsb s
  | .stb rst rsa rsb => Sys2Proof.Machine.execStb rst rsa rsb s
  | .ldw rst rsa rsb => Sys2Proof.Machine.execLdw rst rsa rsb s
  | .stw rst rsa rsb => Sys2Proof.Machine.execStw rst rsa rsb s
  | .bezR rst rsa rsb => Sys2Proof.Machine.execBezR rst rsa rsb s
  | .bezRAsm rst rsa rsb => Sys2Proof.Machine.execBezRAsm rst rsa rsb s
  | .bezI rst imm8 => Sys2Proof.Machine.execBezI rst imm8 s
  | .bnzR rst rsa rsb => Sys2Proof.Machine.execBnzR rst rsa rsb s
  | .bnzRAsm rst rsa rsb => Sys2Proof.Machine.execBnzRAsm rst rsa rsb s
  | .bnzI rst imm8 => Sys2Proof.Machine.execBnzI rst imm8 s
  | .hcf => Sys2Proof.Machine.execHcf s

end Sys2Proof.Machine
end

