-- ==== Sys2Proof/Machine/Step.lean ====
section
/-! DEFINITION. Machine/Step.lean: one step of the machine (30_encoding.md R86; 10_state.md R38) and the host's way of
placing an instruction where the next step fetches it. -/

namespace Sys2Proof.Machine

/-- R86: fetch, decode, execute, then count the instruction and apply the stack check. A state whose run has
ended has no successor. -/
def step (s : State) : Host.Outcome State Fault Refusal :=
  match s.ending with
  | some f => .fault f
  | none =>
    match fetch s with
    | .error f => .fault f
    | .ok w =>
      match decodeStep s w with
      | .error f => .fault f
      | .ok i =>
        match exec i s with
        | .next t => .next (retire i t)
        | .fault f => .fault f
        | .refused r => .refused r

/-- Where an instruction can be placed for the next fetch: at pc if a fetch there succeeds, else at address 0,
the program's first instruction (R36). -/
def fetchAddress (s : State) : Word :=
  if s.pc.toNat % 2 = 0 ∧ inRam s.cfg s.pc 2 then s.pc else 0#32

/-- The state whose next step runs the instruction word `w`: the word's two bytes lie at pc, and the run has not
ended. A pc that no fetch accepts is moved to 0. Nothing else changes. -/
def State.withFetchWord (s : State) (nbits w : Nat) : State :=
  { s with
    pc := fetchAddress s
    mem := placeBytes s.mem (fetchAddress s).toNat (bytesOfCode (BitVec.ofNat 16 (w % 2 ^ nbits)))
    halted := false
    stackLimitHit := false
    fault := none }

end Sys2Proof.Machine
end

