-- ==== Sys2Proof/Machine/Pseudo.lean ====
section
/-! DEFINITION. Machine/Pseudo.lean: the pseudo-operations, as the instruction sequences they stand for
(46_pseudo_ops.md R190 to R237). The hardware never sees them; register branches take the assembler's encoding
(30_encoding.md R81). A label or constant is its 16-bit value: the reference assembler is 16-bit (R196). -/

namespace Sys2Proof.Machine

/-! ### Register spellings (10_state.md R22): other names of the same registers -/

/-- The assembler temporary `at`. -/
abbrev rAt : Reg := .r0
/-- The scratch register `sr`. -/
abbrev rSr : Reg := .r5
/-- The link register `lr`. -/
abbrev rLr : Reg := .r6
/-- The stack pointer `sp`. -/
abbrev rSp : Reg := .r7

/-- The pseudo-operations, in the order of 46_pseudo_ops.md. The operands `a`, `b`, `c` are the r1, r2,
r3 of the manual's tables. -/
inductive Pseudo where
  /-- R191 -/
  | nop
  /-- R192 -/
  | not (a : Reg)
  /-- R193, the v0.4 form (C6) -/
  | neg (a : Reg)
  /-- R194 -/
  | lsr (a b : Reg)
  /-- R197 -/
  | asr (a b : Reg)
  /-- R195 -/
  | lsl (a b : Reg)
  /-- R196 -/
  | ldi (a : Reg) (const : Code)
  /-- R198, second operand a register -/
  | bez (a b : Reg)
  /-- R198, second operand a label -/
  | bezLabel (a : Reg) (addr : Code)
  /-- R199, second operand a register -/
  | bnz (a b : Reg)
  /-- R199, second operand a label -/
  | bnzLabel (a : Reg) (addr : Code)
  /-- R201 -/
  | ldb (a b : Reg)
  /-- R202 -/
  | ldbLabel (a : Reg) (addr : Code)
  /-- R203 -/
  | stb (a b : Reg)
  /-- R204 -/
  | stbLabel (a : Reg) (addr : Code)
  /-- R205 -/
  | ldw (a b : Reg)
  /-- R206 -/
  | ldwLabel (a : Reg) (addr : Code)
  /-- R207 -/
  | stw (a b : Reg)
  /-- R208 -/
  | stwLabel (a : Reg) (addr : Code)
  /-- R209 -/
  | hcf
  /-- R210 -/
  | lsrm (a b : Reg)
  /-- R211 -/
  | asrm (a b : Reg)
  /-- R212 (C5) -/
  | lslm (a b : Reg)
  /-- R213 -/
  | seq (a b c : Reg)
  /-- R214 -/
  | sne (a b c : Reg)
  /-- R215 -/
  | sge (a b c : Reg)
  /-- R216 -/
  | sgeu (a b c : Reg)
  /-- R217 -/
  | beq (a b : Reg) (addr : Code)
  /-- R218 -/
  | bne (a b : Reg) (addr : Code)
  /-- R219 -/
  | blt (a b : Reg) (addr : Code)
  /-- R220 -/
  | bge (a b : Reg) (addr : Code)
  /-- R221 -/
  | bltu (a b : Reg) (addr : Code)
  /-- R222 -/
  | bgeu (a b : Reg) (addr : Code)
  /-- R223 (C16) -/
  | sgt (a b c : Reg)
  /-- R224 -/
  | sle (a b c : Reg)
  /-- R225 -/
  | sgtu (a b c : Reg)
  /-- R226 -/
  | sleu (a b c : Reg)
  /-- R227 -/
  | bgt (a b : Reg) (addr : Code)
  /-- R228 -/
  | ble (a b : Reg) (addr : Code)
  /-- R229 -/
  | bgtu (a b : Reg) (addr : Code)
  /-- R230 -/
  | bleu (a b : Reg) (addr : Code)
  /-- R231 -/
  | jmp (addr : Code)
  /-- R232; `raddr` is the address after the jump -/
  | jal (addr raddr : Code)
  /-- R233 -/
  | jmpr (a : Reg)
  /-- R234 -/
  | jalr (a : Reg) (raddr : Code)
  /-- R235 -/
  | ret
  /-- R236, a call of mulsi3 at address `routine` -/
  | mul (a b c : Reg) (routine raddr : Code)
  /-- R236, a call of divsi3 -/
  | div (a b c : Reg) (routine raddr : Code)
  /-- R236, a call of modsi3 -/
  | rem (a b c : Reg) (routine raddr : Code)
deriving DecidableEq, Repr

/-- The three groups of R190. -/
inductive PseudoGroup where
  /-- (a) basic, supported by the assembler -/
  | basic
  /-- (b) multi-bit shifts, supported by the assembler -/
  | multiBitShift
  /-- (c) not supported by the assembler -/
  | writtenByHand
deriving DecidableEq, Repr

/-- The group of a pseudo-operation (R190). -/
def pseudoGroup : Pseudo → PseudoGroup
  | .nop | .not _ | .neg _ | .lsr _ _ | .asr _ _ | .lsl _ _ | .ldi _ _ => .basic
  | .bez _ _ | .bezLabel _ _ | .bnz _ _ | .bnzLabel _ _ => .basic
  | .ldb _ _ | .ldbLabel _ _ | .stb _ _ | .stbLabel _ _ => .basic
  | .ldw _ _ | .ldwLabel _ _ | .stw _ _ | .stwLabel _ _ | .hcf => .basic
  | .lsrm _ _ | .asrm _ _ | .lslm _ _ => .multiBitShift
  | .seq _ _ _ | .sne _ _ _ | .sge _ _ _ | .sgeu _ _ _ => .writtenByHand
  | .beq _ _ _ | .bne _ _ _ | .blt _ _ _ | .bge _ _ _ | .bltu _ _ _ | .bgeu _ _ _ => .writtenByHand
  | .sgt _ _ _ | .sle _ _ _ | .sgtu _ _ _ | .sleu _ _ _ => .writtenByHand
  | .bgt _ _ _ | .ble _ _ _ | .bgtu _ _ _ | .bleu _ _ _ => .writtenByHand
  | .jmp _ | .jal _ _ | .jmpr _ | .jalr _ _ | .ret => .writtenByHand
  | .mul _ _ _ _ _ | .div _ _ _ _ _ | .rem _ _ _ _ _ => .writtenByHand

/-! ### Sequences used more than once -/

/-- `ldi a,const` (R196): the high byte first. -/
def ldi (a : Reg) (const : Code) : List Instr :=
  [.ldc a (const.extractLsb' 8 8), .ldc a (const.extractLsb' 0 8)]

/-- `bez r0,r1,r2` as the assembler encodes it. -/
def bezTo (a b : Reg) : Instr := .bezRAsm .r0 a b

/-- `bnz r0,r1,r2` as the assembler encodes it. -/
def bnzTo (a b : Reg) : Instr := .bnzRAsm .r0 a b

/-- The counting loop after one single-bit shift (R210): `sub b,1 ; bnz b,-6`. -/
def shiftLoop (shift : Instr) (b : Reg) : List Instr := [shift, .subI b 1#8, .bnzI b 0xFA#8]

/-- `sge` (R215) and, with `cmp` unsigned, `sgeu` (R216): 1 minus the less-than bit. -/
def notLess (cmp : Reg → Reg → Reg → Instr) (a b c : Reg) : List Instr :=
  [cmp a b c, .ldr rAt 1#8, .subR a rAt a]

/-- A compare-and-branch (R217 to R222): load the target into at, compute the test into a, branch. -/
def compareBranch (addr : Code) (test : Instr) (jump : Instr) : List Instr :=
  ldi rAt addr ++ [test, jump]

/-- Push one register (R261, 16-bit): `sub sp,2 ; stw r0,r1,sp`. -/
def push16 (a : Reg) : List Instr := [.subI rSp 2#8, .stw .r0 a rSp]

/-- The call sequence of MUL, DIV and REM (R236), with the copy `and a,sr,sr` that C8 settles. R236 gives the size 30 bytes,
but the instructions it lists are 14, 28 bytes, as at 0x0010 to 0x002A of P4 (96_programs.md); the model takes the
listed instructions (DESIGN CHOICE, log entry 18). -/
def arithmeticCall (a b c : Reg) (routine raddr : Code) : List Instr :=
  push16 b ++ push16 c ++ push16 rLr ++ ldi rLr raddr ++ ldi rSr routine ++
    [bnzTo rSp rSr, .ldw rLr .r0 rSp, .addI rSp 6#8, .andR a rSr rSr]

/-- The older expansion of NEG (R193, v0.2), which clobbers at. -/
def negThroughAt (a : Reg) : List Instr := [.xorR rAt rAt rAt, .subR a rAt a]

/-- The expansion of each pseudo-operation (R191 to R236). -/
def expand : Pseudo → List Instr
  | .nop => [.andR .r0 .r0 .r0]
  | .not a => [.xorI a 0xFF#8]
  | .neg a => [.xorI a 0xFF#8, .addI a 1#8]
  | .lsr a b => [.lsr a b .r0]
  | .asr a b => [.asr a b .r0]
  | .lsl a b => [.addR a b b]
  | .ldi a const => ldi a const
  | .bez a b => [bezTo a b]
  | .bezLabel a addr => ldi rAt addr ++ [bezTo a rAt]
  | .bnz a b => [bnzTo a b]
  | .bnzLabel a addr => ldi rAt addr ++ [bnzTo a rAt]
  | .ldb a b => [.ldb a .r0 b]
  | .ldbLabel a addr => ldi rAt addr ++ [.ldb a .r0 rAt]
  | .stb a b => [.stb .r0 a b]
  | .stbLabel a addr => ldi rAt addr ++ [.stb .r0 a rAt]
  | .ldw a b => [.ldw a .r0 b]
  | .ldwLabel a addr => ldi rAt addr ++ [.ldw a .r0 rAt]
  | .stw a b => [.stw .r0 a b]
  | .stwLabel a addr => ldi rAt addr ++ [.stw .r0 a rAt]
  | .hcf => [.hcf]
  | .lsrm a b => shiftLoop (.lsr a a .r0) b
  | .asrm a b => shiftLoop (.asr a a .r0) b
  | .lslm a b => shiftLoop (.addR a a a) b
  | .seq a b c => [.subR a b c, .sltuI a 1#8]
  | .sne a b c => [.subR a b c, .xorR rAt rAt rAt, .sltuR a rAt a]
  | .sge a b c => notLess .sltR a b c
  | .sgeu a b c => notLess .sltuR a b c
  | .beq a b addr => compareBranch addr (.subR a a b) (bezTo a rAt)
  | .bne a b addr => compareBranch addr (.subR a a b) (bnzTo a rAt)
  | .blt a b addr => compareBranch addr (.sltR a a b) (bnzTo a rAt)
  | .bge a b addr => compareBranch addr (.sltR a a b) (bezTo a rAt)
  | .bltu a b addr => compareBranch addr (.sltuR a a b) (bnzTo a rAt)
  | .bgeu a b addr => compareBranch addr (.sltuR a a b) (bezTo a rAt)
  | .sgt a b c => [.sltR a c b]
  | .sle a b c => notLess .sltR a c b
  | .sgtu a b c => [.sltuR a c b]
  | .sleu a b c => notLess .sltuR a c b
  | .bgt a b addr => compareBranch addr (.sltR b b a) (bnzTo b rAt)
  | .ble a b addr => compareBranch addr (.sltR b b a) (bezTo b rAt)
  | .bgtu a b addr => compareBranch addr (.sltuR b b a) (bnzTo b rAt)
  | .bleu a b addr => compareBranch addr (.sltuR b b a) (bezTo b rAt)
  | .jmp addr => ldi rAt addr ++ [bnzTo rSp rAt]
  | .jal addr raddr => ldi rAt addr ++ ldi rLr raddr ++ [bnzTo rSp rAt]
  | .jmpr a => [bnzTo rSp a]
  | .jalr a raddr => ldi rLr raddr ++ [bnzTo rSp a]
  | .ret => [bnzTo rSp rLr]
  | .mul a b c routine raddr => arithmeticCall a b c routine raddr
  | .div a b c routine raddr => arithmeticCall a b c routine raddr
  | .rem a b c routine raddr => arithmeticCall a b c routine raddr

/-- An expansion is just consecutive instructions (R237): execute them one after the other. A transfer of
control is meant only as the last one. -/
def execAll : List Instr → State → Result
  | [], s => .next s
  | i :: is, s =>
    match exec i s with
    | .next t => execAll is t
    | .fault f => .fault f
    | .refused r => .refused r

end Sys2Proof.Machine
end

