-- ==== Sys2Proof/Machine/Text.lean ====
section
/-! DEFINITION. Machine/Text.lean: the text helpers the object-file loader and the assembler share: lines, fields
and numbers (47_assembler_abi.md R242, R247, R253). Text is a list of characters. -/

namespace Sys2Proof.Machine

abbrev Text := List Char

/-- White space separates fields (R241, R243, R321). The rules name the space and the tab; that the two line-end
characters are white space and no other character is, is the model's (DESIGN CHOICE, log entries 16 and 17). -/
def isSpace (c : Char) : Bool := c == ' ' || c == '\t' || c == '\r' || c == '\n'

/-- Split at every occurrence of a separator; `cur` holds the piece being read, reversed. -/
def splitAtChar (sep : Char) : Text → Text → List Text
  | [], cur => [cur.reverse]
  | c :: cs, cur =>
    if c == sep then cur.reverse :: splitAtChar sep cs [] else splitAtChar sep cs (c :: cur)

/-- The lines of a text; the piece after the last line end is a line only if it is not empty. -/
def linesOf : Text → Text → List Text
  | [], cur => if cur.isEmpty then [] else [cur.reverse]
  | c :: cs, cur => if c == '\n' then cur.reverse :: linesOf cs [] else linesOf cs (c :: cur)

/-- The white-space-separated fields of a line. -/
def fieldsOf : Text → Text → List Text
  | [], cur => if cur.isEmpty then [] else [cur.reverse]
  | c :: cs, cur =>
    if isSpace c then
      if cur.isEmpty then fieldsOf cs [] else cur.reverse :: fieldsOf cs []
    else fieldsOf cs (c :: cur)

/-- The value of a digit in a base of at most 16. Hexadecimal digits of either case are accepted: R247 does not say which
are, and the lower case of R253 is that of the object code the assembler writes (DESIGN CHOICE, log entries 16 and
17). -/
def digitValue (base : Nat) (c : Char) : Option Nat :=
  let n := c.toNat
  let d :=
    if 0x30 ≤ n ∧ n ≤ 0x39 then n - 0x30
    else if 0x61 ≤ n ∧ n ≤ 0x66 then n - 0x61 + 10
    else if 0x41 ≤ n ∧ n ≤ 0x46 then n - 0x41 + 10
    else base
  if d < base then some d else none

/-- The value of digits read after `acc`. -/
def digitsValueFrom (base acc : Nat) : Text → Option Nat
  | [] => some acc
  | c :: cs =>
    match digitValue base c with
    | some d => digitsValueFrom base (acc * base + d) cs
    | none => none

/-- The value of one or more digits in a base. -/
def digitsValue (base : Nat) : Text → Option Nat
  | [] => none
  | cs => digitsValueFrom base 0 cs

/-- Decimal (123), hexadecimal (0x123), octal (0o123) or binary (0b1010) (R247). -/
def naturalValue : Text → Option Nat
  | '0' :: 'x' :: cs => digitsValue 16 cs
  | '0' :: 'o' :: cs => digitsValue 8 cs
  | '0' :: 'b' :: cs => digitsValue 2 cs
  | cs => digitsValue 10 cs

/-- A number with an optional leading minus sign (R247). -/
def numberValue : Text → Option Int
  | '-' :: cs => (naturalValue cs).map fun n => -(n : Int)
  | cs => (naturalValue cs).map fun n => (n : Int)

/-- A decimal number, optionally negative: the only form that the branch and multi-bit shift tests accept
(R198, R210, R247). -/
def isDecimal : Text → Bool
  | '-' :: cs => (digitsValue 10 cs).isSome
  | cs => (digitsValue 10 cs).isSome

/-- The lower-case hexadecimal digit of a value below 16. -/
def hexDigit (d : Nat) : Char :=
  Char.ofNat (if d < 10 then 0x30 + d else 0x61 + (d - 10))

/-- Four lower-case hexadecimal digits (R253), those of the number mod 65536. R253 gives an address four digits and does
not say what stands there for a word past 0xFFFF, in an image of more than 65536 bytes: here the address mod 65536
(DESIGN CHOICE, log entry 17). -/
def hex4 (n : Nat) : Text :=
  [hexDigit (n / 4096 % 16), hexDigit (n / 256 % 16), hexDigit (n / 16 % 16), hexDigit (n % 16)]

end Sys2Proof.Machine
end

