-- ==== Sys2Proof/Machine/Assembler.lean ====
section
/-! DEFINITION. Machine/Assembler.lean: the reference assembler's input and output behaviour (47_assembler_abi.md R240
to R256; 30_encoding.md R88): source text to object-code text, in the three passes of R251. It is 16-bit only
(R240). -/

namespace Sys2Proof.Machine

/-! ### Pass 1: lines to items, pseudo-operations to basic operations (R251, R190 to R212) -/

/-- What one source line contributes to the image. `source` is the text an error line repeats (R255); `shown` is the
intermediate text the debug listing prints beside a word of data (R254). -/
inductive Item where
  /-- a label: the address of the next word (R242); `alone` when no data follow it on its line -/
  | label (name : Text) (alone : Bool)
  /-- a basic operation with its operands, still as text -/
  | operation (mnemonic : String) (operands : List Text) (source : Text)
  /-- one numeric datum (R245) -/
  | datum (value : Text) (shown : Text) (source : Text)
  /-- two characters of a string (R246) -/
  | characters (w : Code) (shown : Text)
  /-- a line the tool cannot translate -/
  | malformed (source : Text)
deriving DecidableEq, Repr

/-- The register names of R22 and their values in the symbol table (R242). -/
def registerSymbols : List (Text × Int) :=
  [("r0".toList, 0), ("r1".toList, 1), ("r2".toList, 2), ("r3".toList, 3),
   ("r4".toList, 4), ("r5".toList, 5), ("r6".toList, 6), ("r7".toList, 7),
   ("at".toList, 0), ("sr".toList, 5), ("lr".toList, 6), ("sp".toList, 7)]

/-- Pass 1 tells a register operand from any other by its name only (R251). -/
def isRegisterName (t : Text) : Bool := registerSymbols.any fun p => p.1 == t

/-- `ldi at,x` in the internal mnemonics of the two halves (R88, R196). -/
def ldiText (r x : Text) : List (String × List Text) := [("ldc0", [r, x]), ("ldc1", [r, x])]

/-- The expansions the assembler supports (R190 groups a and b); any other operation is passed on as written. Each word
of an expansion whose operand has no value is an error line of its own: R255 speaks of one word (DESIGN CHOICE, log
entry 17). R190 to R212 do not say what the tool does with a pseudo-operation of another number of operands than theirs,
two and three included (`not r1,r2`; `ldi r1,2,3`): it is not expanded here (DESIGN CHOICE, log entry 17), and so is one
error line, as an unknown mnemonic is (R255), unless R88 and R244 give it a word as it stands. -/
def expandText (mnemonic : String) (operands : List Text) : List (String × List Text) :=
  let r0 := "r0".toList
  let at' := "at".toList
  let minusOne := "-1".toList
  let loop (m : String) (a b third : Text) : List (String × List Text) :=
    if isDecimal b then [(mnemonic, operands)]
    else [(m, [a, a, third]), ("sub", [b, "1".toList]), ("bnz", [b, "-6".toList])]
  match mnemonic, operands with
  | "nop", [] => [("and", [r0, r0, r0])]
  | "hcf", [] => [("hcf", [r0, r0, r0])]
  | "not", [a] => [("xor", [a, minusOne])]
  | "neg", [a] => [("xor", [a, minusOne]), ("add", [a, "1".toList])]
  | "lsl", [a, b] => [("add", [a, b, b])]
  | "ldi", [a, x] => ldiText a x
  | "lsrm", [a, b] => loop "lsr" a b r0
  | "asrm", [a, b] => loop "asr" a b r0
  | "lslm", [a, b] => loop "add" a b a
  | _, [a, b] =>
    if mnemonic = "lsr" ∨ mnemonic = "asr" then
      if isRegisterName b then [(mnemonic, [a, b, r0])] else [(mnemonic, operands)]
    else if mnemonic = "bez" ∨ mnemonic = "bnz" then
      if isRegisterName b then [(mnemonic, [r0, a, b])]
      else if isDecimal b then [(mnemonic, operands)]
      else ldiText at' b ++ [(mnemonic, [r0, a, at'])]
    else if mnemonic = "ldb" ∨ mnemonic = "ldw" then
      if isRegisterName b then [(mnemonic, [a, r0, b])]
      else ldiText at' b ++ [(mnemonic, [a, r0, at'])]
    else if mnemonic = "stb" ∨ mnemonic = "stw" then
      if isRegisterName b then [(mnemonic, [r0, a, b])]
      else ldiText at' b ++ [(mnemonic, [r0, a, at'])]
    else [(mnemonic, operands)]
  | _, _ => [(mnemonic, operands)]

/-- The special characters accepted in strings: \t, \n and \r (R246). A backslash before any other character stays an
ordinary character: R246 is silent on it (DESIGN CHOICE, log entry 17). -/
def unescape : Text → Text
  | '\\' :: 't' :: cs => '\t' :: unescape cs
  | '\\' :: 'n' :: cs => '\n' :: unescape cs
  | '\\' :: 'r' :: cs => '\r' :: unescape cs
  | c :: cs => c :: unescape cs
  | [] => []

/-- Two bytes per word, first character in the high byte; a lone last byte is padded with NUL (R246). The first word
shows the text of the string, the later ones none (DESIGN CHOICE, log entry 17). -/
def characterWords (shown : Text) : List Byte → List Item
  | hi :: lo :: rest => .characters (codeOfBytes hi lo) shown :: characterWords [] rest
  | [hi] => [.characters (codeOfBytes hi 0#8) shown]
  | [] => []

/-- The code of a character, one byte (R246). R241 admits only characters of the English language and the spec names no
code for another: here it is the Unicode code mod 256 (DESIGN CHOICE, log entry 17). -/
def characterByte (c : Char) : Byte := BitVec.ofNat 8 c.toNat

/-- Fields joined by single spaces: "runs of spaces inside a string collapse to one" (R246). -/
def joinFields : List Text → Text
  | [] => []
  | [f] => f
  | f :: fs => f ++ ' ' :: joinFields fs

/-- The words of a quoted string after a label, its NUL terminator included (R246). R246 is silent on text after the
closing quote and on quotes inside: the string runs to the last character of the line's last field, which must be a
quote, quotes before it are characters of the string, and a line with another last character is an error line (DESIGN
CHOICE, log entry 17). -/
def stringItems (label quoted source : Text) : List Item :=
  match quoted.reverse with
  | '"' :: body =>
    characterWords (joinFields [label, quoted])
      ((unescape (body.reverse.drop 1)).map characterByte ++ [0#8])
  | _ => [.malformed source]

/-- The words of the numeric values after a label (R245); the first shows the label too, as Listing 3.3 does (R254).
A value that is neither a number nor a symbol makes an error line in place of its own word alone: R255 is silent on the
rest of the list (DESIGN CHOICE, log entry 17). -/
def numberItems (label : Text) (values : List Text) (source : Text) : List Item :=
  match values with
  | [] => []
  | v :: vs => .datum v (joinFields [label, v]) source :: vs.map fun v => .datum v v source

/-- The data after a label: a string, or numeric values (R245, R246). -/
def dataItems (label : Text) (fields : List Text) (source : Text) : List Item :=
  match fields with
  | ('"' :: c :: cs) :: rest => stringItems label (joinFields (('"' :: c :: cs) :: rest)) source
  | ['"'] :: rest =>
    if rest.isEmpty then [.malformed source] else stringItems label (joinFields (['"'] :: rest)) source
  | values => numberItems label values source

/-- Pass 1 on one line (R241 to R243): a comment, a label with or without data, or an instruction. An indented line of
more than two fields is one error line: R243 gives an instruction two fields and does not say what the tool does with
more (DESIGN CHOICE, log entry 17). R241 says that only characters of the English language are recognised and not what
happens to others: in a comment, a label, a mnemonic or an operand they are accepted here like any other character
(DESIGN CHOICE, log entry 17). R243 indents an instruction by one tab, separates its two fields by one space or tab and
does not say what the tool does with another indentation or a run of blanks: any white space serves here as either
(DESIGN CHOICE, log entry 17). -/
def lineItems (line : Text) : List Item :=
  match fieldsOf line [] with
  | [] => []
  | first :: rest =>
    if first = [';'] then []
    else if (line.head?.map isSpace) = some false then
      .label first rest.isEmpty :: dataItems first rest line
    else
      match rest with
      | [] => (expandText (String.ofList first) []).map fun p => .operation p.1 p.2 line
      | [params] =>
        (expandText (String.ofList first) (splitAtChar ',' params [])).map fun p =>
          .operation p.1 p.2 line
      | _ => [.malformed line]

/-! ### Pass 2: addresses and symbols (R242, R252) -/

/-- Bytes of image an item takes (R252). -/
def itemBytes : Item → Nat
  | .label _ _ => 0
  | .operation _ _ _ | .datum _ _ _ | .characters _ _ | .malformed _ => 2

/-- The labels with their addresses, from address `a` (R242, R252). -/
def labelSymbols (a : Nat) : List Item → List (Text × Int)
  | [] => []
  | .label name _ :: items => (name, (a : Int)) :: labelSymbols a items
  | item :: items => labelSymbols (a + itemBytes item) items

/-- The one symbol table of registers and labels (R242). -/
def symbols (items : List Item) : List (Text × Int) := registerSymbols ++ labelSymbols 0 items

/-! ### Pass 3: words (R244, R245, R250) -/

/-- The value of an operand: a symbol, or a number (R242, R247, R250). A label spelled like a number is taken as the label:
the spec does not say which an operand of that spelling is (DESIGN CHOICE, log entry 17). -/
def operandValue (table : List (Text × Int)) (t : Text) : Option Int :=
  match table.find? fun p => p.1 == t with
  | some p => some p.2
  | none => numberValue t

/-- The base word of a mnemonic (R88). The list of source mnemonics of R243 leaves `ldc0` and `ldc1` out and R88 calls
them internal, and neither says what the tool does with one written in a source line: it is assembled here like any
other mnemonic of the table (DESIGN CHOICE, log entry 17). -/
def baseWord : String → Option Code
  | "and" => some 0x0000#16
  | "or" => some 0x1000#16
  | "xor" => some 0x2000#16
  | "slt" => some 0x3000#16
  | "sltu" => some 0x4000#16
  | "add" => some 0x5000#16
  | "sub" => some 0x6000#16
  | "ldr" => some 0x8000#16
  | "ldc" => some 0x9000#16
  | "ldc0" => some 0x9000#16
  | "ldc1" => some 0x9000#16
  | "lsr" => some 0x0001#16
  | "asr" => some 0x1001#16
  | "ldb" => some 0x0002#16
  | "stb" => some 0x1002#16
  | "ldw" => some 0x4002#16
  | "stw" => some 0x5002#16
  | "bez" => some 0xA000#16
  | "bnz" => some 0xB000#16
  | "hcf" => some 0x0003#16
  | _ => none

/-- The word of one operation: the number of operands selects the format (R244); `ldc0` takes the high byte of
its value (R88). R244 is silent on an operand in a register place that names no register: its value is shifted into the
word unmasked here, as the formula reads (DESIGN CHOICE, log entry 17). -/
def operationWord (table : List (Text × Int)) (mnemonic : String) (operands : List Text) : Option Code :=
  match baseWord mnemonic, operands.map (operandValue table) with
  | some base, [some rst, some rsa, some rsb] =>
    some (base ||| BitVec.ofInt 16 rst <<< 8 ||| BitVec.ofInt 16 rsa <<< 5 ||| BitVec.ofInt 16 rsb <<< 2)
  | some base, [some rst, some value] =>
    let v := BitVec.ofInt 16 value
    let imm := if mnemonic = "ldc0" then v.extractLsb' 8 8 else v.extractLsb' 0 8
    some (base ||| 0x0800#16 ||| BitVec.ofInt 16 rst <<< 8 ||| imm.setWidth 16)
  | _, _ => none

/-- One line of object code: a word at its address, or an error in its place (R253, R255). -/
inductive ObjectLine where
  | word (address : Nat) (w : Code)
  | error (source : Text)
deriving DecidableEq, Repr

/-- The word of an item, or the error it makes. -/
def itemLine (a : Nat) (source : Text) (w : Option Code) : ObjectLine :=
  match w with
  | some w => .word a w
  | none => .error source

/-- The object line of an item at address `a`; a label has none. -/
def itemObject (table : List (Text × Int)) (a : Nat) : Item → Option ObjectLine
  | .label _ _ => none
  | .operation m ops src => some (itemLine a src (operationWord table m ops))
  | .datum v _ src => some (itemLine a src ((operandValue table v).map (BitVec.ofInt 16)))
  | .characters w _ => some (.word a w)
  | .malformed src => some (.error src)

/-- Pass 3: one object line per word, addresses rising from `a` (R252, R253). -/
def objectLines (table : List (Text × Int)) (a : Nat) : List Item → List ObjectLine
  | [] => []
  | item :: items => (itemObject table a item).toList ++ objectLines table (a + itemBytes item) items

/-- The items of a source text (R240). -/
def sourceItems (source : Text) : List Item := ((linesOf source []).map lineItems).flatten

/-- Assemble a source text into object lines (R251). -/
def assemble (source : Text) : List ObjectLine :=
  objectLines (symbols (sourceItems source)) 0 (sourceItems source)

/-- The object-code text of one line: `aaaa wwww`, or `**** ????` and the source (R253, R255). The address field of a
word past 0xFFFF is the address mod 65536 (`hex4`; DESIGN CHOICE, log entry 17). -/
def renderLine : ObjectLine → Text
  | .word a w => hex4 a ++ ' ' :: hex4 w.toNat ++ ['\n']
  | .error src => "**** ???? ".toList ++ src ++ ['\n']

/-- The object file of a source text (R253). -/
def objectText (source : Text) : Text := ((assemble source).map renderLine).flatten

/-- The image of a list of object lines; none if one of them is an error (R255). -/
def imageOf : List ObjectLine → Option (List Code)
  | [] => some []
  | .word _ w :: ls => (imageOf ls).map fun ws => w :: ws
  | .error _ :: _ => none

/-! ### The debug listing (R254; its layout is that of Listing 3.3, 95_test_vectors.md section 1.5) -/

/-- Operands separated by commas (R243). -/
def joinOperands : List Text → Text
  | [] => []
  | [p] => p
  | p :: ps => p ++ ',' :: joinOperands ps

/-- The intermediate text of an item after pass 1 (R254): a label, an expanded instruction, the internal `ldc0` and
`ldc1` of LDI included, or data. -/
def itemText : Item → Text
  | .label name _ => name
  | .operation m [] _ => m.toList
  | .operation m ops _ => m.toList ++ ' ' :: joinOperands ops
  | .datum _ shown _ => shown
  | .characters _ shown => shown
  | .malformed src => src

/-- The five spaces before the intermediate text. -/
def listingGap : Text := "     ".toList

/-- One line of the listing for a word: address, word and intermediate text; an error line is the object file's own
(DESIGN CHOICE, log entry 17). -/
def wordListing (line : ObjectLine) (text : Text) : Text :=
  match line with
  | .word a w =>
    hex4 a ++ ' ' :: hex4 w.toNat ++ (if text.isEmpty then [] else listingGap ++ text) ++ ['\n']
  | .error src => renderLine (.error src)

/-- The listing of an item at address `a`: a label without data has a line of its own, a label with data is shown by
its first word. -/
def itemListing (table : List (Text × Int)) (a : Nat) (item : Item) : Text :=
  match itemObject table a item, item with
  | some line, item => wordListing line (itemText item)
  | none, .label name true => listingGap ++ name ++ ['\n']
  | none, _ => []

/-- The listing of the items from address `a`. -/
def listingFrom (table : List (Text × Int)) (a : Nat) : List Item → Text
  | [] => []
  | item :: items => itemListing table a item ++ listingFrom table (a + itemBytes item) items

/-- The debug listing of a source text (R254): for each word the address, the word and the intermediate source text,
with the labels. -/
def debugListing (source : Text) : Text :=
  listingFrom (symbols (sourceItems source)) 0 (sourceItems source)

end Sys2Proof.Machine
end

