-- ==== Sys2Proof/Machine/Conventions.lean ====
section
/-! DEFINITION. Machine/Conventions.lean: the software conventions and idioms of the manual, as tables and instruction
sequences (10_state.md R22; 47_assembler_abi.md R260 to R271). Nothing here is enforced by the hardware (R22). -/

namespace Sys2Proof.Machine

/-- The role of a register (R22, R262). -/
inductive Role where
  /-- "Temporário (montador)" -/
  | assemblerTemporary
  /-- "Variável local" -/
  | localVariable
  /-- "Temporário": scratch, and the function's return value -/
  | scratch
  /-- "Endereço de retorno" -/
  | returnAddress
  /-- "Apontador de pilha" -/
  | stackPointer
deriving DecidableEq, Repr

/-- Who preserves a register across a call (R22, R262). -/
inductive Preserver where
  | nobody
  | callee
  | caller
  | always
deriving DecidableEq, Repr

/-- The role column of R262. -/
def role : Reg → Role
  | .r0 => .assemblerTemporary
  | .r1 | .r2 | .r3 | .r4 => .localVariable
  | .r5 => .scratch
  | .r6 => .returnAddress
  | .r7 => .stackPointer

/-- The preserved column of R262. -/
def preservedBy : Reg → Preserver
  | .r0 | .r5 => .nobody
  | .r1 | .r2 | .r3 | .r4 => .callee
  | .r6 => .caller
  | .r7 => .always

/-! ### The stack (R261): full descending, sp at the last pushed word -/

/-- The immediate WORD_BYTES: 2 for 16 bits, 4 for 32 bits (R261). -/
def wordImm (x : XLen) : Imm8 := BitVec.ofNat 8 x.wordBytes

/-- PUSH: `sub sp,2 ; stw r0,r1,sp`, with 4 for 32-bit registers (R261). -/
def push (x : XLen) (a : Reg) : List Instr := [.subI rSp (wordImm x), .stw .r0 a rSp]

/-- PUSH as v0.2 writes it: `add sp,-2 ; stw r0,r1,sp`, the same effect (R261, C17). -/
def pushByAdd (x : XLen) (a : Reg) : List Instr := [.addI rSp (-wordImm x), .stw .r0 a rSp]

/-- POP: `ldw r1,r0,sp ; add sp,2` (R261). -/
def pop (x : XLen) (a : Reg) : List Instr := [.ldw a .r0 rSp, .addI rSp (wordImm x)]

/-- Load a whole constant: two LDC for 16 bits (R196), four for 32 (R120). -/
def loadConstant (x : XLen) (a : Reg) (v : Word) : List Instr :=
  match x with
  | .x16 => [.ldc a (v.extractLsb' 8 8), .ldc a (v.extractLsb' 0 8)]
  | .x32 =>
    [.ldc a (v.extractLsb' 24 8), .ldc a (v.extractLsb' 16 8), .ldc a (v.extractLsb' 8 8),
      .ldc a (v.extractLsb' 0 8)]

/-! ### Calls (R263 to R266), for either width: R264 names none. The listings are 16-bit; with 32-bit registers a stack
word has 4 bytes (R261) and a constant takes four LDC (R120) (DEDUCED, log entry 18). Sizes are immediates of `add
sp,...`, so they must stay below 128 (R250). -/

/-- The bytes that `n` words take on the stack (R261). -/
def stackBytes (x : XLen) (n : Nat) : Nat := n * x.wordBytes

/-- Push several registers, in the order of the list. -/
def pushAll (x : XLen) (regs : List Reg) : List Instr := (regs.map (push x)).flatten

/-- `add sp,...`: release `n` words of the stack (R264 step 7). -/
def releaseWords (x : XLen) (n : Nat) : Instr := .addI rSp (BitVec.ofNat 8 (stackBytes x n))

/-- The caller's part before the jump (R264 steps 1 to 5): push the parameters in reverse order, push lr, load lr with
the return address and sr with the function, jump to sr. `params` holds the parameters in the order of the function's
declaration, so the first of them is pushed last and lies nearest to sp (R265). -/
def callSequence (x : XLen) (params : List Reg) (function raddr : Word) : List Instr :=
  pushAll x params.reverse ++ push x rLr ++ loadConstant x rLr raddr ++ loadConstant x rSr function ++
    [bnzTo rSp rSr]

/-- The function's first part (R264 step a): push those of r1 to r4 that it needs, in the order of `saved`. -/
def calleeSave (x : XLen) (saved : List Reg) : List Instr := pushAll x saved

/-- The function's restore (R264 step d): pop what `calleeSave` pushed, the last pushed first. -/
def calleeRestore (x : XLen) (saved : List Reg) : List Instr := (saved.reverse.map (pop x)).flatten

/-- The function's result into sr (R264 step c, R263). -/
def resultInScratch (a : Reg) : List Instr := [.andR rSr a a]

/-- The function's result through a pointer parameter held in `p` (R264 step c). -/
def resultThroughPointer (a p : Reg) : List Instr := [.stw .r0 a p]

/-- The return of a function: jump to lr (R264 step e). -/
def returnSequence : List Instr := [bnzTo rSp rLr]

/-- A function of the protocol, steps a to e of R264: save, work that leaves the result where it belongs, restore,
return. -/
def functionSequence (x : XLen) (saved : List Reg) (work : List Instr) : List Instr :=
  calleeSave x saved ++ work ++ calleeRestore x saved ++ returnSequence

/-- The caller's part after the return (R264 steps 6 and 7), as the examples do it: read lr without a separate pop, then
release it with the n parameters, `ldw lr,sp ; add sp,2+2n` (R265). -/
def afterCall (x : XLen) (n : Nat) : List Instr := [.ldw rLr .r0 rSp, releaseWords x (n + 1)]

/-- The other way of R265 to do the same: a POP of lr, then `add sp,2n`. -/
def afterCallByPop (x : XLen) (n : Nat) : List Instr := pop x rLr ++ [releaseWords x n]

/-- Where the i-th pushed of n parameters lies above sp once the function has pushed k registers: sp+2k+2 for the
last pushed, sp+2k+2n for the first (R265), and the same in words of 4 bytes with 32-bit registers. -/
def parameterOffset (x : XLen) (k n i : Nat) : Nat := stackBytes x (k + (n - i + 1))

/-- Read the parameter at an offset from sp into a register: copy sp, add, load (R265). -/
def readParameter (a : Reg) (offset : Nat) : List Instr :=
  [.andR a rSp rSp, .addI a (BitVec.ofNat 8 offset), .ldw a .r0 a]

/-! ### Selection and repetition (R267, R268) -/

/-- The conditions of R267, a in r1 and b in r2. -/
inductive Condition where
  | eq | ne | lt | ge | gt | le
deriving DecidableEq, Repr

/-- SLT, or SLTU for unsigned values (R267). -/
def lessThan (unsigned : Bool) : Reg → Reg → Reg → Instr := if unsigned then .sltuR else .sltR

/-- The test of a condition into a scratch register (R267). -/
def testSequence (unsigned : Bool) (c : Condition) (a b t : Reg) : Instr :=
  match c with
  | .eq | .ne => .subR t a b
  | .lt | .ge => lessThan unsigned t a b
  | .gt | .le => lessThan unsigned t b a

/-- Branch to a label when the condition holds (R267). -/
def branchWhen (unsigned : Bool) (c : Condition) (a b t : Reg) (label : Code) : List Instr :=
  testSequence unsigned c a b t ::
    match c with
    | .eq | .ge | .le => expand (.bezLabel t label)
    | .ne | .lt | .gt => expand (.bnzLabel t label)

/-- Branch when the less-than test `less` holds, else when a = b: the shape of the two alternative forms (R267). -/
def branchWhenLessOrEqual (less : Instr) (a b t : Reg) (label : Code) : List Instr :=
  less :: (expand (.bnzLabel t label) ++ .subR t a b :: expand (.bezLabel t label))

/-- The alternative form of a <= b (R267); SLTU replaces SLT for unsigned values. -/
def branchWhenLessEqual (unsigned : Bool) (a b t : Reg) (label : Code) : List Instr :=
  branchWhenLessOrEqual (lessThan unsigned t a b) a b t label

/-- The alternative form of a >= b: "basta inverter a ordem de r1 e r2 na primeira instrução (SLT)" (R267); SLTU
replaces SLT for unsigned values. -/
def branchWhenGreaterEqual (unsigned : Bool) (a b t : Reg) (label : Code) : List Instr :=
  branchWhenLessOrEqual (lessThan unsigned t b a) a b t label

/-- `bnz r7,label`: the unconditional branch of loops, break and continue (R170, R268). -/
def branchAlways (label : Code) : List Instr := expand (.bnzLabel rSp label)

/-- `while (a < b) body`, the loop head at `start` and the code after it at `after` (R268). -/
def whileLess (a b t : Reg) (body : List Instr) (start after : Code) : List Instr :=
  .sltR t a b :: (expand (.bezLabel t after) ++ body ++ branchAlways start)

/-- `do body while (a < b)`, the loop head at `start` (R268). -/
def doWhileLess (a b t : Reg) (body : List Instr) (start : Code) : List Instr :=
  body ++ .sltR t a b :: expand (.bnzLabel t start)

/-- The endless loop (R268). -/
def loopForever (body : List Instr) (start : Code) : List Instr := body ++ branchAlways start

/-! ### Variables, arrays, input and output (R269 to R271) -/

/-- C = A + B with the variables in memory (R269). -/
def addVariables (addrA addrB addrC : Code) : List Instr :=
  expand (.ldwLabel .r1 addrA) ++ expand (.ldwLabel .r2 addrB) ++ [.addR .r3 .r1 .r2] ++
    expand (.stwLabel .r3 addrC)

/-- The two kinds of array element (R270). -/
inductive Element where
  | integer
  | character
deriving DecidableEq, Repr

/-- ts, the size of an element in bytes: 2 (or 4) for integers, 1 for characters (R270). -/
def elementSize (x : XLen) : Element → Nat
  | .integer => x.wordBytes
  | .character => 1

/-- The address of element i: base + i·ts (R270). -/
def elementAddress (x : XLen) (e : Element) (base i : Nat) : Nat := base + i * elementSize x e

/-- The address of element `index` into r4: the index is added ts times, once for characters and twice for 16-bit
integers "in place of a multiplication by 2" (R270). That it is added four times for 32-bit integers is inferred from
ts = 4, since the manual prints no 32-bit code (DEDUCED, log entry 18). -/
def addressElement (x : XLen) (e : Element) (base : Word) (index : Imm8) : List Instr :=
  loadConstant x .r4 base ++ List.replicate (elementSize x e) (.addI .r4 index)

/-- vet[index] = value for an array of integers (R270). -/
def storeInteger (x : XLen) (base : Word) (index : Imm8) (value : Word) : List Instr :=
  addressElement x .integer base index ++ loadConstant x .r3 value ++ [.stw .r0 .r3 .r4]

/-- vet[index] = value for an array of characters (R270). -/
def storeCharacter (x : XLen) (base : Word) (index : Imm8) (value : Word) : List Instr :=
  addressElement x .character base index ++ loadConstant x .r3 value ++ [.stb .r0 .r3 .r4]

/-- Print the register `a` through the device whose address the word at `label` holds (R271): `writec` for a
character, `writei` for an integer. -/
def printThrough (label : Code) (a : Reg) : List Instr :=
  expand (.ldwLabel rSr label) ++ [.stw .r0 a rSr]

/-- Read a device into `a`: fetch the device address, then read it (R271). -/
def readThrough (label : Code) (a : Reg) : List Instr :=
  expand (.ldwLabel a label) ++ [.ldw a .r0 a]

end Sys2Proof.Machine
end

