-- ==== Sys2Proof/Machine/Loader.lean ====
section
/-! DEFINITION. Machine/Loader.lean: how a run starts: the initial state of an image (10_state.md R36;
70_reset_and_hazards.md R320, R321, R337) and the object-code text it is loaded from (47_assembler_abi.md R253,
R255). -/

namespace Sys2Proof.Machine

/-- R321: an image of N words is accepted when 2·N <= MEM_SIZE - 2. -/
def imageFits (c : Config) (image : List Code) : Bool := decide (2 * image.length + 2 ≤ c.memSize)

/-- The registers at the start of a run: r0 to r6 zero, r7 = SP_INIT (R36). -/
def initialRegs (c : Config) : RegFile :=
  { r0 := 0#32, r1 := 0#32, r2 := 0#32, r3 := 0#32
    r4 := 0#32, r5 := 0#32, r6 := 0#32, r7 := c.spInit }

/-- The initial state for given parameters, IMAGE and INPUT (R36, R321); no state for an image that does not
fit (U18). -/
def State.initial (cfg : Config) (image : List Code) (input : List Int) : Option State :=
  if imageFits cfg image then
    some
      { cfg := cfg
        regs := initialRegs cfg
        pc := 0#32
        mem := placeWords [] 0 image
        halted := false
        stackLimitHit := false
        fault := none
        stackLimit := 2 * image.length + 2
        cycles := 0
        output := []
        input := input }
  else none

/-- One object-code line: exactly two fields, none of them `****`; the word is the second field in hexadecimal,
the address field is ignored (R253, R321). -/
def objectLine (line : Text) : Option Code :=
  match fieldsOf line [] with
  | [address, word] =>
    if address = ['*', '*', '*', '*'] ∨ word = ['*', '*', '*', '*'] then none
    else
      match digitsValue 16 word with
      | some n => if n < 2 ^ 16 then some (BitVec.ofNat 16 n) else none
      | none => none
  | _ => none

/-- The words of a list of object-code lines; none if one line is malformed (R321, R255). -/
def objectWords : List Text → Option (List Code)
  | [] => some []
  | line :: rest =>
    match objectLine line, objectWords rest with
    | some w, some ws => some (w :: ws)
    | _, _ => none

/-- The image of an object file (R253). -/
def parseObject (text : Text) : Option (List Code) := objectWords (linesOf text [])

/-- Load an object file (R321): refused, with no initial state, if it is malformed or does not fit. -/
def State.load (cfg : Config) (text : Text) (input : List Int) : Option State :=
  match parseObject text with
  | some image => State.initial cfg image input
  | none => none

end Sys2Proof.Machine
end

