-- ==== Sys2Proof/Machine/Run.lean ====
section
/-! DEFINITION. Machine/Run.lean: a fuel-bounded run (70_reset_and_hazards.md R324, R325), its outcome (00_scope.md
R14), and the lines the reference simulator prints around a program's own output (R321, R324). -/

namespace Sys2Proof.Machine

/-- Repeat `step` until the run ends or the fuel is spent (R324, R325). A model fault leaves the state as it was
and is recorded in `fault` (R34, R281). -/
def run : Nat → State → State
  | 0, s => s
  | fuel + 1, s =>
    match s.ending with
    | some _ => s
    | none =>
      match step s with
      | .next t => run fuel t
      | .fault f => { s with fault := some f }
      | .refused _ => s

/-- The outcomes of a run (R14). -/
inductive RunOutcome where
  /-- HCF was executed (R180). -/
  | halted
  /-- The environment's stack check fired (R300). -/
  | stackLimit
  /-- A model fault ended the run (R281). -/
  | modelFault (f : Fault)
  /-- No end yet. -/
  | running
deriving DecidableEq, Repr

/-- The outcome that a state shows (R14): a recorded model fault, else HCF, else the stack check. -/
def outcome (s : State) : RunOutcome :=
  match s.fault with
  | some f => .modelFault f
  | none => if s.halted then .halted else if s.stackLimitHit then .stackLimit else .running

/-! ### The simulator's own lines: not part of `output` (R324) -/

/-- The ASCII bytes of a text. -/
def asciiBytes (s : String) : List Byte := s.toList.map fun c => BitVec.ofNat 8 c.toNat

/-- The two lines printed after loading N words (R321). -/
def openingLines (c : Config) (n : Nat) : List (List Byte) :=
  [asciiBytes "[program (code + data): " ++ decimalText (2 * n) ++ asciiBytes " bytes]",
   asciiBytes "[memory size: " ++ decimalText c.memSize ++ asciiBytes "]"]

/-- The one line printed in place of a run when the object file is malformed (R321). -/
def rejectedLine : List Byte := asciiBytes "[program has errors]"

/-- The lines printed at the end of a run (R300, R324). R324 gives them for HCF and the stack check; that a run ended
by a model fault prints the same lines is the model's choice (DESIGN CHOICE, log entry 15), since the simulator has
no model faults (R285). -/
def closingLines (s : State) : List (List Byte) :=
  (if s.stackLimitHit then [asciiBytes "stack overflow detected!"] else []) ++
    [[], asciiBytes "[ok]", decimalText s.cycles ++ asciiBytes " cycles"]

/-! ### The simulator's debug mode (R303): a print after each instruction, no state of the machine -/

/-- The ASCII bytes of four hexadecimal digits, in lower case: R303 does not give the case of the digits (DESIGN CHOICE, log
entry 15). -/
def hexBytes (v : Word) : List Byte := (hex4 v.toNat).map fun c => BitVec.ofNat 8 c.toNat

/-- The manual's spelling `r0` .. `r7` of a register (R22). -/
def registerText (r : Reg) : List Byte :=
  asciiBytes "r" ++ decimalText (fieldOfReg r).toNat

/-- "<mnemonic> r<t>,r<a>,r<b>" (R303). -/
def traceR (mnemonic : String) (rst rsa rsb : Reg) : List Byte :=
  asciiBytes mnemonic ++ asciiBytes " " ++ registerText rst ++ asciiBytes "," ++ registerText rsa ++
    asciiBytes "," ++ registerText rsb

/-- "<mnemonic> r<t>,<imm>" (R303); the immediate as its unsigned decimal value (DESIGN CHOICE, log entry 15). -/
def traceI (mnemonic : String) (rst : Reg) (imm8 : Imm8) : List Byte :=
  asciiBytes mnemonic ++ asciiBytes " " ++ registerText rst ++ asciiBytes "," ++ decimalText imm8.toNat

/-- The instruction as the debug line shows it (R303). -/
def traceInstr : Instr → List Byte
  | .andR t a b => traceR "and" t a b
  | .andI t v => traceI "and" t v
  | .orR t a b => traceR "or" t a b
  | .orI t v => traceI "or" t v
  | .xorR t a b => traceR "xor" t a b
  | .xorI t v => traceI "xor" t v
  | .sltR t a b => traceR "slt" t a b
  | .sltI t v => traceI "slt" t v
  | .sltuR t a b => traceR "sltu" t a b
  | .sltuI t v => traceI "sltu" t v
  | .addR t a b => traceR "add" t a b
  | .addI t v => traceI "add" t v
  | .subR t a b => traceR "sub" t a b
  | .subI t v => traceI "sub" t v
  | .ldr t v => traceI "ldr" t v
  | .ldc t v => traceI "ldc" t v
  | .lsr t a b => traceR "lsr" t a b
  | .asr t a b => traceR "asr" t a b
  | .ldb t a b => traceR "ldb" t a b
  | .stb t a b => traceR "stb" t a b
  | .ldw t a b => traceR "ldw" t a b
  | .stw t a b => traceR "stw" t a b
  | .bezR t a b => traceR "bez" t a b
  | .bezRAsm t a b => traceR "bez" t a b
  | .bezI t v => traceI "bez" t v
  | .bnzR t a b => traceR "bnz" t a b
  | .bnzRAsm t a b => traceR "bnz" t a b
  | .bnzI t v => traceI "bnz" t v
  | .hcf => traceR "hcf" .r0 .r0 .r0

/-- One "r<k>: [xxxx]" (R303). -/
def traceRegister (s : State) (r : Reg) : List Byte :=
  registerText r ++ asciiBytes ": [" ++ hexBytes (s.reg r) ++ asciiBytes "]"

/-- Four registers on one line (R303). -/
def traceRegisters (s : State) (a b c d : Reg) : List Byte :=
  traceRegister s a ++ asciiBytes " " ++ traceRegister s b ++ asciiBytes " " ++ traceRegister s c ++
    asciiBytes " " ++ traceRegister s d

/-- The three lines printed after the instruction `i` took `s` to `t` (R303); the pc shown is the instruction's own
(DESIGN CHOICE, log entry 15). -/
def debugLines (i : Instr) (s t : State) : List (List Byte) :=
  [asciiBytes "pc: " ++ hexBytes s.pc ++ asciiBytes " instruction: " ++ traceInstr i,
   traceRegisters t .r0 .r1 .r2 .r3,
   traceRegisters t .r4 .r5 .r6 .r7]

end Sys2Proof.Machine
end

