-- ==== Sys2Proof/Safety.lean ====
section
/-! DEFINITION. Safety.lean: the terms in which claims about the machine are stated: the invariant every step keeps,
what an instruction leaves unchanged, and readings of values and words that do not go through the model's own
arithmetic (00_scope.md R11; 30_encoding.md R83). -/

namespace Sys2Proof.Machine

/-! ### Reachable states -/

/-- What every state of a run satisfies, from the initial state on: RAM in its canonical form and within
MEM_SIZE, registers and pc XLEN bits wide (R20, R26), an ending that is one of the outcomes of R14, and parameters
that make an address map. -/
structure State.Inv (s : State) : Prop where
  /-- The parameters make an address map (R9, R49, R50). -/
  cfgWellFormed : s.cfg.WellFormed
  /-- RAM is in its canonical form. -/
  memCanonical : s.mem.wf = true
  /-- RAM has MEM_SIZE bytes (R33). -/
  memInRam : Memory.below s.cfg.memSize s.mem
  /-- The registers are XLEN bits wide (R20). -/
  regsNarrow : ∀ i : Reg, (s.regs.get i).toNat < 2 ^ s.cfg.xlen.bits
  /-- PC is XLEN bits wide (R26). -/
  pcNarrow : s.pc.toNat < 2 ^ s.cfg.xlen.bits
  /-- The run ended by the stack check only where the check holds (R300). -/
  limitMeansCheck : s.stackLimitHit = true → stackCheckFires s = true
  /-- HCF and the stack check do not both end a run (R14: exactly one outcome). -/
  oneEnding : ¬ (s.halted = true ∧ s.stackLimitHit = true)

/-! ### Frames: what is unchanged from `s` to `t` -/

/-- Every register but `d` holds what it held. -/
def OnlyRegister (d : Reg) (s t : State) : Prop := ∀ i : Reg, i ≠ d → t.regs.get i = s.regs.get i

/-- Every register holds what it held. -/
def SameRegisters (s t : State) : Prop := ∀ i : Reg, t.regs.get i = s.regs.get i

/-- Every byte of memory reads as before. -/
def SameMemory (s t : State) : Prop := ∀ a : Nat, readByte t.mem a = readByte s.mem a

/-- Every byte outside the `n` bytes from `a` reads as before. -/
def SameMemoryOutside (a n : Nat) (s t : State) : Prop :=
  ∀ k : Nat, k < a ∨ a + n ≤ k → readByte t.mem k = readByte s.mem k

/-- No output was written and no input consumed. -/
def SameIO (s t : State) : Prop := t.output = s.output ∧ t.input = s.input

/-- Everything but registers, pc, memory, output and input is as before. -/
def SameEnvironment (s t : State) : Prop :=
  t.cfg = s.cfg ∧ t.halted = s.halted ∧ t.stackLimitHit = s.stackLimitHit ∧ t.fault = s.fault ∧
    t.stackLimit = s.stackLimit ∧ t.cycles = s.cycles

/-- `pc <- pc + 2` (R27), modulo 2^XLEN (R29). -/
def PcAdvanced (s t : State) : Prop := t.pc.toNat = (s.pc.toNat + 2) % 2 ^ s.cfg.xlen.bits

/-- A computation or shift into `d`: only r[d] and pc change (R119, R133). -/
def ComputeFrame (d : Reg) (s t : State) : Prop :=
  OnlyRegister d s t ∧ SameMemory s t ∧ SameIO s t ∧ SameEnvironment s t ∧ PcAdvanced s t

/-- A branch: only pc changes (R169). -/
def BranchFrame (s t : State) : Prop :=
  SameRegisters s t ∧ SameMemory s t ∧ SameIO s t ∧ SameEnvironment s t

/-- A store to RAM of `n` bytes at `a`: those bytes and pc change (R142, R144). -/
def StoreFrame (a n : Nat) (s t : State) : Prop :=
  SameRegisters s t ∧ SameMemoryOutside a n s t ∧ SameIO s t ∧ SameEnvironment s t ∧ PcAdvanced s t

/-! ### Values -/

/-- `signed(v)` as R11 defines it: v if v < 2^(XLEN-1), else v - 2^XLEN. -/
def signedValue (x : XLen) (v : Word) : Int :=
  if v.toNat < 2 ^ (x.bits - 1) then (v.toNat : Int) else (v.toNat : Int) - 2 ^ x.bits

/-- Bit k of `sext_8` of an immediate: bit 7 replicated upward (R12). -/
def sextBit (imm8 : Imm8) (k : Nat) : Bool := imm8.getLsbD (min k 7)

/-- A 0-or-1 result (R106). -/
def boolValue (b : Bool) : Nat := if b then 1 else 0

/-- The index 0..7 of a register (R74). -/
def regIndex : Reg → Nat
  | .r0 => 0
  | .r1 => 1
  | .r2 => 2
  | .r3 => 3
  | .r4 => 4
  | .r5 => 5
  | .r6 => 6
  | .r7 => 7

/-- The word of an R-format instruction as the rules write it: base + rst·256 + rsa·32 + rsb·4 (R100). -/
def rWord (base : Nat) (rst rsa rsb : Reg) : Nat :=
  base + regIndex rst * 256 + regIndex rsa * 32 + regIndex rsb * 4

/-- The word of an I-format instruction: base + rst·256 + imm8 (R101). -/
def iWord (base : Nat) (rst : Reg) (imm8 : Imm8) : Nat := base + regIndex rst * 256 + imm8.toNat

/-- `i` is the instruction of the word `w`, in the decoder and in the encoder, whatever STRICT_FIXED_FIELDS is. -/
def HasWord (i : Instr) (w : Nat) : Prop :=
  (encode i).toNat = w ∧ ∀ strict : Bool, decode strict (BitVec.ofNat 16 w) = .ok i

/-- The value of decimal digits in ASCII, most significant first. -/
def digitsNat : List Byte → Nat → Nat
  | [], acc => acc
  | b :: bs, acc => digitsNat bs (acc * 10 + (b.toNat - 0x30))

/-- `bs` is the decimal text of `n` in ASCII: digits only, no leading zeros, `0` for zero (R295). -/
def IsDecimalText (n : Nat) (bs : List Byte) : Prop :=
  (∀ b ∈ bs, 0x30 ≤ b.toNat ∧ b.toNat ≤ 0x39) ∧ digitsNat bs 0 = n ∧ bs ≠ [] ∧
    (bs.head? = some 0x30#8 → bs = [0x30#8])

/-! ### Words -/

/-- The reserved set as R83 lists it, over a word's fields as numbers. -/
def IsReserved (w : Nat) : Prop :=
  let opc := w / 4096
  let immbit := w / 2048 % 2
  let rst := w / 256 % 8
  let rsa := w / 32 % 8
  let rsb := w / 4 % 8
  let op2 := w % 4
  if immbit = 1 then opc = 7 ∨ 12 ≤ opc
  else if op2 = 0 then opc = 7 ∨ opc = 8 ∨ opc = 9 ∨ 12 ≤ opc ∨ ((opc = 10 ∨ opc = 11) ∧ rst ≠ 0)
  else if op2 = 1 then ¬ (opc = 0 ∨ opc = 1) ∨ rsb ≠ 0
  else if op2 = 2 then
    ¬ (opc = 0 ∨ opc = 1 ∨ opc = 4 ∨ opc = 5) ∨ ((opc = 0 ∨ opc = 4) ∧ rsa ≠ 0) ∨
      ((opc = 1 ∨ opc = 5) ∧ rst ≠ 0)
  else w ≠ 3 ∧ (¬ (opc = 10 ∨ opc = 11) ∨ rst ≠ 0)

/-- The branches, the only instructions that change the flow of control (R165). -/
def isBranch : Instr → Bool
  | .bezR _ _ _ | .bezRAsm _ _ _ | .bezI _ _ | .bnzR _ _ _ | .bnzRAsm _ _ _ | .bnzI _ _ => true
  | .andR _ _ _ | .andI _ _ | .orR _ _ _ | .orI _ _ | .xorR _ _ _ | .xorI _ _ => false
  | .sltR _ _ _ | .sltI _ _ | .sltuR _ _ _ | .sltuI _ _ => false
  | .addR _ _ _ | .addI _ _ | .subR _ _ _ | .subI _ _ | .ldr _ _ | .ldc _ _ => false
  | .lsr _ _ _ | .asr _ _ _ | .ldb _ _ _ | .stb _ _ _ | .ldw _ _ _ | .stw _ _ _ | .hcf => false

/-- The stores. -/
def isStore : Instr → Bool
  | .stb _ _ _ | .stw _ _ _ => true
  | .bezR _ _ _ | .bezRAsm _ _ _ | .bezI _ _ | .bnzR _ _ _ | .bnzRAsm _ _ _ | .bnzI _ _ => false
  | .andR _ _ _ | .andI _ _ | .orR _ _ _ | .orI _ _ | .xorR _ _ _ | .xorI _ _ => false
  | .sltR _ _ _ | .sltI _ _ | .sltuR _ _ _ | .sltuI _ _ => false
  | .addR _ _ _ | .addI _ _ | .subR _ _ _ | .subI _ _ | .ldr _ _ | .ldc _ _ => false
  | .lsr _ _ _ | .asr _ _ _ | .ldb _ _ _ | .ldw _ _ _ | .hcf => false

end Sys2Proof.Machine
end

