-- ==== Sys2Proof/Certificates/Slice0/Obligations.lean ====
section
/-! DEFINITION. Obligations.lean: the statements about the model. Each docstring names the rules of spec/ that the
statement formalises. A word's form base + rst·256 + rsa·32 + rsb·4 and the frames are defined in Safety.lean. -/

open Sys2Proof Sys2Proof.Machine

/-! ### Encoding -/

/-- Words printed in the spec's examples decode to the instructions they are printed for (R100 to R163, R180). That
0xA04F and 0xB0F8 decode to different constructors by their Op2 is the model's choice (DESIGN CHOICE, log entry 13). -/
def Obligations.DecodeKnownWords : Prop :=
  decode true 0x0270#16 = .ok (.andR .r2 .r3 .r4) ∧
  decode true 0x3C0A#16 = .ok (.sltI .r4 10#8) ∧
  decode true 0x9B0A#16 = .ok (.ldc .r3 10#8) ∧
  decode true 0x0561#16 = .ok (.lsr .r5 .r3 .r0) ∧
  decode true 0x030A#16 = .ok (.ldb .r3 .r0 .r2) ∧
  decode true 0x503E#16 = .ok (.stw .r0 .r1 .r7) ∧
  decode true 0xA04F#16 = .ok (.bezR .r0 .r2 .r3) ∧
  decode true 0xB0F8#16 = .ok (.bnzRAsm .r0 .r7 .r6) ∧
  decode true 0xBAFA#16 = .ok (.bnzI .r2 0xFA#8) ∧
  decode true 0x0003#16 = .ok .hcf

/-- Decode and encode agree: every well-formed instruction, all operands at every value, is read back from its own word,
and from its two bytes with anything behind them (R70 to R86). R81 and R86 make one instruction of the two words of a
register branch, and with the switch off R82 ignores a fixed field; that the syntax has a constructor for each word and
keeps the fixed fields, so that each instruction has one word, is the model's choice (DESIGN CHOICE, log entry 13). -/
def Obligations.DecodeInvertsEncode : Prop :=
  ∀ (strict : Bool) (i : Instr) (rest : List Byte), i.wellFormed strict = true →
    decode strict (encode i) = .ok i ∧
    decodeBytes strict (bytesOfCode (encode i) ++ rest) = .ok (i, rest)

/-- What the decoder accepts is well-formed and encodes to the very same word. This rests on the model's choice (DESIGN
CHOICE, log entry 13) of two constructors for a register branch and of a syntax that keeps the fixed fields: R81 and R86
make one instruction of the two words of a register branch, and with the switch off a fixed field is dropped. -/
def Obligations.EncodeInvertsDecode : Prop :=
  ∀ (strict : Bool) (w : Code) (i : Instr), decode strict w = .ok i →
    encode i = w ∧ i.wellFormed strict = true

/-- R83: the reserved set, word for word, is the set of words with no instruction, and executing one raises
IllegalInstruction with the word. The model fault is the spec's own decision (D4). -/
def Obligations.ReservedWordsAreIllegal : Prop :=
  ∀ w : Code,
    (IsReserved w.toNat ↔ ∀ i : Instr, decode true w ≠ .ok i) ∧
    ∀ s : State, s.ending = none → s.cfg.strictFixedFields = true → fetch s = .ok w →
      IsReserved w.toNat → step s = .fault (.illegalInstruction w)

/-- R82 and the switch STRICT_FIXED_FIELDS: a must-be-r0 field that is not 000 makes the word illegal when the
switch is on, is accepted when it is off, and then has no effect. The switch and its reference value are the spec's
own decision (D5). That the ten instructions are ten constructors, two for each register branch, which keep the field, is
the model's choice (DESIGN CHOICE, log entry 13). -/
def Obligations.FixedFieldSwitch : Prop :=
  (∀ i : Instr, i.fixedFieldsZero = false →
    decode false (encode i) = .ok i ∧ decode true (encode i) = .error (.fixedField (encode i))) ∧
  ∀ (f x y : Reg) (s : State),
    exec (.lsr x y f) s = exec (.lsr x y .r0) s ∧ exec (.asr x y f) s = exec (.asr x y .r0) s ∧
    exec (.ldb x f y) s = exec (.ldb x .r0 y) s ∧ exec (.ldw x f y) s = exec (.ldw x .r0 y) s ∧
    exec (.stb f x y) s = exec (.stb .r0 x y) s ∧ exec (.stw f x y) s = exec (.stw .r0 x y) s ∧
    exec (.bezR f x y) s = exec (.bezR .r0 x y) s ∧ exec (.bnzR f x y) s = exec (.bnzR .r0 x y) s ∧
    exec (.bezRAsm f x y) s = exec (.bezRAsm .r0 x y) s ∧
    exec (.bnzRAsm f x y) s = exec (.bnzRAsm .r0 x y) s

/-- Both encodings of a register branch that R81 accepts are legal and do the same. That each decodes to a constructor of
its own is the model's choice (DESIGN CHOICE, log entry 13), and that the two-register pseudo-operations of the branches
expand to the forms with Op2 = 00 is the reading of log entry 18; the words the assembler itself builds are in
AssemblerBuildsTheEncodersWords. -/
def Obligations.RegisterBranchesHaveTwoEncodings : Prop :=
  ∀ (a b : Reg) (s : State),
    HasWord (.bezR .r0 a b) (rWord 0xA003 .r0 a b) ∧ HasWord (.bezRAsm .r0 a b) (rWord 0xA000 .r0 a b) ∧
    HasWord (.bnzR .r0 a b) (rWord 0xB003 .r0 a b) ∧ HasWord (.bnzRAsm .r0 a b) (rWord 0xB000 .r0 a b) ∧
    exec (.bezR .r0 a b) s = exec (.bezRAsm .r0 a b) s ∧
    exec (.bnzR .r0 a b) s = exec (.bnzRAsm .r0 a b) s ∧
    expand (.bez a b) = [.bezRAsm .r0 a b] ∧ expand (.bnz a b) = [.bnzRAsm .r0 a b]

/-! ### Memory -/

/-- The canonical form: memories that read alike everywhere are equal data (the model's own form, log entry 3). -/
def Obligations.EqualReadsMakeEqualMemories : Prop :=
  ∀ m m' : Memory, m.wf = true → m'.wf = true → (∀ a : Nat, readByte m a = readByte m' a) → m = m'

/-- R43: the byte lanes of an aligned word in RAM, and mixed-width accesses that see exactly these lanes. The spec
infers the two middle lanes of XLEN = 32 from R42. Well-formed parameters (log entry 1) keep the devices out of RAM. -/
def Obligations.WordLanes : Prop :=
  ∀ (s : State) (a v : Word), s.cfg.WellFormed → s.mem.wf = true →
    a.toNat % s.cfg.xlen.wordBytes = 0 → a.toNat + s.cfg.xlen.wordBytes ≤ s.cfg.memSize →
    ∃ t : State, memWrite s .word a v = .ok t ∧
      (s.cfg.xlen = .x16 →
        readByte t.mem a.toNat = v.extractLsb' 8 8 ∧ readByte t.mem (a.toNat + 1) = v.extractLsb' 0 8) ∧
      (s.cfg.xlen = .x32 →
        readByte t.mem a.toNat = v.extractLsb' 24 8 ∧ readByte t.mem (a.toNat + 1) = v.extractLsb' 16 8 ∧
        readByte t.mem (a.toNat + 2) = v.extractLsb' 8 8 ∧
        readByte t.mem (a.toNat + 3) = v.extractLsb' 0 8) ∧
      memRead t .word a = .ok (trim s.cfg.xlen v, t) ∧
      ∀ (k : Nat) (b : Word), k < s.cfg.xlen.wordBytes →
        memRead t .byte (a + BitVec.ofNat 32 k) =
          .ok ((readByte t.mem (a.toNat + k)).setWidth 32, t) ∧
        ∃ u : State, memWrite t .byte (a + BitVec.ofNat 32 k) b = .ok u ∧
          ∀ j : Nat, j < s.cfg.xlen.wordBytes →
            readByte u.mem (a.toNat + j) =
              if j = k then b.setWidth 8 else readByte t.mem (a.toNat + j)

/-- R46: a word access at an address that is not a multiple of WORD_BYTES raises MisalignedAccess, whatever lies
there. The fault is the spec's own decision (D6). -/
def Obligations.MisalignedWordAccessFaults : Prop :=
  ∀ (s : State) (rst rsa rsb : Reg), (s.reg rsb).toNat % s.cfg.xlen.wordBytes ≠ 0 →
    exec (.ldw rst rsa rsb) s = .fault (.misalignedAccess (s.reg rsb)) ∧
    exec (.stw rst rsa rsb) s = .fault (.misalignedAccess (s.reg rsb))

/-- R55: every data access that is neither to RAM nor one of the four device accesses raises AccessFault with the
address. The fault is the spec's own decision (D8, D9). -/
def Obligations.DataAccessOutsideFaults : Prop :=
  ∀ (s : State) (rst rsa rsb : Reg), s.cfg.memSize ≤ (s.reg rsb).toNat →
    exec (.ldb rst rsa rsb) s = .fault (.accessFault (s.reg rsb)) ∧
    exec (.stb rst rsa rsb) s = .fault (.accessFault (s.reg rsb)) ∧
    ((s.reg rsb).toNat % s.cfg.xlen.wordBytes = 0 →
      (s.reg rsb ≠ s.cfg.inChar → s.reg rsb ≠ s.cfg.inInt →
        exec (.ldw rst rsa rsb) s = .fault (.accessFault (s.reg rsb))) ∧
      (s.reg rsb ≠ s.cfg.outChar → s.reg rsb ≠ s.cfg.outInt →
        exec (.stw rst rsa rsb) s = .fault (.accessFault (s.reg rsb))))

/-- R44: a fetch at an odd pc, at a pc not wholly in RAM, and in RAM (the byte at pc above the byte at pc+1); with
XLEN = 32 an aligned word holds two instructions, the one at the lower address in its upper half. The faults are the
spec's own decisions (D7, D8); the last clause it infers from R42, and only that clause needs well-formed parameters
(log entry 1). -/
def Obligations.FetchRule : Prop :=
  ∀ s : State,
    (s.pc.toNat % 2 = 1 → fetch s = .error (.misalignedFetch s.pc)) ∧
    (s.pc.toNat % 2 = 0 → s.cfg.memSize - 1 < s.pc.toNat + 1 → fetch s = .error (.accessFault s.pc)) ∧
    (s.pc.toNat % 2 = 0 → s.pc.toNat + 1 ≤ s.cfg.memSize - 1 →
      ∃ w : Code, fetch s = .ok w ∧
        w.toNat = (readByte s.mem s.pc.toNat).toNat * 256 + (readByte s.mem (s.pc.toNat + 1)).toNat) ∧
    (s.cfg.WellFormed → s.cfg.xlen = .x32 → ∀ a : Word, a.toNat % 4 = 0 → a.toNat + 4 ≤ s.cfg.memSize →
      ∃ (v : Word) (upper lower : Code), memRead s .word a = .ok (v, s) ∧
        fetch (s.setPc a) = .ok upper ∧ fetch (s.setPc (a + 2#32)) = .ok lower ∧
        v.toNat = upper.toNat * 65536 + lower.toNat)

/-- R59: a store is seen by a later fetch of the same bytes, with no other action. The spec's own decision (D16).
Well-formed parameters: log entry 1. -/
def Obligations.StoredCodeIsFetched : Prop :=
  ∀ (s t : State) (rst rsa rsb : Reg), s.cfg.WellFormed → s.mem.wf = true →
    (s.reg rsb).toNat < s.cfg.memSize →
    (exec (.stw rst rsa rsb) s = .next t →
      (s.cfg.xlen = .x16 → fetch (t.setPc (s.reg rsb)) = .ok ((s.reg rsa).extractLsb' 0 16)) ∧
      (s.cfg.xlen = .x32 →
        fetch (t.setPc (s.reg rsb)) = .ok ((s.reg rsa).extractLsb' 16 16) ∧
        fetch (t.setPc (s.reg rsb + 2#32)) = .ok ((s.reg rsa).extractLsb' 0 16))) ∧
    (exec (.stb rst rsa rsb) s = .next t →
      ((s.reg rsb).toNat % 2 = 0 →
        fetch (t.setPc (s.reg rsb)) =
          .ok (codeOfBytes ((s.reg rsa).extractLsb' 0 8) (readByte s.mem ((s.reg rsb).toNat + 1)))) ∧
      ((s.reg rsb).toNat % 2 = 1 →
        fetch (t.setPc (s.reg rsb - 1#32)) =
          .ok (codeOfBytes (readByte s.mem ((s.reg rsb).toNat - 1)) ((s.reg rsa).extractLsb' 0 8))))

/-! ### Devices -/

/-- R294: STW to OUT_CHAR appends the low byte of the register to the output, and nothing else; RAM is unchanged.
The format is the spec's own decision (D20). Well-formed parameters: log entry 1. -/
def Obligations.CharacterOutput : Prop :=
  ∀ (s : State) (rst rsa rsb : Reg), s.cfg.WellFormed → s.reg rsb = s.cfg.outChar →
    ∃ t : State, exec (.stw rst rsa rsb) s = .next t ∧
      t.output = s.output ++ [(s.reg rsa).extractLsb' 0 8] ∧ t.input = s.input ∧
      SameRegisters s t ∧ SameMemory s t ∧ SameEnvironment s t ∧ PcAdvanced s t

/-- R295: STW to OUT_INT appends the decimal text of the signed value: a leading `-` for a negative value, no sign
for another, no leading zeros, no separator. The format is the spec's own decision (D20), the character set general
knowledge (R295). Well-formed parameters: log entry 1. -/
def Obligations.IntegerOutput : Prop :=
  ∀ (s : State) (rst rsa rsb : Reg), s.cfg.WellFormed → s.reg rsb = s.cfg.outInt →
    ∃ (t : State) (text : List Byte), exec (.stw rst rsa rsb) s = .next t ∧
      t.output = s.output ++ text ∧ t.input = s.input ∧
      (0 ≤ signedValue s.cfg.xlen (s.reg rsa) →
        IsDecimalText (signedValue s.cfg.xlen (s.reg rsa)).toNat text) ∧
      (signedValue s.cfg.xlen (s.reg rsa) < 0 →
        ∃ digits : List Byte, text = 0x2D#8 :: digits ∧
          IsDecimalText (-signedValue s.cfg.xlen (s.reg rsa)).toNat digits) ∧
      SameRegisters s t ∧ SameMemory s t ∧ SameEnvironment s t ∧ PcAdvanced s t

/-- R296: LDW from IN_CHAR consumes the head n of the input and gives n mod 256, zero-extended; with no input left
it raises InputExhausted. The value read is the spec's own decision (D10). Well-formed parameters: log entry 1. -/
def Obligations.CharacterInput : Prop :=
  ∀ (s : State) (rst rsa rsb : Reg), s.cfg.WellFormed → s.reg rsb = s.cfg.inChar →
    (s.input = [] → exec (.ldw rst rsa rsb) s = .fault .inputExhausted) ∧
    ∀ (n : Int) (rest : List Int), s.input = n :: rest →
      ∃ t : State, exec (.ldw rst rsa rsb) s = .next t ∧
        ((t.reg rst).toNat : Int) = n % 256 ∧ t.input = rest ∧ t.output = s.output ∧
        OnlyRegister rst s t ∧ SameMemory s t ∧ SameEnvironment s t ∧ PcAdvanced s t

/-- R297: LDW from IN_INT consumes the head n of the input and gives n mod 2^XLEN; with no input left it raises
InputExhausted. The reduction and the end of input are the spec's own decision (D21). Well-formed parameters: log
entry 1. -/
def Obligations.IntegerInput : Prop :=
  ∀ (s : State) (rst rsa rsb : Reg), s.cfg.WellFormed → s.reg rsb = s.cfg.inInt →
    (s.input = [] → exec (.ldw rst rsa rsb) s = .fault .inputExhausted) ∧
    ∀ (n : Int) (rest : List Int), s.input = n :: rest →
      ∃ t : State, exec (.ldw rst rsa rsb) s = .next t ∧
        ((t.reg rst).toNat : Int) = n % 2 ^ s.cfg.xlen.bits ∧ t.input = rest ∧ t.output = s.output ∧
        OnlyRegister rst s t ∧ SameMemory s t ∧ SameEnvironment s t ∧ PcAdvanced s t

/-- R54, R53: whatever the instruction, output is written only by STW to an output register, input is consumed only by
LDW from an input register and one item at a time, and output already written stays. -/
def Obligations.OnlyDeviceAccessesTouchIO : Prop :=
  ∀ (i : Instr) (s t : State), exec i s = .next t →
    (t.output ≠ s.output → ∃ rst rsa rsb : Reg, i = .stw rst rsa rsb ∧
      (s.reg rsb = s.cfg.outChar ∨ s.reg rsb = s.cfg.outInt)) ∧
    (t.input ≠ s.input → ∃ (rst rsa rsb : Reg) (n : Int), i = .ldw rst rsa rsb ∧
      (s.reg rsb = s.cfg.inChar ∨ s.reg rsb = s.cfg.inInt) ∧ s.input = n :: t.input) ∧
    ∃ text : List Byte, t.output = s.output ++ text

/-! ### Computation -/

/-- R100, R102, R104: AND, OR, XOR of two registers, bit by bit; with their words. -/
def Obligations.LogicalRegisterForms : Prop :=
  ∀ (rst rsa rsb : Reg) (s : State),
    HasWord (.andR rst rsa rsb) (rWord 0x0000 rst rsa rsb) ∧
    HasWord (.orR rst rsa rsb) (rWord 0x1000 rst rsa rsb) ∧
    HasWord (.xorR rst rsa rsb) (rWord 0x2000 rst rsa rsb) ∧
    (∃ t : State, exec (.andR rst rsa rsb) s = .next t ∧ ComputeFrame rst s t ∧
      ∀ k : Nat, (t.reg rst).getLsbD k = ((s.reg rsa).getLsbD k && (s.reg rsb).getLsbD k)) ∧
    (∃ t : State, exec (.orR rst rsa rsb) s = .next t ∧ ComputeFrame rst s t ∧
      ∀ k : Nat, (t.reg rst).getLsbD k = ((s.reg rsa).getLsbD k || (s.reg rsb).getLsbD k)) ∧
    (∃ t : State, exec (.xorR rst rsa rsb) s = .next t ∧ ComputeFrame rst s t ∧
      ∀ k : Nat, (t.reg rst).getLsbD k = ((s.reg rsa).getLsbD k ^^ (s.reg rsb).getLsbD k))

/-- R101, R103, R105: AND and OR with the zero-extended immediate, XOR with the sign-extended one, bit by bit; with
their words. -/
def Obligations.LogicalImmediateForms : Prop :=
  ∀ (rst : Reg) (imm8 : Imm8) (s : State),
    HasWord (.andI rst imm8) (iWord 0x0800 rst imm8) ∧
    HasWord (.orI rst imm8) (iWord 0x1800 rst imm8) ∧
    HasWord (.xorI rst imm8) (iWord 0x2800 rst imm8) ∧
    (∃ t : State, exec (.andI rst imm8) s = .next t ∧ ComputeFrame rst s t ∧
      ∀ k : Nat, (t.reg rst).getLsbD k = ((s.reg rst).getLsbD k && (decide (k < 8) && imm8.getLsbD k))) ∧
    (∃ t : State, exec (.orI rst imm8) s = .next t ∧ ComputeFrame rst s t ∧
      ∀ k : Nat, (t.reg rst).getLsbD k = ((s.reg rst).getLsbD k || (decide (k < 8) && imm8.getLsbD k))) ∧
    (∃ t : State, exec (.xorI rst imm8) s = .next t ∧ ComputeFrame rst s t ∧
      ∀ k : Nat, k < s.cfg.xlen.bits →
        (t.reg rst).getLsbD k = ((s.reg rst).getLsbD k ^^ sextBit imm8 k))

/-- R106, R108: SLT and SLTU of two registers write 1 or 0 to the whole target; with their words. -/
def Obligations.CompareRegisterForms : Prop :=
  ∀ (rst rsa rsb : Reg) (s : State),
    HasWord (.sltR rst rsa rsb) (rWord 0x3000 rst rsa rsb) ∧
    HasWord (.sltuR rst rsa rsb) (rWord 0x4000 rst rsa rsb) ∧
    (∃ t : State, exec (.sltR rst rsa rsb) s = .next t ∧ ComputeFrame rst s t ∧
      (t.reg rst).toNat =
        boolValue (decide (signedValue s.cfg.xlen (s.reg rsa) < signedValue s.cfg.xlen (s.reg rsb)))) ∧
    (∃ t : State, exec (.sltuR rst rsa rsb) s = .next t ∧ ComputeFrame rst s t ∧
      (t.reg rst).toNat = boolValue (decide ((s.reg rsa).toNat < (s.reg rsb).toNat)))

/-- R107, R109: SLT and SLTU against the sign-extended immediate, which SLTU reads as unsigned; the register compared is
Rst; with their words. -/
def Obligations.CompareImmediateForms : Prop :=
  ∀ (rst : Reg) (imm8 : Imm8) (s : State),
    HasWord (.sltI rst imm8) (iWord 0x3800 rst imm8) ∧
    HasWord (.sltuI rst imm8) (iWord 0x4800 rst imm8) ∧
    (∃ t : State, exec (.sltI rst imm8) s = .next t ∧ ComputeFrame rst s t ∧
      (t.reg rst).toNat = boolValue (decide (signedValue s.cfg.xlen (s.reg rst) < imm8.toInt))) ∧
    (∃ t : State, exec (.sltuI rst imm8) s = .next t ∧ ComputeFrame rst s t ∧
      (t.reg rst).toNat =
        boolValue (decide (((s.reg rst).toNat : Int) < imm8.toInt % 2 ^ s.cfg.xlen.bits)))

/-- R110, R112: ADD and SUB of two registers, modulo 2^XLEN, first source minus second; with their words. -/
def Obligations.ArithmeticRegisterForms : Prop :=
  ∀ (rst rsa rsb : Reg) (s : State),
    HasWord (.addR rst rsa rsb) (rWord 0x5000 rst rsa rsb) ∧
    HasWord (.subR rst rsa rsb) (rWord 0x6000 rst rsa rsb) ∧
    (∃ t : State, exec (.addR rst rsa rsb) s = .next t ∧ ComputeFrame rst s t ∧
      ((t.reg rst).toNat : Int) =
        ((s.reg rsa).toNat + (s.reg rsb).toNat : Int) % 2 ^ s.cfg.xlen.bits) ∧
    (∃ t : State, exec (.subR rst rsa rsb) s = .next t ∧ ComputeFrame rst s t ∧
      ((t.reg rst).toNat : Int) =
        ((s.reg rsa).toNat - (s.reg rsb).toNat : Int) % 2 ^ s.cfg.xlen.bits)

/-- R111, R113: ADD and SUB with the sign-extended immediate, modulo 2^XLEN; with their words. -/
def Obligations.ArithmeticImmediateForms : Prop :=
  ∀ (rst : Reg) (imm8 : Imm8) (s : State),
    HasWord (.addI rst imm8) (iWord 0x5800 rst imm8) ∧
    HasWord (.subI rst imm8) (iWord 0x6800 rst imm8) ∧
    (∃ t : State, exec (.addI rst imm8) s = .next t ∧ ComputeFrame rst s t ∧
      ((t.reg rst).toNat : Int) = ((s.reg rst).toNat + imm8.toInt) % 2 ^ s.cfg.xlen.bits) ∧
    (∃ t : State, exec (.subI rst imm8) s = .next t ∧ ComputeFrame rst s t ∧
      ((t.reg rst).toNat : Int) = ((s.reg rst).toNat - imm8.toInt) % 2 ^ s.cfg.xlen.bits)

/-- R114, R115: LDR loads the sign-extended immediate whatever the register held; LDC shifts the register left by 8 bits
and adds the zero-extended immediate; with their words; neither has an R format. -/
def Obligations.ConstantLoads : Prop :=
  ∀ (rst : Reg) (imm8 : Imm8) (s : State),
    HasWord (.ldr rst imm8) (iWord 0x8800 rst imm8) ∧
    HasWord (.ldc rst imm8) (iWord 0x9800 rst imm8) ∧
    (∀ (strict : Bool) (w : Code) (i : Instr), w.toNat / 4096 = 8 ∨ w.toNat / 4096 = 9 →
      w.toNat / 2048 % 2 = 0 → decode strict w ≠ .ok i) ∧
    (∃ t : State, exec (.ldr rst imm8) s = .next t ∧ ComputeFrame rst s t ∧
      signedValue s.cfg.xlen (t.reg rst) = imm8.toInt) ∧
    (∃ t : State, exec (.ldc rst imm8) s = .next t ∧ ComputeFrame rst s t ∧
      (t.reg rst).toNat = (s.reg rst).toNat * 256 % 2 ^ s.cfg.xlen.bits + imm8.toNat)

/-- R117 (its bit-level definitions are marked there as general knowledge): on XLEN-bit operands N is the sign of the
difference, V says that the difference as signed numbers does not fit, N xor V is the signed comparison and C the unsigned
one; the comparisons the model computes agree with them. -/
def Obligations.ComparisonsAgreeWithAluSignals : Prop :=
  ∀ (x : XLen) (a b : Word), a.toNat < 2 ^ x.bits → b.toNat < 2 ^ x.bits →
    aluN x a b = decide (signedValue x (trim x (a - b)) < 0) ∧
    aluV x a b =
      decide (signedValue x (trim x (a - b)) ≠ signedValue x a - signedValue x b) ∧
    (aluN x a b ^^ aluV x a b) = decide (signedValue x a < signedValue x b) ∧
    lessSigned x a b = (aluN x a b ^^ aluV x a b) ∧
    aluC x a b = decide (a.toNat < b.toNat) ∧ lessUnsigned x a b = aluC x a b

/-- R120: the constant-loading sequences: two LDC replace a 16-bit register, four a 32-bit one, and LDR then LDC
load a 16-bit constant whose high byte is below 128 in either variant; -31073 in two instructions. The rows are
consequences of R114 and R115. -/
def Obligations.ConstantSequences : Prop :=
  ∀ (s : State) (r : Reg) (b3 b2 b1 b0 : Imm8),
    (s.cfg.xlen = .x16 → ∃ t : State, execAll [.ldc r b1, .ldc r b0] s = .next t ∧
      (t.reg r).toNat = b1.toNat * 256 + b0.toNat) ∧
    (s.cfg.xlen = .x32 → ∃ t : State, execAll [.ldc r b3, .ldc r b2, .ldc r b1, .ldc r b0] s = .next t ∧
      (t.reg r).toNat = b3.toNat * 16777216 + b2.toNat * 65536 + b1.toNat * 256 + b0.toNat) ∧
    (∃ t : State, execAll [.ldr r b1, .ldc r b0] s = .next t ∧
      signedValue s.cfg.xlen (t.reg r) = b1.toInt * 256 + b0.toNat) ∧
    (∃ t : State, execAll [.ldr r (-122#8), .ldc r 159#8] s = .next t ∧
      signedValue s.cfg.xlen (t.reg r) = -31073) ∧
    ∃ t : State, exec (.ldr r (-1#8)) s = .next t ∧ signedValue s.cfg.xlen (t.reg r) = -1

/-! ### Shifts -/

/-- LSR and ASR (42_shift.md, R130, R131, R133) shift right by one bit; unsigned and signed division by 2 rounded down; a
field RsB that is not 000 is illegal; the assembler's short forms; with their words. The illegal word is the spec's own
decision (D5; log entries 6 and 13). -/
def Obligations.ShiftsByOne : Prop :=
  ∀ (rst rsa rsb : Reg) (s : State),
    HasWord (.lsr rst rsa .r0) (rWord 0x0001 rst rsa .r0) ∧
    HasWord (.asr rst rsa .r0) (rWord 0x1001 rst rsa .r0) ∧
    (rsb ≠ .r0 → ∀ i : Instr, decode true (encode (.lsr rst rsa rsb)) ≠ .ok i ∧
      decode true (encode (.asr rst rsa rsb)) ≠ .ok i) ∧
    expand (.lsr rst rsa) = [.lsr rst rsa .r0] ∧ expand (.asr rst rsa) = [.asr rst rsa .r0] ∧
    (∃ t : State, exec (.lsr rst rsa rsb) s = .next t ∧ ComputeFrame rst s t ∧
      (t.reg rst).toNat = (s.reg rsa).toNat / 2 ∧
      ∀ k : Nat, (t.reg rst).getLsbD k = (s.reg rsa).getLsbD (k + 1)) ∧
    (∃ t : State, exec (.asr rst rsa rsb) s = .next t ∧ ComputeFrame rst s t ∧
      signedValue s.cfg.xlen (t.reg rst) = signedValue s.cfg.xlen (s.reg rsa) / 2 ∧
      (t.reg rst).getLsbD (s.cfg.xlen.bits - 1) = (s.reg rsa).getLsbD (s.cfg.xlen.bits - 1) ∧
      ∀ k : Nat, k < s.cfg.xlen.bits - 1 → (t.reg rst).getLsbD k = (s.reg rsa).getLsbD (k + 1))

/-! ### Loads and stores -/

/-- LDB (43_load_store.md, R141) loads the byte at r[rsb], sign-extended, at any alignment; AccessFault outside RAM;
illegal with RsA not 000; the assembler's short forms; with its word. The spec's own decisions: AccessFault at an
address that is no RAM and for a byte access to a device (D8, D9; log entry 6), the illegal word (D5; log entries 6
and 13). -/
def Obligations.LoadByte : Prop :=
  ∀ (rst rsa rsb : Reg) (s : State),
    HasWord (.ldb rst .r0 rsb) (rWord 0x0002 rst .r0 rsb) ∧
    (rsa ≠ .r0 → ∀ i : Instr, decode true (encode (.ldb rst rsa rsb)) ≠ .ok i) ∧
    (∀ addr : Code, expand (.ldb rst rsb) = [.ldb rst .r0 rsb] ∧
      expand (.ldbLabel rst addr) = ldi .r0 addr ++ [.ldb rst .r0 .r0]) ∧
    ((s.reg rsb).toNat < s.cfg.memSize →
      ∃ t : State, exec (.ldb rst rsa rsb) s = .next t ∧ ComputeFrame rst s t ∧
        signedValue s.cfg.xlen (t.reg rst) = (readByte s.mem (s.reg rsb).toNat).toInt) ∧
    (s.cfg.memSize ≤ (s.reg rsb).toNat →
      exec (.ldb rst rsa rsb) s = .fault (.accessFault (s.reg rsb)))

/-- STB (43_load_store.md, R142) stores the low byte of r[rsa] at r[rsb], and only that byte of memory changes;
AccessFault outside RAM; illegal with Rst not 000; the assembler's short forms; with its word. The spec's own
decisions: AccessFault at an address that is no RAM and for a byte access to a device (D8, D9; log entry 6), no
register written (D15; log entry 14), the illegal word (D5; log entries 6 and 13). -/
def Obligations.StoreByte : Prop :=
  ∀ (rst rsa rsb : Reg) (s : State), s.mem.wf = true →
    HasWord (.stb .r0 rsa rsb) (rWord 0x1002 .r0 rsa rsb) ∧
    (rst ≠ .r0 → ∀ i : Instr, decode true (encode (.stb rst rsa rsb)) ≠ .ok i) ∧
    (∀ addr : Code, expand (.stb rsa rsb) = [.stb .r0 rsa rsb] ∧
      expand (.stbLabel rsa addr) = ldi .r0 addr ++ [.stb .r0 rsa .r0]) ∧
    ((s.reg rsb).toNat < s.cfg.memSize →
      ∃ t : State, exec (.stb rst rsa rsb) s = .next t ∧ StoreFrame (s.reg rsb).toNat 1 s t ∧
        readByte t.mem (s.reg rsb).toNat = (s.reg rsa).extractLsb' 0 8) ∧
    (s.cfg.memSize ≤ (s.reg rsb).toNat →
      exec (.stb rst rsa rsb) s = .fault (.accessFault (s.reg rsb)))

/-- R143, R145: LDW from an aligned address in RAM fills the register with the big-endian word, with no extension.
Well-formed parameters (log entry 1) keep the devices out of RAM. -/
def Obligations.LoadWordFromRam : Prop :=
  ∀ (rst rsa rsb : Reg) (s : State),
    HasWord (.ldw rst .r0 rsb) (rWord 0x4002 rst .r0 rsb) ∧
    (s.cfg.WellFormed → (s.reg rsb).toNat % s.cfg.xlen.wordBytes = 0 → (s.reg rsb).toNat < s.cfg.memSize →
      ∃ t : State, exec (.ldw rst rsa rsb) s = .next t ∧ ComputeFrame rst s t ∧
        (s.cfg.xlen = .x16 → (t.reg rst).toNat =
          (readByte s.mem (s.reg rsb).toNat).toNat * 256 +
            (readByte s.mem ((s.reg rsb).toNat + 1)).toNat) ∧
        (s.cfg.xlen = .x32 → (t.reg rst).toNat =
          (readByte s.mem (s.reg rsb).toNat).toNat * 16777216 +
            (readByte s.mem ((s.reg rsb).toNat + 1)).toNat * 65536 +
            (readByte s.mem ((s.reg rsb).toNat + 2)).toNat * 256 +
            (readByte s.mem ((s.reg rsb).toNat + 3)).toNat))

/-- R144, R145: STW to an aligned address in RAM stores the whole register, most significant byte at the lowest
address; no other byte of memory changes and no register is written. Well-formed parameters: log entry 1. -/
def Obligations.StoreWordToRam : Prop :=
  ∀ (rst rsa rsb : Reg) (s : State), s.mem.wf = true →
    HasWord (.stw .r0 rsa rsb) (rWord 0x5002 .r0 rsa rsb) ∧
    (s.cfg.WellFormed → (s.reg rsb).toNat % s.cfg.xlen.wordBytes = 0 → (s.reg rsb).toNat < s.cfg.memSize →
      ∃ t : State, exec (.stw rst rsa rsb) s = .next t ∧
        StoreFrame (s.reg rsb).toNat s.cfg.xlen.wordBytes s t ∧
        (s.cfg.xlen = .x16 →
          readByte t.mem (s.reg rsb).toNat = (s.reg rsa).extractLsb' 8 8 ∧
          readByte t.mem ((s.reg rsb).toNat + 1) = (s.reg rsa).extractLsb' 0 8) ∧
        (s.cfg.xlen = .x32 →
          readByte t.mem (s.reg rsb).toNat = (s.reg rsa).extractLsb' 24 8 ∧
          readByte t.mem ((s.reg rsb).toNat + 1) = (s.reg rsa).extractLsb' 16 8 ∧
          readByte t.mem ((s.reg rsb).toNat + 2) = (s.reg rsa).extractLsb' 8 8 ∧
          readByte t.mem ((s.reg rsb).toNat + 3) = (s.reg rsa).extractLsb' 0 8))

/-! ### Branches -/

/-- The register branches (44_branch.md, R160, R162), in both encodings: taken to the address in r[rsb], else to pc + 2;
only pc changes; illegal with Rst not 000; with their words and the assembler's short forms. The two constructors of each
branch are the model's choice (log entry 13). The spec's own decisions:
the illegal word (D5; log entries 6 and 13), that a branch writes no register (D15; log entry 14), and pc arithmetic
mod 2^XLEN (D2; log entry 11). -/
def Obligations.RegisterBranches : Prop :=
  ∀ (rst rsa rsb : Reg) (s : State),
    HasWord (.bezR .r0 rsa rsb) (rWord 0xA003 .r0 rsa rsb) ∧
    HasWord (.bezRAsm .r0 rsa rsb) (rWord 0xA000 .r0 rsa rsb) ∧
    HasWord (.bnzR .r0 rsa rsb) (rWord 0xB003 .r0 rsa rsb) ∧
    HasWord (.bnzRAsm .r0 rsa rsb) (rWord 0xB000 .r0 rsa rsb) ∧
    expand (.bez rsa rsb) = [.bezRAsm .r0 rsa rsb] ∧ expand (.bnz rsa rsb) = [.bnzRAsm .r0 rsa rsb] ∧
    (rst ≠ .r0 → ∀ j : Instr,
      decode true (encode (.bezR rst rsa rsb)) ≠ .ok j ∧ decode true (encode (.bezRAsm rst rsa rsb)) ≠ .ok j ∧
      decode true (encode (.bnzR rst rsa rsb)) ≠ .ok j ∧ decode true (encode (.bnzRAsm rst rsa rsb)) ≠ .ok j) ∧
    (∀ i : Instr, i = .bezR rst rsa rsb ∨ i = .bezRAsm rst rsa rsb →
      ∃ t : State, exec i s = .next t ∧ BranchFrame s t ∧
        t.pc.toNat = if (s.reg rsa).toNat = 0 then (s.reg rsb).toNat
          else (s.pc.toNat + 2) % 2 ^ s.cfg.xlen.bits) ∧
    (∀ i : Instr, i = .bnzR rst rsa rsb ∨ i = .bnzRAsm rst rsa rsb →
      ∃ t : State, exec i s = .next t ∧ BranchFrame s t ∧
        t.pc.toNat = if (s.reg rsa).toNat ≠ 0 then (s.reg rsb).toNat
          else (s.pc.toNat + 2) % 2 ^ s.cfg.xlen.bits)

/-- The PC-relative branches (44_branch.md): taken to A + 2 + sext_8(imm8) mod 2^XLEN, A the address of the branch,
else to A + 2; only pc changes; with their words. The base A + 2 is the spec's own decision (D3; log entry 11), as is
that a branch writes no register (D15; log entry 14). -/
def Obligations.RelativeBranches : Prop :=
  ∀ (rst : Reg) (imm8 : Imm8) (s : State),
    HasWord (.bezI rst imm8) (iWord 0xA800 rst imm8) ∧
    HasWord (.bnzI rst imm8) (iWord 0xB800 rst imm8) ∧
    (∃ t : State, exec (.bezI rst imm8) s = .next t ∧ BranchFrame s t ∧
      (t.pc.toNat : Int) = (if (s.reg rst).toNat = 0 then s.pc.toNat + 2 + imm8.toInt
        else s.pc.toNat + 2) % 2 ^ s.cfg.xlen.bits) ∧
    (∃ t : State, exec (.bnzI rst imm8) s = .next t ∧ BranchFrame s t ∧
      (t.pc.toNat : Int) = (if (s.reg rst).toNat ≠ 0 then s.pc.toNat + 2 + imm8.toInt
        else s.pc.toNat + 2) % 2 ^ s.cfg.xlen.bits)

/-! ### HCF -/

/-- R180: HCF sets halted and nothing else; pc stays, the instruction is not counted, the run has ended with outcome
Halted and the simulator prints its closing lines; the other words of Opcode 0000 with Op2 11 are illegal. What HCF
leaves is the spec's own decision (D13); the later fault runHalted is the model's (log entry 5), and the closing lines
are the model's deduction from R324 (log entry 15). -/
def Obligations.HaltEndsTheRun : Prop :=
  (∀ strict : Bool, decode strict 0x0003#16 = .ok .hcf) ∧
  (∀ (strict : Bool) (w : Code), w ≠ 0x0003#16 → w.toNat / 4096 = 0 → w.toNat / 2048 % 2 = 0 →
    w.toNat % 4 = 3 → ∀ i : Instr, decode strict w ≠ .ok i) ∧
  (∀ s : State, ∃ t : State, exec .hcf s = .next t ∧ t.halted = true ∧ SameRegisters s t ∧ SameMemory s t ∧
    SameIO s t ∧ t.pc = s.pc ∧ t.cycles = s.cycles ∧ t.cfg = s.cfg ∧ t.stackLimit = s.stackLimit ∧
    t.stackLimitHit = s.stackLimitHit ∧ t.fault = s.fault) ∧
  ∀ s : State, s.ending = none → fetch s = .ok 0x0003#16 →
    ∃ t : State, step s = .next t ∧ exec .hcf s = .next t ∧ outcome t = .halted ∧
      step t = .fault .runHalted ∧
      closingLines t = [[], asciiBytes "[ok]", decimalText s.cycles ++ asciiBytes " cycles"]

/-! ### The step -/

/-- A step runs the decoded instruction: step is exec of the instruction at pc, then retire, which after HCF does
nothing and after another instruction counts it and latches the stack check, and nothing else; exec never refuses
(R86). That the stack check is latched in a field is the model's (log entry 4). -/
def Obligations.StepRunsDecodedInstruction : Prop :=
  ∀ (s : State) (w : Code) (i : Instr), s.ending = none → fetch s = .ok w →
    decode s.cfg.strictFixedFields w = .ok i →
    (∀ t : State, exec i s = .next t → step s = .next (retire i t)) ∧
    (∀ f : Fault, exec i s = .fault f → step s = .fault f) ∧
    (∀ r : Refusal, exec i s ≠ .refused r) ∧
    ∀ t : State, (i = .hcf → retire i t = t) ∧
      (i ≠ .hcf → SameRegisters t (retire i t) ∧ SameMemory t (retire i t) ∧ SameIO t (retire i t) ∧
        (retire i t).pc = t.pc ∧ (retire i t).cfg = t.cfg ∧ (retire i t).halted = t.halted ∧
        (retire i t).fault = t.fault ∧ (retire i t).stackLimit = t.stackLimit ∧
        (retire i t).cycles = t.cycles + 1 ∧ (retire i t).stackLimitHit = stackCheckFires t)

/-- An instruction placed with withFetchWord is the one the next step runs, from any state with canonical memory;
only pc's two bytes, and a pc that no fetch accepts, are touched. withFetchWord is the host's way in (log entry 8);
well-formed parameters (log entry 1) give address 0 two bytes of RAM. -/
def Obligations.PlacedWordRuns : Prop :=
  ∀ (s : State) (i : Instr), s.cfg.WellFormed → s.mem.wf = true → i.wellFormed s.cfg.strictFixedFields = true →
    SameRegisters s (s.withFetchWord 16 (encode i).toNat) ∧
    SameIO s (s.withFetchWord 16 (encode i).toNat) ∧
    (s.withFetchWord 16 (encode i).toNat).cfg = s.cfg ∧
    SameMemoryOutside (s.withFetchWord 16 (encode i).toNat).pc.toNat 2 s
      (s.withFetchWord 16 (encode i).toNat) ∧
    (fetch s ≠ .error (.misalignedFetch s.pc) → fetch s ≠ .error (.accessFault s.pc) →
      (s.withFetchWord 16 (encode i).toNat).pc = s.pc) ∧
    (∀ t : State, exec i (s.withFetchWord 16 (encode i).toNat) = .next t →
      step (s.withFetchWord 16 (encode i).toNat) = .next (retire i t)) ∧
    ∀ f : Fault, exec i (s.withFetchWord 16 (encode i).toNat) = .fault f →
      step (s.withFetchWord 16 (encode i).toNat) = .fault f

/-- R283: when several causes apply to one step only the first is reported: MisalignedFetch, fetch AccessFault,
IllegalInstruction, MisalignedAccess, data AccessFault, InputExhausted. The order is the spec's own decision (D23).
Well-formed parameters: log entry 1. -/
def Obligations.FaultPriority : Prop :=
  ∀ s : State, s.cfg.WellFormed → s.ending = none →
    if s.pc.toNat % 2 = 1 then step s = .fault (.misalignedFetch s.pc)
    else if s.cfg.memSize < s.pc.toNat + 2 then step s = .fault (.accessFault s.pc)
    else ∃ w : Code, fetch s = .ok w ∧
      match decode s.cfg.strictFixedFields w with
      | .error _ => step s = .fault (.illegalInstruction w)
      | .ok i =>
        (∀ rst rsa rsb : Reg, i = .ldb rst rsa rsb ∨ i = .stb rst rsa rsb →
          (step s = .fault (.accessFault (s.reg rsb)) ↔ s.cfg.memSize ≤ (s.reg rsb).toNat)) ∧
        (∀ rst rsa rsb : Reg, i = .ldw rst rsa rsb →
          if (s.reg rsb).toNat % s.cfg.xlen.wordBytes ≠ 0 then step s = .fault (.misalignedAccess (s.reg rsb))
          else if s.cfg.memSize ≤ (s.reg rsb).toNat ∧ s.reg rsb ≠ s.cfg.inChar ∧
              s.reg rsb ≠ s.cfg.inInt then step s = .fault (.accessFault (s.reg rsb))
          else (step s = .fault .inputExhausted ↔
            s.cfg.memSize ≤ (s.reg rsb).toNat ∧ s.input = [])) ∧
        (∀ rst rsa rsb : Reg, i = .stw rst rsa rsb →
          if (s.reg rsb).toNat % s.cfg.xlen.wordBytes ≠ 0 then step s = .fault (.misalignedAccess (s.reg rsb))
          else (step s = .fault (.accessFault (s.reg rsb)) ↔
            s.cfg.memSize ≤ (s.reg rsb).toNat ∧ s.reg rsb ≠ s.cfg.outChar ∧
              s.reg rsb ≠ s.cfg.outInt)) ∧
        ((∀ rst rsa rsb : Reg, i ≠ .ldb rst rsa rsb ∧ i ≠ .stb rst rsa rsb ∧ i ≠ .ldw rst rsa rsb ∧
          i ≠ .stw rst rsa rsb) → ∃ t : State, step s = .next t)

/-- Totality (R281, R86): from a state whose run has not ended a step answers a next state or one of the five model
faults, never a refusal. The model faults are the spec's own decision (D4). -/
def Obligations.RunningStepsNextOrModelFault : Prop :=
  ∀ s : State, s.ending = none →
    (∃ t : State, step s = .next t) ∨
    (∃ a : Word, step s = .fault (.misalignedFetch a) ∨ step s = .fault (.accessFault a) ∨
      step s = .fault (.misalignedAccess a)) ∨
    (∃ w : Code, step s = .fault (.illegalInstruction w)) ∨ step s = .fault .inputExhausted

/-- A run that has ended stays as it is and has exactly one outcome: a recorded model fault, else Halted, else
StackLimit; a state shows `running` exactly when its run has not ended, and then a run of it is one step and the rest
(R14, R324). What a step answers on an ended run is the model's (log entries 4 and 5). -/
def Obligations.EndedRunsStay : Prop :=
  ∀ s : State,
    (∀ f : Fault, s.ending = some f → step s = .fault f ∧ ∀ n : Nat, run n s = s) ∧
    (outcome s = .running ↔ s.ending = none) ∧
    (∀ f : Fault, outcome s = .modelFault f ↔ s.fault = some f) ∧
    (s.fault = none → (outcome s = .halted ↔ s.halted = true) ∧
      (outcome s = .stackLimit ↔ (s.halted = false ∧ s.stackLimitHit = true))) ∧
    (s.ending = none → ∀ t : State, step s = .next t → ∀ n : Nat, run (n + 1) s = run n t)

/-- R281, R284: a model fault ends the run with the state exactly as it was before the faulting instruction; only
the fault is recorded. Model faults are the spec's own decision (D4); recording one in `run` is the model's (log
entry 5). -/
def Obligations.FaultKeepsTheState : Prop :=
  ∀ (s : State) (f : Fault) (n : Nat), s.ending = none → step s = .fault f →
    run (n + 1) s = { s with fault := some f } ∧ outcome (run (n + 1) s) = .modelFault f

/-! ### Invariants and whole-machine rules -/

/-- Every step keeps the invariant of Safety.lean, from every state that has it. The forms it speaks of are the
model's (log entries 1, 2, 3 and 4). -/
def Obligations.EveryStepKeepsTheInvariant : Prop :=
  ∀ s t : State, s.Inv → step s = .next t → t.Inv

/-- The state after reset has the invariant. The forms it speaks of are the model's (log entries 1, 2, 3, 4 and 9). -/
def Obligations.ResetMeetsTheInvariant : Prop := State.reset.Inv

/-- Every initial state of well-formed parameters, whatever the image and the input, has the invariant, and both columns
of R9 are well-formed. The forms it speaks of are the model's (log entries 1, 2, 3 and 4). -/
def Obligations.InitialStateMeetsTheInvariant : Prop :=
  Config.reference.WellFormed ∧ Config.wide.WellFormed ∧
  ∀ (cfg : Config) (image : List Code) (input : List Int) (s : State), cfg.WellFormed →
    State.initial cfg image input = some s → s.Inv

/-- R36, R321, R337: the initial state, for any well-formed parameters (log entry 1): refused exactly when the image
does not fit; else r0 to r6 = 0, r7 = SP_INIT, pc = 0, word i of the image at byte address 2i big-endian, zeros behind
it, and the environment's values; SP_INIT is 0xDFFE in the 16-bit and 0x000FFFFC in the 32-bit column. The spec's own
decisions (D11, D12, D19). -/
def Obligations.InitialStateAsSpecified : Prop :=
  Config.reference.spInit = 0xDFFE#32 ∧ Config.wide.spInit = 0x000FFFFC#32 ∧
  ∀ (cfg : Config) (image : List Code) (input : List Int), cfg.WellFormed →
    (State.initial cfg image input = none ↔ cfg.memSize - 2 < 2 * image.length) ∧
    ∀ s : State, State.initial cfg image input = some s →
      (∀ r : Reg, r ≠ .r7 → s.reg r = 0#32) ∧
      s.reg .r7 = cfg.spInit ∧ s.pc = 0#32 ∧
      (∀ (i : Nat) (w : Code), image[i]? = some w →
        readByte s.mem (2 * i) = w.extractLsb' 8 8 ∧ readByte s.mem (2 * i + 1) = w.extractLsb' 0 8) ∧
      (∀ a : Nat, 2 * image.length ≤ a → readByte s.mem a = 0#8) ∧
      s.halted = false ∧ s.fault = none ∧ s.stackLimitHit = false ∧
      s.stackLimit = 2 * image.length + 2 ∧ s.cycles = 0 ∧ s.output = [] ∧ s.input = input ∧ s.cfg = cfg

/-- Reset is the initial state of the reference values of R9 with an empty image and empty input; that the image is empty
is the model's choice (log entry 9). The values of MEM_SIZE, SP_INIT, the devices and the switches are those of R9's
16-bit column. -/
def Obligations.ResetIsTheEmptyInitialState : Prop :=
  State.initial Config.reference [] [] = some State.reset ∧
  State.reset.cfg.xlen.bits = 16 ∧ State.reset.cfg.xlen.wordBytes = 2 ∧ State.reset.cfg.memSize = 57344 ∧
  State.reset.reg .r7 = 0xDFFE#32 ∧ State.reset.cfg.outChar = 0xF000#32 ∧ State.reset.cfg.outInt = 0xF002#32 ∧
  State.reset.cfg.inChar = 0xF004#32 ∧ State.reset.cfg.inInt = 0xF006#32 ∧
  State.reset.cfg.strictFixedFields = true ∧ State.reset.cfg.stackCheck = true

/-- R300: the stack check after every counted instruction: it fires exactly when the switch is on and r7, as the
instruction left it, is below the limit; the instruction has been counted; never after HCF; the simulator's line.
The check is the spec's own decision (D14), its latch the model's (log entry 4), and the closing lines are the model's
deduction from R300 and R324 (log entry 15). -/
def Obligations.StackCheckAfterEveryStep : Prop :=
  ∀ s t : State, s.ending = none → step s = .next t →
    (t.halted = true → t.stackLimitHit = false ∧ t.cycles = s.cycles) ∧
    (t.halted = false → t.cycles = s.cycles + 1 ∧
      (t.stackLimitHit = true ↔ s.cfg.stackCheck = true ∧ (t.reg .r7).toNat < s.stackLimit)) ∧
    (t.stackLimitHit = true → outcome t = .stackLimit ∧ step t = .fault .runStackLimit ∧
      (closingLines t).head? = some (asciiBytes "stack overflow detected!")) ∧
    (t.stackLimitHit = false → (closingLines t).head? = some [])

/-- R34, R9: the parameters, the stack limit and the recorded fault are changed by no step. That the parameters
stand in State is the model's (log entry 1). -/
def Obligations.ParametersNeverChange : Prop :=
  ∀ s t : State, step s = .next t →
    t.cfg = s.cfg ∧ t.stackLimit = s.stackLimit ∧ t.fault = s.fault ∧ s.cycles ≤ t.cycles ∧
    t.cycles ≤ s.cycles + 1

/-- The flow of control (10_state.md, R27): every instruction other than a taken branch and HCF ends with pc + 2; a taken
register branch ends at r[rsb], a taken relative branch at pc + 2 + sext_8(imm8); HCF leaves pc unchanged. The base
pc + 2 of a relative branch is the spec's own decision (D3; log entry 11), as are pc arithmetic mod 2^XLEN (D2) and
what HCF leaves (D13; log entry 21). -/
def Obligations.FlowOfControl : Prop :=
  ∀ (i : Instr) (s t : State), exec i s = .next t →
    (i = .hcf → t.pc = s.pc) ∧
    (i ≠ .hcf → isBranch i = false → PcAdvanced s t) ∧
    (∀ rst rsa rsb : Reg, i = .bezR rst rsa rsb ∨ i = .bezRAsm rst rsa rsb →
      if s.reg rsa = 0#32 then t.pc = s.reg rsb else PcAdvanced s t) ∧
    (∀ rst rsa rsb : Reg, i = .bnzR rst rsa rsb ∨ i = .bnzRAsm rst rsa rsb →
      if s.reg rsa ≠ 0#32 then t.pc = s.reg rsb else PcAdvanced s t) ∧
    (∀ (rst : Reg) (imm8 : Imm8), i = .bezI rst imm8 →
      if s.reg rst = 0#32 then
        (t.pc.toNat : Int) = (s.pc.toNat + 2 + imm8.toInt) % 2 ^ s.cfg.xlen.bits
      else PcAdvanced s t) ∧
    ∀ (rst : Reg) (imm8 : Imm8), i = .bnzI rst imm8 →
      if s.reg rst ≠ 0#32 then
        (t.pc.toNat : Int) = (s.pc.toNat + 2 + imm8.toInt) % 2 ^ s.cfg.xlen.bits
      else PcAdvanced s t

/-- R24: stores and branches do not change any general register. The spec's own decision (D15). -/
def Obligations.StoresAndBranchesWriteNoRegister : Prop :=
  ∀ (i : Instr) (s t : State), isStore i = true ∨ isBranch i = true → exec i s = .next t →
    SameRegisters s t

/-- R331: an instruction writes at most one register. -/
def Obligations.AtMostOneRegisterWritten : Prop :=
  ∀ (i : Instr) (s t : State), exec i s = .next t → ∃ d : Reg, OnlyRegister d s t

/-- R40, R52: memory is changed only by STB and STW, and only in the bytes they store to, which lie in RAM. -/
def Obligations.OnlyStoresChangeMemory : Prop :=
  ∀ (i : Instr) (s t : State) (k : Nat), s.mem.wf = true → exec i s = .next t →
    readByte t.mem k ≠ readByte s.mem k →
    k < s.cfg.memSize ∧ ∃ rst rsa rsb : Reg,
      (i = .stb rst rsa rsb ∧ k = (s.reg rsb).toNat) ∨
      (i = .stw rst rsa rsb ∧ (s.reg rsb).toNat ≤ k ∧ k < (s.reg rsb).toNat + s.cfg.xlen.wordBytes)

/-- R34, R336: no instruction can read the cycle count or the output: two runs that differ in them alone step alike.
The spec's own decision (D24). -/
def Obligations.CountsAndOutputAreNotRead : Prop :=
  ∀ (s s' : State), s' = { s with cycles := s'.cycles, output := s'.output } →
    (∀ t : State, step s = .next t → ∃ t' : State, step s' = .next t' ∧
      t' = { t with cycles := t'.cycles, output := t'.output }) ∧
    ∀ f : Fault, step s = .fault f → step s' = .fault f

/-- R85, R180: only the word 0x0003 halts the machine. The spec's own decision (D13). -/
def Obligations.OnlyTheHaltWordHalts : Prop :=
  ∀ s t : State, step s = .next t → t.halted = true → fetch s = .ok 0x0003#16

/-! ### Pseudo-operations (consecutive instructions, R237) -/

/-- R191, R84, R192, R193: NOP changes nothing but pc; NOT complements; both forms of NEG give the two's complement,
and only the older one writes at. Which form of NEG is current is the spec's own choice (C6). -/
def Obligations.ComplementSequences : Prop :=
  ∀ (s : State) (a : Reg),
    (∃ t : State, execAll (expand .nop) s = .next t ∧ (∀ r : Reg, t.reg r = s.reg r) ∧ SameMemory s t ∧
      SameIO s t ∧ PcAdvanced s t) ∧
    (∃ t : State, execAll (expand (.not a)) s = .next t ∧ OnlyRegister a s t ∧
      (t.reg a).toNat = 2 ^ s.cfg.xlen.bits - 1 - (s.reg a).toNat) ∧
    (∃ t : State, execAll (expand (.neg a)) s = .next t ∧ OnlyRegister a s t ∧
      ((t.reg a).toNat : Int) = -((s.reg a).toNat : Int) % 2 ^ s.cfg.xlen.bits) ∧
    (a ≠ .r0 → ∃ t : State, execAll (negThroughAt a) s = .next t ∧ t.reg .r0 = 0#32 ∧
      ((t.reg a).toNat : Int) = -((s.reg a).toNat : Int) % 2 ^ s.cfg.xlen.bits)

/-- R213 to R216, R223 to R226: the comparisons written by hand put the truth of the comparison into the first register:
SEQ, SGT and SGTU into any register, the five that use at into any but at. -/
def Obligations.SetSequences : Prop :=
  ∀ (s : State) (a b c : Reg),
    (∃ t : State, execAll (expand (.seq a b c)) s = .next t ∧ OnlyRegister a s t ∧
      (t.reg a).toNat = boolValue (decide (s.reg b = s.reg c))) ∧
    (a ≠ .r0 → ∃ t : State, execAll (expand (.sne a b c)) s = .next t ∧ t.reg .r0 = 0#32 ∧
      (t.reg a).toNat = boolValue (decide (s.reg b ≠ s.reg c))) ∧
    (a ≠ .r0 → ∃ t : State, execAll (expand (.sge a b c)) s = .next t ∧ t.reg .r0 = 1#32 ∧
      (t.reg a).toNat =
        boolValue (decide (signedValue s.cfg.xlen (s.reg b) ≥ signedValue s.cfg.xlen (s.reg c)))) ∧
    (a ≠ .r0 → ∃ t : State, execAll (expand (.sgeu a b c)) s = .next t ∧ t.reg .r0 = 1#32 ∧
      (t.reg a).toNat = boolValue (decide ((s.reg b).toNat ≥ (s.reg c).toNat))) ∧
    (∃ t : State, execAll (expand (.sgt a b c)) s = .next t ∧ OnlyRegister a s t ∧
      (t.reg a).toNat =
        boolValue (decide (signedValue s.cfg.xlen (s.reg b) > signedValue s.cfg.xlen (s.reg c)))) ∧
    (a ≠ .r0 → ∃ t : State, execAll (expand (.sle a b c)) s = .next t ∧ t.reg .r0 = 1#32 ∧
      (t.reg a).toNat =
        boolValue (decide (signedValue s.cfg.xlen (s.reg b) ≤ signedValue s.cfg.xlen (s.reg c)))) ∧
    (∃ t : State, execAll (expand (.sgtu a b c)) s = .next t ∧ OnlyRegister a s t ∧
      (t.reg a).toNat = boolValue (decide ((s.reg b).toNat > (s.reg c).toNat))) ∧
    (a ≠ .r0 → ∃ t : State, execAll (expand (.sleu a b c)) s = .next t ∧ t.reg .r0 = 1#32 ∧
      (t.reg a).toNat = boolValue (decide ((s.reg b).toNat ≤ (s.reg c).toNat)))

/-- R217 to R222 and R227 to R230, 16-bit: the compare-and-branch sequences reach the label exactly when the comparison
holds, else the next instruction; the registers compared must not be at. -/
def Obligations.CompareAndBranchSequences : Prop :=
  ∀ (s : State) (a b : Reg) (addr : Code), s.cfg.xlen = .x16 → a ≠ .r0 → b ≠ .r0 →
    ∀ (p : Pseudo) (holds : Bool),
      (p = .beq a b addr ∧ holds = decide (s.reg a = s.reg b)) ∨
      (p = .bne a b addr ∧ holds = decide (s.reg a ≠ s.reg b)) ∨
      (p = .blt a b addr ∧ holds = decide (signedValue .x16 (s.reg a) < signedValue .x16 (s.reg b))) ∨
      (p = .bge a b addr ∧ holds = decide (signedValue .x16 (s.reg a) ≥ signedValue .x16 (s.reg b))) ∨
      (p = .bltu a b addr ∧ holds = decide ((s.reg a).toNat < (s.reg b).toNat)) ∨
      (p = .bgeu a b addr ∧ holds = decide ((s.reg a).toNat ≥ (s.reg b).toNat)) ∨
      (p = .bgt a b addr ∧ holds = decide (signedValue .x16 (s.reg a) > signedValue .x16 (s.reg b))) ∨
      (p = .ble a b addr ∧ holds = decide (signedValue .x16 (s.reg a) ≤ signedValue .x16 (s.reg b))) ∨
      (p = .bgtu a b addr ∧ holds = decide ((s.reg a).toNat > (s.reg b).toNat)) ∨
      (p = .bleu a b addr ∧ holds = decide ((s.reg a).toNat ≤ (s.reg b).toNat)) →
      ∃ t : State, execAll (expand p) s = .next t ∧ (t.reg .r0).toNat = addr.toNat ∧ SameMemory s t ∧
        SameIO s t ∧ t.pc.toNat = if holds then addr.toNat else (s.pc.toNat + 8) % 65536

/-- R231 to R235, R170, 16-bit: JMP, JAL, JMPR, JALR and RET reach their targets as long as sp is not 0, and JAL and JALR
leave the return address in lr. -/
def Obligations.JumpSequences : Prop :=
  ∀ (s : State) (a : Reg) (addr raddr : Code), s.cfg.xlen = .x16 → s.reg .r7 ≠ 0#32 →
    (∃ t : State, execAll (expand (.jmp addr)) s = .next t ∧ t.pc.toNat = addr.toNat ∧
      OnlyRegister .r0 s t) ∧
    (∃ t : State, execAll (expand (.jal addr raddr)) s = .next t ∧ t.pc.toNat = addr.toNat ∧
      (t.reg .r6).toNat = raddr.toNat) ∧
    (∃ t : State, execAll (expand (.jmpr a)) s = .next t ∧ t.pc = s.reg a ∧ SameRegisters s t) ∧
    (a ≠ .r6 → ∃ t : State, execAll (expand (.jalr a raddr)) s = .next t ∧ t.pc = s.reg a ∧
      (t.reg .r6).toNat = raddr.toNat ∧ OnlyRegister .r6 s t) ∧
    ∃ t : State, execAll (expand .ret) s = .next t ∧ t.pc = s.reg .r6 ∧ SameRegisters s t

/-- R261: PUSH stores the register one word below sp and moves sp there; POP after it gives the value back and restores
sp; both ways of writing PUSH do the same. Well-formed parameters: log entry 1. -/
def Obligations.PushThenPop : Prop :=
  ∀ (s : State) (a b : Reg), s.cfg.WellFormed → s.mem.wf = true → a ≠ .r7 → b ≠ .r7 →
    (s.reg .r7).toNat % s.cfg.xlen.wordBytes = 0 → s.cfg.xlen.wordBytes ≤ (s.reg .r7).toNat →
    (s.reg .r7).toNat ≤ s.cfg.memSize →
    ∃ t u : State, execAll (push s.cfg.xlen a) s = .next t ∧
      execAll (pushByAdd s.cfg.xlen a) s = .next t ∧
      (t.reg .r7).toNat = (s.reg .r7).toNat - s.cfg.xlen.wordBytes ∧
      memRead t .word (t.reg .r7) = .ok (s.reg a, t) ∧
      execAll (pop s.cfg.xlen b) t = .next u ∧ u.reg b = s.reg a ∧ u.reg .r7 = s.reg .r7 ∧
      ∀ r : Reg, r ≠ b → u.reg r = s.reg r

/-! ### Assembler and object code -/

/-- R88, R244: from every base value of R88 the assembler builds the encoder's word: fifteen mnemonics with three operands
(R format), twelve with two (I format), LDC0 with the high byte of its value, and HCF. The low 8 bits of a value are
its immediate (R250). The words of BEZ and BNZ with three operands are those of the constructors for Op2 = 00 (the
model's choice, log entry 13). -/
def Obligations.AssemblerBuildsTheEncodersWords : Prop :=
  ∀ (rst rsa rsb : Reg) (table : List (Text × Int)) (a b c d z : Text) (v : Int),
    operandValue table a = some (regIndex rst : Int) → operandValue table b = some (regIndex rsa : Int) →
    operandValue table c = some (regIndex rsb : Int) → operandValue table d = some v →
    operandValue table z = some 0 →
      operationWord table "and" [a, b, c] = some (encode (.andR rst rsa rsb)) ∧
      operationWord table "or" [a, b, c] = some (encode (.orR rst rsa rsb)) ∧
      operationWord table "xor" [a, b, c] = some (encode (.xorR rst rsa rsb)) ∧
      operationWord table "slt" [a, b, c] = some (encode (.sltR rst rsa rsb)) ∧
      operationWord table "sltu" [a, b, c] = some (encode (.sltuR rst rsa rsb)) ∧
      operationWord table "add" [a, b, c] = some (encode (.addR rst rsa rsb)) ∧
      operationWord table "sub" [a, b, c] = some (encode (.subR rst rsa rsb)) ∧
      operationWord table "lsr" [a, b, c] = some (encode (.lsr rst rsa rsb)) ∧
      operationWord table "asr" [a, b, c] = some (encode (.asr rst rsa rsb)) ∧
      operationWord table "ldb" [a, b, c] = some (encode (.ldb rst rsa rsb)) ∧
      operationWord table "stb" [a, b, c] = some (encode (.stb rst rsa rsb)) ∧
      operationWord table "ldw" [a, b, c] = some (encode (.ldw rst rsa rsb)) ∧
      operationWord table "stw" [a, b, c] = some (encode (.stw rst rsa rsb)) ∧
      operationWord table "bez" [a, b, c] = some (encode (.bezRAsm rst rsa rsb)) ∧
      operationWord table "bnz" [a, b, c] = some (encode (.bnzRAsm rst rsa rsb)) ∧
      operationWord table "and" [a, d] = some (encode (.andI rst (BitVec.ofInt 8 v))) ∧
      operationWord table "or" [a, d] = some (encode (.orI rst (BitVec.ofInt 8 v))) ∧
      operationWord table "xor" [a, d] = some (encode (.xorI rst (BitVec.ofInt 8 v))) ∧
      operationWord table "slt" [a, d] = some (encode (.sltI rst (BitVec.ofInt 8 v))) ∧
      operationWord table "sltu" [a, d] = some (encode (.sltuI rst (BitVec.ofInt 8 v))) ∧
      operationWord table "add" [a, d] = some (encode (.addI rst (BitVec.ofInt 8 v))) ∧
      operationWord table "sub" [a, d] = some (encode (.subI rst (BitVec.ofInt 8 v))) ∧
      operationWord table "ldr" [a, d] = some (encode (.ldr rst (BitVec.ofInt 8 v))) ∧
      operationWord table "ldc" [a, d] = some (encode (.ldc rst (BitVec.ofInt 8 v))) ∧
      operationWord table "ldc1" [a, d] = some (encode (.ldc rst (BitVec.ofInt 8 v))) ∧
      operationWord table "bez" [a, d] = some (encode (.bezI rst (BitVec.ofInt 8 v))) ∧
      operationWord table "bnz" [a, d] = some (encode (.bnzI rst (BitVec.ofInt 8 v))) ∧
      operationWord table "ldc0" [a, d] = some (encode (.ldc rst (BitVec.ofInt 8 (v / 256)))) ∧
      operationWord table "hcf" [z, z, z] = some (encode .hcf)

/-- R253, R321: a file of object-code lines loads back as the words it was written from, whatever the addresses; one past
0xFFFF is written mod 65536, which is the model's choice (DESIGN CHOICE, log entry 17). -/
def Obligations.ObjectTextRoundTrip : Prop :=
  ∀ lines : List (Nat × Code),
    parseObject ((lines.map fun p => renderLine (.word p.1 p.2)).flatten) =
      some (lines.map fun p => p.2)
end

