-- ==== Sys2Proof/Laws/AddressMap.lean ====
section
/-! SUPPORT. Laws/AddressMap.lean: what well-formed parameters give an access: devices above RAM, aligned and distinct,
and RAM that holds whole words. -/

namespace Sys2Proof.Machine

/-- The devices lie above RAM. -/
theorem memSize_le_devices {c : Config} (h : c.WellFormed) :
    c.memSize ≤ c.outChar.toNat ∧ c.memSize ≤ c.outInt.toNat ∧ c.memSize ≤ c.inChar.toNat ∧
      c.memSize ≤ c.inInt.toNat := by
  simpa [Config.devices] using h.deviceOutsideRam

/-- The device registers are aligned, so an access to one is never misaligned. -/
theorem device_aligned {c : Config} (h : c.WellFormed) :
    misaligned c.xlen .word c.outChar = false ∧ misaligned c.xlen .word c.outInt = false ∧
      misaligned c.xlen .word c.inChar = false ∧ misaligned c.xlen .word c.inInt = false := by
  simpa [Config.devices, misaligned] using h.deviceAligned

/-- The four device addresses differ. -/
theorem devices_distinct {c : Config} (h : c.WellFormed) :
    c.outChar ≠ c.outInt ∧ c.outChar ≠ c.inChar ∧ c.outChar ≠ c.inInt ∧ c.outInt ≠ c.inChar ∧
      c.outInt ≠ c.inInt ∧ c.inChar ≠ c.inInt := by
  have := h.devicesDistinct
  simp [Config.devices] at this
  tauto

/-- RAM ends at or below 2^32. -/
theorem memSize_le {c : Config} (h : c.WellFormed) : c.memSize ≤ 2 ^ 32 := by
  have := h.ramFits
  cases hx : c.xlen <;> simp only [hx, XLen.bits] at this <;> omega

/-- RAM has an even number of bytes, and at least the word at SP_INIT. -/
theorem memSize_even {c : Config} (h : c.WellFormed) : c.memSize % 2 = 0 ∧ 2 ≤ c.memSize := by
  have h1 := h.ramOfWords
  have h2 := h.spInRam
  cases hx : c.xlen <;> simp only [hx, XLen.wordBytes] at h1 h2 <;> omega

/-- An aligned address below MEM_SIZE has its whole word in RAM. -/
theorem aligned_fits {c : Config} (h : c.WellFormed) (n : Nat) (h1 : n % c.xlen.wordBytes = 0)
    (h2 : n < c.memSize) : n + c.xlen.wordBytes ≤ c.memSize := by
  have := h.ramOfWords
  cases hx : c.xlen <;> simp only [hx, XLen.wordBytes] at * <;> omega

end Sys2Proof.Machine
end

