-- ==== Sys2Proof/Laws/Encoding.lean ====
section
/-! SUPPORT. Laws/Encoding.lean: a word's fields as numbers, the fields of an encoded word, and a word rebuilt from its
fields. -/

namespace Sys2Proof

/-! ### Register fields (R74) -/

@[simp] theorem regOfField_fieldOfReg (r : Reg) : regOfField (fieldOfReg r) = r := by cases r <;> rfl

@[simp] theorem fieldOfReg_regOfField (f : BitVec 3) : fieldOfReg (regOfField f) = f := by
  revert f; decide

theorem regOfField_zero_iff (f : BitVec 3) : regOfField f = .r0 ↔ f = 0#3 := by
  revert f; decide

/-! ### Words and fields as numbers -/

theorem toNat_append_add {n m : Nat} (x : BitVec n) (y : BitVec m) :
    (x ++ y).toNat = x.toNat * 2 ^ m + y.toNat := by
  rw [BitVec.toNat_append, ← Nat.shiftLeft_add_eq_or_of_lt y.isLt, Nat.shiftLeft_eq]

theorem encodeR_toNat (opc : BitVec 4) (op2 : BitVec 2) (d a b : Reg) :
    (encodeR opc op2 d a b).toNat =
      opc.toNat * 4096 + (fieldOfReg d).toNat * 256 + (fieldOfReg a).toNat * 32 +
        (fieldOfReg b).toNat * 4 + op2.toNat := by
  show BitVec.toNat (opc ++ 0#1 ++ fieldOfReg d ++ fieldOfReg a ++ fieldOfReg b ++ op2) = _
  simp only [toNat_append_add, BitVec.toNat_ofNat]
  omega

theorem encodeI_toNat (opc : BitVec 4) (d : Reg) (v : Imm8) :
    (encodeI opc d v).toNat = opc.toNat * 4096 + 2048 + (fieldOfReg d).toNat * 256 + v.toNat := by
  show BitVec.toNat (opc ++ 1#1 ++ fieldOfReg d ++ v) = _
  simp only [toNat_append_add, BitVec.toNat_ofNat]
  omega

theorem codeOfBytes_toNat (hi lo : Byte) : (codeOfBytes hi lo).toNat = hi.toNat * 256 + lo.toNat := by
  show BitVec.toNat (hi ++ lo) = _
  simp only [toNat_append_add]
  omega

/-- The bytes of a word are the word (R42). -/
@[simp] theorem codeOfBytes_bytes (w : Code) :
    codeOfBytes (w.extractLsb' 8 8) (w.extractLsb' 0 8) = w := by
  have := w.isLt
  apply BitVec.eq_of_toNat_eq
  simp only [codeOfBytes_toNat, BitVec.extractLsb'_toNat, Nat.shiftRight_eq_div_pow]
  omega

theorem fieldOpcode_toNat (w : Code) : (fieldOpcode w).toNat = w.toNat / 4096 := by
  have := w.isLt
  simp only [fieldOpcode, BitVec.extractLsb'_toNat, Nat.shiftRight_eq_div_pow]
  omega

theorem fieldImm_toNat (w : Code) : (fieldImm w).toNat = w.toNat / 2048 % 2 := by
  simp only [fieldImm, BitVec.extractLsb'_toNat, Nat.shiftRight_eq_div_pow]

theorem fieldRst_toNat (w : Code) : (fieldRst w).toNat = w.toNat / 256 % 8 := by
  simp only [fieldRst, BitVec.extractLsb'_toNat, Nat.shiftRight_eq_div_pow]

theorem fieldRsA_toNat (w : Code) : (fieldRsA w).toNat = w.toNat / 32 % 8 := by
  simp only [fieldRsA, BitVec.extractLsb'_toNat, Nat.shiftRight_eq_div_pow]

theorem fieldRsB_toNat (w : Code) : (fieldRsB w).toNat = w.toNat / 4 % 8 := by
  simp only [fieldRsB, BitVec.extractLsb'_toNat, Nat.shiftRight_eq_div_pow]

theorem fieldOp2_toNat (w : Code) : (fieldOp2 w).toNat = w.toNat % 4 := by
  simp only [fieldOp2, BitVec.extractLsb'_toNat, Nat.shiftRight_eq_div_pow]
  simp

theorem fieldImm8_toNat (w : Code) : (fieldImm8 w).toNat = w.toNat % 256 := by
  simp only [fieldImm8, BitVec.extractLsb'_toNat, Nat.shiftRight_eq_div_pow]
  simp

/-! ### The fields of an encoded word (R71, R72) -/

section fields
variable (opc : BitVec 4) (op2 : BitVec 2) (d a b : Reg) (v : Imm8)

@[simp] theorem fieldOpcode_encodeR : fieldOpcode (encodeR opc op2 d a b) = opc := by
  have h1 := op2.isLt
  have h2 := (fieldOfReg d).isLt
  have h3 := (fieldOfReg a).isLt
  have h4 := (fieldOfReg b).isLt
  apply BitVec.eq_of_toNat_eq
  rw [fieldOpcode_toNat, encodeR_toNat]
  omega

@[simp] theorem fieldImm_encodeR : fieldImm (encodeR opc op2 d a b) = 0#1 := by
  have h1 := op2.isLt
  have h2 := (fieldOfReg d).isLt
  have h3 := (fieldOfReg a).isLt
  have h4 := (fieldOfReg b).isLt
  apply BitVec.eq_of_toNat_eq
  rw [fieldImm_toNat, encodeR_toNat, BitVec.toNat_ofNat]
  omega

@[simp] theorem fieldRst_encodeR : fieldRst (encodeR opc op2 d a b) = fieldOfReg d := by
  have h1 := op2.isLt
  have h2 := (fieldOfReg d).isLt
  have h3 := (fieldOfReg a).isLt
  have h4 := (fieldOfReg b).isLt
  apply BitVec.eq_of_toNat_eq
  rw [fieldRst_toNat, encodeR_toNat]
  omega

@[simp] theorem fieldRsA_encodeR : fieldRsA (encodeR opc op2 d a b) = fieldOfReg a := by
  have h1 := op2.isLt
  have h2 := (fieldOfReg d).isLt
  have h3 := (fieldOfReg a).isLt
  have h4 := (fieldOfReg b).isLt
  apply BitVec.eq_of_toNat_eq
  rw [fieldRsA_toNat, encodeR_toNat]
  omega

@[simp] theorem fieldRsB_encodeR : fieldRsB (encodeR opc op2 d a b) = fieldOfReg b := by
  have h1 := op2.isLt
  have h2 := (fieldOfReg d).isLt
  have h3 := (fieldOfReg a).isLt
  have h4 := (fieldOfReg b).isLt
  apply BitVec.eq_of_toNat_eq
  rw [fieldRsB_toNat, encodeR_toNat]
  omega

@[simp] theorem fieldOp2_encodeR : fieldOp2 (encodeR opc op2 d a b) = op2 := by
  have h1 := op2.isLt
  have h2 := (fieldOfReg d).isLt
  have h3 := (fieldOfReg a).isLt
  have h4 := (fieldOfReg b).isLt
  apply BitVec.eq_of_toNat_eq
  rw [fieldOp2_toNat, encodeR_toNat]
  omega

@[simp] theorem fieldOpcode_encodeI : fieldOpcode (encodeI opc d v) = opc := by
  have h1 := v.isLt
  have h2 := (fieldOfReg d).isLt
  apply BitVec.eq_of_toNat_eq
  rw [fieldOpcode_toNat, encodeI_toNat]
  omega

@[simp] theorem fieldImm_encodeI : fieldImm (encodeI opc d v) = 1#1 := by
  have h1 := v.isLt
  have h2 := (fieldOfReg d).isLt
  apply BitVec.eq_of_toNat_eq
  rw [fieldImm_toNat, encodeI_toNat, BitVec.toNat_ofNat]
  omega

@[simp] theorem fieldRst_encodeI : fieldRst (encodeI opc d v) = fieldOfReg d := by
  have h1 := v.isLt
  have h2 := (fieldOfReg d).isLt
  apply BitVec.eq_of_toNat_eq
  rw [fieldRst_toNat, encodeI_toNat]
  omega

@[simp] theorem fieldImm8_encodeI : fieldImm8 (encodeI opc d v) = v := by
  have h1 := v.isLt
  have h2 := (fieldOfReg d).isLt
  apply BitVec.eq_of_toNat_eq
  rw [fieldImm8_toNat, encodeI_toNat]
  omega

end fields

/-- An R-format word is the encoding of its fields. -/
theorem encodeR_fields (w : Code) (h : fieldImm w = 0#1) :
    encodeR (fieldOpcode w) (fieldOp2 w) (regOfField (fieldRst w)) (regOfField (fieldRsA w))
      (regOfField (fieldRsB w)) = w := by
  have h := congrArg BitVec.toNat h
  rw [fieldImm_toNat, BitVec.toNat_ofNat] at h
  apply BitVec.eq_of_toNat_eq
  simp only [encodeR_toNat, fieldOfReg_regOfField, fieldOpcode_toNat, fieldOp2_toNat, fieldRst_toNat,
    fieldRsA_toNat, fieldRsB_toNat]
  omega

/-- An I-format word is the encoding of its fields. -/
theorem encodeI_fields (w : Code) (h : fieldImm w = 1#1) :
    encodeI (fieldOpcode w) (regOfField (fieldRst w)) (fieldImm8 w) = w := by
  have h := congrArg BitVec.toNat h
  rw [fieldImm_toNat, BitVec.toNat_ofNat] at h
  apply BitVec.eq_of_toNat_eq
  simp only [encodeI_toNat, fieldOfReg_regOfField, fieldOpcode_toNat, fieldRst_toNat, fieldImm8_toNat]
  omega

/-! ### Decoding an encoded word -/

theorem encodeR_ne_hcf (opc : BitVec 4) (op2 : BitVec 2) (d a b : Reg) (h : opc ≠ 0#4 ∨ op2 ≠ 3#2) :
    encodeR opc op2 d a b ≠ hcfWord := by
  intro he
  rcases h with h | h
  · apply h
    have := congrArg fieldOpcode he
    rw [fieldOpcode_encodeR] at this
    rw [this]
    rfl
  · apply h
    have := congrArg fieldOp2 he
    rw [fieldOp2_encodeR] at this
    rw [this]
    rfl

theorem encodeI_ne_hcf (opc : BitVec 4) (d : Reg) (v : Imm8) : encodeI opc d v ≠ hcfWord := by
  intro he
  have := congrArg fieldImm he
  rw [fieldImm_encodeI] at this
  revert this
  decide

theorem decodeFields_encodeR (opc : BitVec 4) (op2 : BitVec 2) (d a b : Reg)
    (h : opc ≠ 0#4 ∨ op2 ≠ 3#2) :
    decodeFields (encodeR opc op2 d a b) = (rFormatRow op2 opc).map fun mk => mk d a b := by
  unfold decodeFields
  rw [if_neg (encodeR_ne_hcf _ _ _ _ _ h)]
  simp

theorem decodeFields_encodeI (opc : BitVec 4) (d : Reg) (v : Imm8) :
    decodeFields (encodeI opc d v) = (iFormatRow opc).map fun mk => mk d v := by
  unfold decodeFields
  rw [if_neg (encodeI_ne_hcf _ _ _)]
  simp

end Sys2Proof
end

