-- ==== Sys2Proof/Laws/Memory.lean ====
section
/-! SUPPORT. Laws/Memory.lean: every memory operation keeps the canonical form, and what a byte reads as after a
write. -/

namespace Sys2Proof.Machine

/-! ### The canonical form -/

theorem Memory.wf_of_cellsAbove {lo : Nat} {m : Memory} (h : cellsAbove lo m = true) : m.wf = true := by
  cases m with
  | nil => rfl
  | cons c m =>
    simp only [cellsAbove, Bool.and_eq_true] at h
    simp [Memory.wf, h.1.2, h.2]

theorem cellsAbove_weaken {lo lo' : Nat} {m : Memory} (h : cellsAbove lo' m = true) (hl : lo ≤ lo') :
    cellsAbove lo m = true := by
  cases m with
  | nil => rfl
  | cons c m =>
    simp only [cellsAbove, Bool.and_eq_true, decide_eq_true_eq] at h ⊢
    exact ⟨⟨by omega, h.1.2⟩, h.2⟩

theorem cellsAbove_consCell {lo a : Nat} {b : Byte} {m : Memory} (hl : lo < a)
    (h : cellsAbove a m = true) : cellsAbove lo (consCell a b m) = true := by
  unfold consCell
  split
  · exact cellsAbove_weaken h (by omega)
  · next hb => simp [cellsAbove, hl, hb, h]

theorem cellsAbove_writeByte {lo a : Nat} {b : Byte} {m : Memory} (hl : lo < a)
    (h : cellsAbove lo m = true) : cellsAbove lo (writeByte m a b) = true := by
  induction m generalizing lo with
  | nil => exact cellsAbove_consCell hl rfl
  | cons c m ih =>
    simp only [cellsAbove, Bool.and_eq_true, decide_eq_true_eq] at h
    simp only [writeByte]
    split
    · next hk => exact cellsAbove_consCell hl (by simp [cellsAbove, hk, h.1.2, h.2])
    · split
      · next hk => exact cellsAbove_consCell hl (hk ▸ h.2)
      · next hk hk' =>
        simp only [cellsAbove, Bool.and_eq_true, decide_eq_true_eq]
        exact ⟨h.1, ih (by omega) h.2⟩

/-- The canonical form, with the bound of `cellsAbove` made explicit at a head. -/
theorem Memory.wf_cons {k : Nat} {c : Byte} {m : Memory} :
    Memory.wf ((k, c) :: m) = true ↔ c ≠ unlistedByte ∧ cellsAbove k m = true := by
  simp [Memory.wf]

/-- Writing a byte keeps the canonical form. -/
theorem writeByte_wf {m : Memory} (h : m.wf = true) (a : Nat) (b : Byte) : (writeByte m a b).wf = true := by
  cases m with
  | nil => simp only [writeByte, consCell]; split <;> simp_all [Memory.wf, cellsAbove]
  | cons c m =>
    obtain ⟨k, c⟩ := c
    rw [Memory.wf_cons] at h
    simp only [writeByte]
    split
    · next hk =>
      unfold consCell
      split
      · exact Memory.wf_cons.2 h
      · next hb => exact Memory.wf_cons.2 ⟨hb, by simp [cellsAbove, hk, h.1, h.2]⟩
    · split
      · next hk =>
        unfold consCell
        split
        · exact Memory.wf_of_cellsAbove h.2
        · next hb => exact Memory.wf_cons.2 ⟨hb, hk ▸ h.2⟩
      · next hk hk' => exact Memory.wf_cons.2 ⟨h.1, cellsAbove_writeByte (by omega) h.2⟩

/-- Writing a big-endian value keeps the canonical form. -/
theorem writeBytes_wf {m : Memory} (h : m.wf = true) (a n : Nat) (v : Word) :
    (writeBytes m a n v).wf = true := by
  induction n generalizing m v with
  | zero => exact h
  | succ n ih => exact ih (writeByte_wf h _ _) _

/-- Placing bytes keeps the canonical form. -/
theorem placeBytes_wf {m : Memory} (h : m.wf = true) (a : Nat) (bs : List Byte) :
    (placeBytes m a bs).wf = true := by
  induction bs generalizing m a with
  | nil => exact h
  | cons b bs ih => exact ih (writeByte_wf h _ _) _

/-- Placing instruction words keeps the canonical form. -/
theorem placeWords_wf {m : Memory} (h : m.wf = true) (a : Nat) (ws : List Code) :
    (placeWords m a ws).wf = true := by
  induction ws generalizing m a with
  | nil => exact h
  | cons w ws ih => exact ih (placeBytes_wf h _ _) _

/-- Reset's memory has the canonical form. -/
theorem reset_mem_wf : State.reset.mem.wf = true := rfl

/-! ### Reads -/

theorem readByte_of_cellsAbove {lo a : Nat} {m : Memory} (h : cellsAbove lo m = true) (ha : a ≤ lo) :
    readByte m a = unlistedByte := by
  cases m with
  | nil => rfl
  | cons c m =>
    simp only [cellsAbove, Bool.and_eq_true, decide_eq_true_eq] at h
    have : a ≠ c.1 := by omega
    have : a < c.1 := by omega
    simp [readByte, *]

theorem readByte_consCell {lo a : Nat} {b : Byte} {m : Memory} (h : cellsAbove lo m = true)
    (ha : a ≤ lo) (a' : Nat) : readByte (consCell a b m) a' = if a' = a then b else readByte m a' := by
  unfold consCell
  split
  · next hb =>
    split
    · next he => rw [he, readByte_of_cellsAbove h ha, hb]
    · rfl
  · simp only [readByte]
    split
    · rfl
    · split
      · rw [readByte_of_cellsAbove h (by omega)]
      · rfl

/-- A byte just written reads back, and every other byte reads as before. -/
theorem readByte_writeByte {m : Memory} (h : m.wf = true) (a : Nat) (b : Byte) (a' : Nat) :
    readByte (writeByte m a b) a' = if a' = a then b else readByte m a' := by
  induction m with
  | nil => simpa [writeByte] using readByte_consCell (lo := a) (m := []) rfl (Nat.le_refl a) a'
  | cons c m ih =>
    obtain ⟨k, c⟩ := c
    obtain ⟨hc, hm⟩ := Memory.wf_cons.1 h
    simp only [writeByte]
    split
    · next hk =>
      exact readByte_consCell (lo := a) (by simp [cellsAbove, hk, hc, hm]) (Nat.le_refl a) a'
    · split
      · next hk =>
        subst hk
        rw [readByte_consCell hm (Nat.le_refl a)]
        split
        · rfl
        · next hne =>
          simp only [readByte, hne, if_false]
          split
          · exact readByte_of_cellsAbove hm (by omega)
          · rfl
      · next hk hk' =>
        have ih := ih (Memory.wf_of_cellsAbove hm)
        simp only [readByte, ih]
        by_cases h1 : a' = k
        · have : a' ≠ a := by omega
          simp [h1]; intro; omega
        · by_cases h2 : a' < k
          · have : a' ≠ a := by omega
            simp [h1, h2, this]
          · simp [h1, h2]

theorem readByte_writeByte_same {m : Memory} (h : m.wf = true) (a : Nat) (b : Byte) :
    readByte (writeByte m a b) a = b := by simp [readByte_writeByte h]

theorem readByte_writeByte_other {m : Memory} (h : m.wf = true) {a a' : Nat} (b : Byte) (hne : a' ≠ a) :
    readByte (writeByte m a b) a' = readByte m a' := by simp [readByte_writeByte h, hne]

/-- Bytes outside the written range read as before. -/
theorem readByte_writeBytes_outside {m : Memory} (h : m.wf = true) (a n : Nat) (v : Word) {a' : Nat}
    (ho : a' < a ∨ a + n ≤ a') : readByte (writeBytes m a n v) a' = readByte m a' := by
  induction n generalizing m v with
  | zero => rfl
  | succ n ih =>
    simp only [writeBytes]
    rw [ih (writeByte_wf h _ _) _ (by omega), readByte_writeByte_other h _ (by omega)]

/-- The k-th written byte is bits 8(n-k)-1 .. 8(n-k-1) of the value (R52). -/
theorem readByte_writeBytes_inside {m : Memory} (h : m.wf = true) (a n : Nat) (v : Word) {k : Nat}
    (hk : k < n) : readByte (writeBytes m a n v) (a + k) = (v >>> (8 * (n - 1 - k))).setWidth 8 := by
  induction n generalizing m v with
  | zero => omega
  | succ n ih =>
    simp only [writeBytes]
    by_cases hl : k < n
    · rw [ih (writeByte_wf h _ _) _ hl, ← BitVec.shiftRight_add]
      congr 2
      omega
    · have hkn : k = n := by omega
      subst hkn
      rw [readByte_writeBytes_outside (writeByte_wf h _ _) _ _ _ (by omega), readByte_writeByte_same h]
      simp

/-! ### Big-endian values -/

theorem readBytes_toNat_lt (m : Memory) (a n : Nat) (hn : n ≤ 4) : (readBytes m a n).toNat < 256 ^ n := by
  induction n with
  | zero => simp [readBytes]
  | succ n ih =>
    have ih := ih (by omega)
    have hb := (readByte m (a + n)).isLt
    have hp : (256 : Nat) ^ (n + 1) ≤ 2 ^ 32 := by
      calc (256 : Nat) ^ (n + 1) ≤ 256 ^ 4 := Nat.pow_le_pow_right (by decide) hn
        _ = 2 ^ 32 := by decide
    have : 256 ^ (n + 1) = 256 ^ n * 256 := Nat.pow_succ ..
    simp only [readBytes, BitVec.toNat_or, BitVec.toNat_shiftLeft, BitVec.toNat_setWidth]
    rw [Nat.mod_eq_of_lt (b := 2 ^ 32) (a := _ <<< 8) (by rw [Nat.shiftLeft_eq]; omega), Nat.mod_eq_of_lt (b := 2 ^ 32) (by omega),
      ← Nat.shiftLeft_add_eq_or_of_lt hb, Nat.shiftLeft_eq]
    omega

/-- A big-endian value grows by one byte at its low end (R51). -/
theorem readBytes_succ_toNat (m : Memory) (a n : Nat) (hn : n < 4) :
    (readBytes m a (n + 1)).toNat = (readBytes m a n).toNat * 256 + (readByte m (a + n)).toNat := by
  have ih := readBytes_toNat_lt m a n (by omega)
  have hb := (readByte m (a + n)).isLt
  have hp : (256 : Nat) ^ (n + 1) ≤ 2 ^ 32 := by
    calc (256 : Nat) ^ (n + 1) ≤ 256 ^ 4 := Nat.pow_le_pow_right (by decide) hn
      _ = 2 ^ 32 := by decide
  have : 256 ^ (n + 1) = 256 ^ n * 256 := Nat.pow_succ ..
  simp only [readBytes, BitVec.toNat_or, BitVec.toNat_shiftLeft, BitVec.toNat_setWidth]
  rw [Nat.mod_eq_of_lt (b := 2 ^ 32) (a := _ <<< 8) (by rw [Nat.shiftLeft_eq]; omega), Nat.mod_eq_of_lt (b := 2 ^ 32) (by omega),
    ← Nat.shiftLeft_add_eq_or_of_lt hb, Nat.shiftLeft_eq]

theorem readBytes_one (m : Memory) (a : Nat) : readBytes m a 1 = (readByte m a).setWidth 32 := by
  simp [readBytes]

theorem readBytes_two_toNat (m : Memory) (a : Nat) :
    (readBytes m a 2).toNat = (readByte m a).toNat * 256 + (readByte m (a + 1)).toNat := by
  have hb := (readByte m a).isLt
  rw [readBytes_succ_toNat m a 1 (by decide), readBytes_one, BitVec.toNat_setWidth]
  omega

theorem readBytes_four_toNat (m : Memory) (a : Nat) :
    (readBytes m a 4).toNat = (readByte m a).toNat * 16777216 + (readByte m (a + 1)).toNat * 65536 +
      (readByte m (a + 2)).toNat * 256 + (readByte m (a + 3)).toNat := by
  rw [readBytes_succ_toNat m a 3 (by decide), readBytes_succ_toNat m a 2 (by decide), readBytes_two_toNat]
  omega

theorem readCode_toNat (m : Memory) (a : Nat) :
    (readCode m a).toNat = (readByte m a).toNat * 256 + (readByte m (a + 1)).toNat := codeOfBytes_toNat _ _

/-- The k-th written byte is bits 8(n-k)-1 .. 8(n-k-1) of the value (R52). -/
theorem readByte_writeBytes_lane {m : Memory} (h : m.wf = true) (a n : Nat) (v : Word) {k : Nat}
    (hk : k < n) : readByte (writeBytes m a n v) (a + k) = v.extractLsb' (8 * (n - 1 - k)) 8 := by
  rw [readByte_writeBytes_inside h a n v hk]
  apply BitVec.eq_of_toNat_eq
  simp

/-! ### Addresses in use -/

theorem consCell_below {n a : Nat} {b : Byte} {m : Memory} (ha : a < n) (h : Memory.below n m) :
    Memory.below n (consCell a b m) := by
  unfold consCell
  split
  · exact h
  · intro c hc
    rcases List.mem_cons.1 hc with rfl | hc
    · exact ha
    · exact h c hc

theorem writeByte_below {n a : Nat} {b : Byte} {m : Memory} (ha : a < n) (h : Memory.below n m) :
    Memory.below n (writeByte m a b) := by
  induction m with
  | nil => exact consCell_below ha h
  | cons c m ih =>
    have hm : Memory.below n m := fun d hd => h d (List.mem_cons_of_mem _ hd)
    simp only [writeByte]
    split
    · exact consCell_below ha h
    · split
      · exact consCell_below ha hm
      · intro d hd
        rcases List.mem_cons.1 hd with rfl | hd
        · exact h _ (List.mem_cons_self ..)
        · exact ih hm d hd

theorem writeBytes_below {n a k : Nat} {v : Word} {m : Memory} (ha : a + k ≤ n) (h : Memory.below n m) :
    Memory.below n (writeBytes m a k v) := by
  induction k generalizing m v with
  | zero => exact h
  | succ k ih => exact ih (by omega) (writeByte_below (by omega) h)

theorem placeBytes_below {n a : Nat} {bs : List Byte} {m : Memory} (ha : a + bs.length ≤ n)
    (h : Memory.below n m) : Memory.below n (placeBytes m a bs) := by
  induction bs generalizing m a with
  | nil => exact h
  | cons b bs ih =>
    simp only [List.length_cons] at ha
    exact ih (by omega) (writeByte_below (by omega) h)

theorem placeWords_below {n a : Nat} {ws : List Code} {m : Memory} (ha : a + 2 * ws.length ≤ n)
    (h : Memory.below n m) : Memory.below n (placeWords m a ws) := by
  induction ws generalizing m a with
  | nil => exact h
  | cons w ws ih =>
    simp only [List.length_cons] at ha
    exact ih (by omega) (placeBytes_below (by simp [bytesOfCode]; omega) h)

/-! ### Placed words read back (R321) -/

theorem readByte_placeWords_outside {m : Memory} (h : m.wf = true) (a : Nat) (ws : List Code) (k : Nat)
    (hk : k < a ∨ a + 2 * ws.length ≤ k) :
    readByte (placeWords m a ws) k = readByte m k := by
  induction ws generalizing m a with
  | nil => rfl
  | cons w ws ih =>
    simp only [List.length_cons] at hk
    simp only [placeWords]
    rw [ih (placeBytes_wf h _ _) _ (by omega)]
    simp only [bytesOfCode, placeBytes]
    rw [readByte_writeByte_other (writeByte_wf h _ _) _ (by omega), readByte_writeByte_other h _ (by omega)]

theorem readByte_placeWords_inside {m : Memory} (h : m.wf = true) (a : Nat) (ws : List Code) (i : Nat) (w : Code)
    (hk : ws[i]? = some w) :
    readByte (placeWords m a ws) (a + 2 * i) = w.extractLsb' 8 8 ∧
      readByte (placeWords m a ws) (a + 2 * i + 1) = w.extractLsb' 0 8 := by
  induction ws generalizing m a i with
  | nil => simp at hk
  | cons v ws ih =>
    cases i with
    | zero =>
      simp at hk
      subst hk
      simp only [placeWords]
      have h2 := placeBytes_wf h a (bytesOfCode v)
      rw [readByte_placeWords_outside h2 _ _ _ (by omega), readByte_placeWords_outside h2 _ _ _ (by omega)]
      simp only [bytesOfCode, placeBytes]
      constructor
      · rw [readByte_writeByte_other (writeByte_wf h _ _) _ (by omega)]; exact readByte_writeByte_same h _ _
      · exact readByte_writeByte_same (writeByte_wf h _ _) _ _
    | succ i =>
      simp at hk
      have := ih (placeBytes_wf h a (bytesOfCode v)) (a + 2) i hk
      simp only [placeWords]
      rw [show a + 2 * (i + 1) = a + 2 + 2 * i by omega]
      exact this

end Sys2Proof.Machine
end

