-- ==== Sys2Proof/Laws/State.lean ====
section
/-! SUPPORT. Laws/State.lean: one lemma per field per named state update, so that no later proof unfolds a record
update. -/

namespace Sys2Proof.Machine

/-! ### setReg -/

@[simp] theorem State.setReg_cfg (s : State) (i : Reg) (v : Word) : (s.setReg i v).cfg = s.cfg := rfl
@[simp] theorem State.setReg_regs (s : State) (i : Reg) (v : Word) : (s.setReg i v).regs = s.regs.set i (trim s.cfg.xlen v) := rfl
@[simp] theorem State.setReg_pc (s : State) (i : Reg) (v : Word) : (s.setReg i v).pc = s.pc := rfl
@[simp] theorem State.setReg_mem (s : State) (i : Reg) (v : Word) : (s.setReg i v).mem = s.mem := rfl
@[simp] theorem State.setReg_halted (s : State) (i : Reg) (v : Word) : (s.setReg i v).halted = s.halted := rfl
@[simp] theorem State.setReg_stackLimitHit (s : State) (i : Reg) (v : Word) : (s.setReg i v).stackLimitHit = s.stackLimitHit := rfl
@[simp] theorem State.setReg_fault (s : State) (i : Reg) (v : Word) : (s.setReg i v).fault = s.fault := rfl
@[simp] theorem State.setReg_stackLimit (s : State) (i : Reg) (v : Word) : (s.setReg i v).stackLimit = s.stackLimit := rfl
@[simp] theorem State.setReg_cycles (s : State) (i : Reg) (v : Word) : (s.setReg i v).cycles = s.cycles := rfl
@[simp] theorem State.setReg_output (s : State) (i : Reg) (v : Word) : (s.setReg i v).output = s.output := rfl
@[simp] theorem State.setReg_input (s : State) (i : Reg) (v : Word) : (s.setReg i v).input = s.input := rfl

/-! ### setPc -/

@[simp] theorem State.setPc_cfg (s : State) (t : Word) : (s.setPc t).cfg = s.cfg := rfl
@[simp] theorem State.setPc_regs (s : State) (t : Word) : (s.setPc t).regs = s.regs := rfl
@[simp] theorem State.setPc_pc (s : State) (t : Word) : (s.setPc t).pc = trim s.cfg.xlen t := rfl
@[simp] theorem State.setPc_mem (s : State) (t : Word) : (s.setPc t).mem = s.mem := rfl
@[simp] theorem State.setPc_halted (s : State) (t : Word) : (s.setPc t).halted = s.halted := rfl
@[simp] theorem State.setPc_stackLimitHit (s : State) (t : Word) : (s.setPc t).stackLimitHit = s.stackLimitHit := rfl
@[simp] theorem State.setPc_fault (s : State) (t : Word) : (s.setPc t).fault = s.fault := rfl
@[simp] theorem State.setPc_stackLimit (s : State) (t : Word) : (s.setPc t).stackLimit = s.stackLimit := rfl
@[simp] theorem State.setPc_cycles (s : State) (t : Word) : (s.setPc t).cycles = s.cycles := rfl
@[simp] theorem State.setPc_output (s : State) (t : Word) : (s.setPc t).output = s.output := rfl
@[simp] theorem State.setPc_input (s : State) (t : Word) : (s.setPc t).input = s.input := rfl
@[simp] theorem State.setPc_reg (s : State) (t : Word) (r : Reg) : (s.setPc t).reg r = s.reg r := rfl

/-! ### advance -/

@[simp] theorem State.advance_cfg (s : State) : s.advance.cfg = s.cfg := rfl
@[simp] theorem State.advance_regs (s : State) : s.advance.regs = s.regs := rfl
@[simp] theorem State.advance_pc (s : State) : s.advance.pc = trim s.cfg.xlen (s.pc + 2#32) := rfl
@[simp] theorem State.advance_mem (s : State) : s.advance.mem = s.mem := rfl
@[simp] theorem State.advance_halted (s : State) : s.advance.halted = s.halted := rfl
@[simp] theorem State.advance_stackLimitHit (s : State) : s.advance.stackLimitHit = s.stackLimitHit := rfl
@[simp] theorem State.advance_fault (s : State) : s.advance.fault = s.fault := rfl
@[simp] theorem State.advance_stackLimit (s : State) : s.advance.stackLimit = s.stackLimit := rfl
@[simp] theorem State.advance_cycles (s : State) : s.advance.cycles = s.cycles := rfl
@[simp] theorem State.advance_output (s : State) : s.advance.output = s.output := rfl
@[simp] theorem State.advance_input (s : State) : s.advance.input = s.input := rfl
@[simp] theorem State.advance_reg (s : State) (r : Reg) : s.advance.reg r = s.reg r := rfl

/-! ### setMem -/

@[simp] theorem State.setMem_cfg (s : State) (m : Memory) : (s.setMem m).cfg = s.cfg := rfl
@[simp] theorem State.setMem_regs (s : State) (m : Memory) : (s.setMem m).regs = s.regs := rfl
@[simp] theorem State.setMem_pc (s : State) (m : Memory) : (s.setMem m).pc = s.pc := rfl
@[simp] theorem State.setMem_mem (s : State) (m : Memory) : (s.setMem m).mem = m := rfl
@[simp] theorem State.setMem_halted (s : State) (m : Memory) : (s.setMem m).halted = s.halted := rfl
@[simp] theorem State.setMem_stackLimitHit (s : State) (m : Memory) : (s.setMem m).stackLimitHit = s.stackLimitHit := rfl
@[simp] theorem State.setMem_fault (s : State) (m : Memory) : (s.setMem m).fault = s.fault := rfl
@[simp] theorem State.setMem_stackLimit (s : State) (m : Memory) : (s.setMem m).stackLimit = s.stackLimit := rfl
@[simp] theorem State.setMem_cycles (s : State) (m : Memory) : (s.setMem m).cycles = s.cycles := rfl
@[simp] theorem State.setMem_output (s : State) (m : Memory) : (s.setMem m).output = s.output := rfl
@[simp] theorem State.setMem_input (s : State) (m : Memory) : (s.setMem m).input = s.input := rfl
@[simp] theorem State.setMem_reg (s : State) (m : Memory) (r : Reg) : (s.setMem m).reg r = s.reg r := rfl

/-! ### emit -/

@[simp] theorem State.emit_cfg (s : State) (bs : List Byte) : (s.emit bs).cfg = s.cfg := rfl
@[simp] theorem State.emit_regs (s : State) (bs : List Byte) : (s.emit bs).regs = s.regs := rfl
@[simp] theorem State.emit_pc (s : State) (bs : List Byte) : (s.emit bs).pc = s.pc := rfl
@[simp] theorem State.emit_mem (s : State) (bs : List Byte) : (s.emit bs).mem = s.mem := rfl
@[simp] theorem State.emit_halted (s : State) (bs : List Byte) : (s.emit bs).halted = s.halted := rfl
@[simp] theorem State.emit_stackLimitHit (s : State) (bs : List Byte) : (s.emit bs).stackLimitHit = s.stackLimitHit := rfl
@[simp] theorem State.emit_fault (s : State) (bs : List Byte) : (s.emit bs).fault = s.fault := rfl
@[simp] theorem State.emit_stackLimit (s : State) (bs : List Byte) : (s.emit bs).stackLimit = s.stackLimit := rfl
@[simp] theorem State.emit_cycles (s : State) (bs : List Byte) : (s.emit bs).cycles = s.cycles := rfl
@[simp] theorem State.emit_output (s : State) (bs : List Byte) : (s.emit bs).output = s.output ++ bs := rfl
@[simp] theorem State.emit_input (s : State) (bs : List Byte) : (s.emit bs).input = s.input := rfl
@[simp] theorem State.emit_reg (s : State) (bs : List Byte) (r : Reg) : (s.emit bs).reg r = s.reg r := rfl

/-! ### setInput -/

@[simp] theorem State.setInput_cfg (s : State) (rest : List Int) : (s.setInput rest).cfg = s.cfg := rfl
@[simp] theorem State.setInput_regs (s : State) (rest : List Int) : (s.setInput rest).regs = s.regs := rfl
@[simp] theorem State.setInput_pc (s : State) (rest : List Int) : (s.setInput rest).pc = s.pc := rfl
@[simp] theorem State.setInput_mem (s : State) (rest : List Int) : (s.setInput rest).mem = s.mem := rfl
@[simp] theorem State.setInput_halted (s : State) (rest : List Int) : (s.setInput rest).halted = s.halted := rfl
@[simp] theorem State.setInput_stackLimitHit (s : State) (rest : List Int) : (s.setInput rest).stackLimitHit = s.stackLimitHit := rfl
@[simp] theorem State.setInput_fault (s : State) (rest : List Int) : (s.setInput rest).fault = s.fault := rfl
@[simp] theorem State.setInput_stackLimit (s : State) (rest : List Int) : (s.setInput rest).stackLimit = s.stackLimit := rfl
@[simp] theorem State.setInput_cycles (s : State) (rest : List Int) : (s.setInput rest).cycles = s.cycles := rfl
@[simp] theorem State.setInput_output (s : State) (rest : List Int) : (s.setInput rest).output = s.output := rfl
@[simp] theorem State.setInput_input (s : State) (rest : List Int) : (s.setInput rest).input = rest := rfl
@[simp] theorem State.setInput_reg (s : State) (rest : List Int) (r : Reg) : (s.setInput rest).reg r = s.reg r := rfl

/-! ### halt -/

@[simp] theorem State.halt_cfg (s : State) : s.halt.cfg = s.cfg := rfl
@[simp] theorem State.halt_regs (s : State) : s.halt.regs = s.regs := rfl
@[simp] theorem State.halt_pc (s : State) : s.halt.pc = s.pc := rfl
@[simp] theorem State.halt_mem (s : State) : s.halt.mem = s.mem := rfl
@[simp] theorem State.halt_halted (s : State) : s.halt.halted = true := rfl
@[simp] theorem State.halt_stackLimitHit (s : State) : s.halt.stackLimitHit = s.stackLimitHit := rfl
@[simp] theorem State.halt_fault (s : State) : s.halt.fault = s.fault := rfl
@[simp] theorem State.halt_stackLimit (s : State) : s.halt.stackLimit = s.stackLimit := rfl
@[simp] theorem State.halt_cycles (s : State) : s.halt.cycles = s.cycles := rfl
@[simp] theorem State.halt_output (s : State) : s.halt.output = s.output := rfl
@[simp] theorem State.halt_input (s : State) : s.halt.input = s.input := rfl
@[simp] theorem State.halt_reg (s : State) (r : Reg) : s.halt.reg r = s.reg r := rfl

/-! ### count -/

@[simp] theorem State.count_cfg (s : State) : s.count.cfg = s.cfg := rfl
@[simp] theorem State.count_regs (s : State) : s.count.regs = s.regs := rfl
@[simp] theorem State.count_pc (s : State) : s.count.pc = s.pc := rfl
@[simp] theorem State.count_mem (s : State) : s.count.mem = s.mem := rfl
@[simp] theorem State.count_halted (s : State) : s.count.halted = s.halted := rfl
@[simp] theorem State.count_stackLimitHit (s : State) : s.count.stackLimitHit = s.stackLimitHit := rfl
@[simp] theorem State.count_fault (s : State) : s.count.fault = s.fault := rfl
@[simp] theorem State.count_stackLimit (s : State) : s.count.stackLimit = s.stackLimit := rfl
@[simp] theorem State.count_cycles (s : State) : s.count.cycles = s.cycles + 1 := rfl
@[simp] theorem State.count_output (s : State) : s.count.output = s.output := rfl
@[simp] theorem State.count_input (s : State) : s.count.input = s.input := rfl
@[simp] theorem State.count_reg (s : State) (r : Reg) : s.count.reg r = s.reg r := rfl

/-! ### latchStackLimit -/

@[simp] theorem State.latchStackLimit_cfg (s : State) (hit : Bool) : (s.latchStackLimit hit).cfg = s.cfg := rfl
@[simp] theorem State.latchStackLimit_regs (s : State) (hit : Bool) : (s.latchStackLimit hit).regs = s.regs := rfl
@[simp] theorem State.latchStackLimit_pc (s : State) (hit : Bool) : (s.latchStackLimit hit).pc = s.pc := rfl
@[simp] theorem State.latchStackLimit_mem (s : State) (hit : Bool) : (s.latchStackLimit hit).mem = s.mem := rfl
@[simp] theorem State.latchStackLimit_halted (s : State) (hit : Bool) : (s.latchStackLimit hit).halted = s.halted := rfl
@[simp] theorem State.latchStackLimit_stackLimitHit (s : State) (hit : Bool) : (s.latchStackLimit hit).stackLimitHit = hit := rfl
@[simp] theorem State.latchStackLimit_fault (s : State) (hit : Bool) : (s.latchStackLimit hit).fault = s.fault := rfl
@[simp] theorem State.latchStackLimit_stackLimit (s : State) (hit : Bool) : (s.latchStackLimit hit).stackLimit = s.stackLimit := rfl
@[simp] theorem State.latchStackLimit_cycles (s : State) (hit : Bool) : (s.latchStackLimit hit).cycles = s.cycles := rfl
@[simp] theorem State.latchStackLimit_output (s : State) (hit : Bool) : (s.latchStackLimit hit).output = s.output := rfl
@[simp] theorem State.latchStackLimit_input (s : State) (hit : Bool) : (s.latchStackLimit hit).input = s.input := rfl
@[simp] theorem State.latchStackLimit_reg (s : State) (hit : Bool) (r : Reg) : (s.latchStackLimit hit).reg r = s.reg r := rfl

end Sys2Proof.Machine
end

