-- ==== Sys2Proof/Laws/Operands.lean ====
section
/-! SUPPORT. Laws/Operands.lean: XLEN-bit values, extensions, and the register file's reads after writes. -/

namespace Sys2Proof.Machine

/-! ### trim -/

theorem bits_le (x : XLen) : x.bits ≤ 32 := by cases x <;> decide

@[simp] theorem toNat_trim (x : XLen) (v : Word) : (trim x v).toNat = v.toNat % 2 ^ x.bits := by
  have h := Nat.mod_lt v.toNat (Nat.two_pow_pos x.bits)
  have h2 : (2 : Nat) ^ x.bits ≤ 2 ^ 32 := Nat.pow_le_pow_right (by decide) (bits_le x)
  simp only [trim, BitVec.toNat_setWidth]
  exact Nat.mod_eq_of_lt (by omega)

theorem toNat_trim_lt (x : XLen) (v : Word) : (trim x v).toNat < 2 ^ x.bits := by
  rw [toNat_trim]; exact Nat.mod_lt _ (Nat.two_pow_pos _)

@[simp] theorem trim_trim (x : XLen) (v : Word) : trim x (trim x v) = trim x v := by
  apply BitVec.eq_of_toNat_eq; simp

/-- A value below 2^XLEN is its own residue. -/
theorem trim_of_lt {x : XLen} {v : Word} (h : v.toNat < 2 ^ x.bits) : trim x v = v := by
  apply BitVec.eq_of_toNat_eq; simp [Nat.mod_eq_of_lt h]

theorem getLsbD_trim (x : XLen) (v : Word) (k : Nat) :
    (trim x v).getLsbD k = (decide (k < x.bits) && v.getLsbD k) := by
  have := bits_le x
  by_cases hk : k < x.bits <;> by_cases h32 : k < 32 <;> simp [trim, BitVec.getLsbD_setWidth, hk, h32]
  omega

@[simp] theorem trim_wide (v : Word) : trim .x32 v = v := by
  apply BitVec.eq_of_toNat_eq
  have := v.isLt
  simp only [toNat_trim, XLen.bits]
  omega

@[simp] theorem trim_zero (x : XLen) : trim x 0#32 = 0#32 := by cases x <;> rfl

@[simp] theorem trim_one (x : XLen) : trim x 1#32 = 1#32 := by cases x <;> rfl

/-! ### signed -/

@[simp] theorem signed_trim (x : XLen) (v : Word) : signed x (trim x v) = signed x v := by
  have h := bits_le x
  unfold signed trim
  rw [BitVec.setWidth_setWidth_of_le _ h, BitVec.setWidth_eq]

/-! ### extensions -/

@[simp] theorem toNat_zext8 (v : BitVec 8) : (zext8 v).toNat = v.toNat := by
  have := v.isLt
  simp only [zext8, BitVec.toNat_setWidth]
  omega

/-- The sign-extended immediate is its signed value mod 2^XLEN. -/
theorem toNat_sext8 (x : XLen) (v : BitVec 8) :
    ((sext8 x v).toNat : Int) = v.toInt % 2 ^ x.bits := by
  have h : ((v.signExtend 32).toNat : Int) = v.toInt % 2 ^ 32 := by
    rw [BitVec.toNat_signExtend]
    have hv := v.isLt
    simp only [BitVec.toInt_eq_msb_cond, BitVec.toNat_setWidth]
    cases v.msb
    · simp only [Bool.false_eq_true, if_false]; omega
    · simp only [if_true]; omega
  unfold sext8
  rw [toNat_trim]
  push_cast
  rw [h]
  cases x <;> simp [XLen.bits]

/-! ### registers -/

@[simp] theorem RegFile.get_set_same (f : RegFile) (i : Reg) (v : Word) : (f.set i v).get i = v := by
  cases i <;> rfl

theorem RegFile.get_set_other (f : RegFile) {i j : Reg} (v : Word) (h : j ≠ i) :
    (f.set i v).get j = f.get j := by
  cases i <;> cases j <;> first | rfl | exact absurd rfl h

theorem RegFile.get_set (f : RegFile) (i j : Reg) (v : Word) :
    (f.set i v).get j = if j = i then v else f.get j := by
  split
  · next h => rw [h, RegFile.get_set_same]
  · next h => exact RegFile.get_set_other f v h

@[simp] theorem State.reg_setReg_same (s : State) (i : Reg) (v : Word) :
    (s.setReg i v).reg i = trim s.cfg.xlen v := by simp [State.reg]

theorem State.reg_setReg_other (s : State) {i j : Reg} (v : Word) (h : j ≠ i) :
    (s.setReg i v).reg j = s.reg j := by simp [State.reg, RegFile.get_set_other _ _ h]

/-- A register reads as an XLEN-bit value. -/
theorem State.reg_lt (s : State) (i : Reg) : (s.reg i).toNat < 2 ^ s.cfg.xlen.bits := toNat_trim_lt _ _

@[simp] theorem State.trim_reg (s : State) (i : Reg) : trim s.cfg.xlen (s.reg i) = s.reg i :=
  trim_of_lt (s.reg_lt i)

end Sys2Proof.Machine
end

