-- ==== Sys2Proof/Laws/Ops.lean ====
section
/-! SUPPORT. Laws/Ops.lean: one lemma per shared operation that says once everything it can do, then the same for exec
and for step. -/

namespace Sys2Proof.Machine

/-! ### Fetch and decode -/

theorem inRam_iff (c : Config) (a : Word) (n : Nat) : inRam c a n = true ↔ a.toNat + n ≤ c.memSize := by
  simp [inRam]

/-- What a successful fetch says. -/
theorem fetch_ok {s : State} {w : Code} :
    fetch s = .ok w ↔
      s.pc.toNat % 2 = 0 ∧ s.pc.toNat + 2 ≤ s.cfg.memSize ∧ w = readCode s.mem s.pc.toNat := by
  unfold fetch
  split
  · simp; omega
  · split
    · next h => rw [inRam_iff] at h; simp [h, eq_comm]; omega
    · next h => rw [inRam_iff] at h; simp; omega

/-- A fetch depends on pc, RAM and XLEN only. -/
theorem fetch_congr {s t : State} (hc : t.cfg = s.cfg) (hp : t.pc = s.pc) (hm : t.mem = s.mem) :
    fetch t = fetch s := by simp [fetch, hc, hp, hm]

theorem decodeStep_ok {s : State} {w : Code} {i : Instr} :
    decodeStep s w = .ok i ↔ decode s.cfg.strictFixedFields w = .ok i := by
  unfold decodeStep
  split <;> simp_all

theorem decode_ok {strict : Bool} {w : Code} {i : Instr} :
    decode strict w = .ok i ↔ decodeFields w = some i ∧ i.wellFormed strict = true := by
  unfold decode
  cases h : decodeFields w with
  | none => simp
  | some j =>
    by_cases hw : j.wellFormed strict = true
    · simp only [hw, if_true, Option.some.injEq, Except.ok.injEq]
      constructor
      · rintro rfl; exact ⟨rfl, hw⟩
      · exact And.left
    · simp only [hw, Option.some.injEq]
      constructor
      · intro h; cases h
      · rintro ⟨rfl, h⟩; exact absurd h hw

/-! ### MemRead and MemWrite -/

/-- The three ways an access reads: RAM, or one item from an input register (R51). -/
theorem memRead_ok {s t : State} {sz : Size} {a v : Word} (h : memRead s sz a = .ok (v, t)) :
    (t = s ∧ a.toNat + sizeBytes s.cfg.xlen sz ≤ s.cfg.memSize ∧
      v = readBytes s.mem a.toNat (sizeBytes s.cfg.xlen sz)) ∨
    (sz = .word ∧ (a = s.cfg.inChar ∨ a = s.cfg.inInt) ∧
      ∃ n rest, s.input = n :: rest ∧ t = s.setInput rest) := by
  unfold memRead at h
  split at h
  · cases h
  split at h
  · next hd =>
    unfold readCharDevice at h
    split at h
    · cases h
    · next n rest hi => cases h; exact .inr ⟨hd.1, .inl hd.2, n, rest, hi, rfl⟩
  split at h
  · next hd =>
    unfold readIntDevice at h
    split at h
    · cases h
    · next n rest hi => cases h; exact .inr ⟨hd.1, .inr hd.2, n, rest, hi, rfl⟩
  split at h
  · next hr => cases h; exact .inl ⟨rfl, (inRam_iff ..).1 hr, rfl⟩
  · cases h

/-- The two ways an access writes: RAM, or an output register (R52). -/
theorem memWrite_ok {s t : State} {sz : Size} {a v : Word} (h : memWrite s sz a v = .ok t) :
    (a.toNat + sizeBytes s.cfg.xlen sz ≤ s.cfg.memSize ∧
      t = s.setMem (writeBytes s.mem a.toNat (sizeBytes s.cfg.xlen sz) v)) ∨
    (sz = .word ∧ (a = s.cfg.outChar ∨ a = s.cfg.outInt) ∧ ∃ bs, t = s.emit bs) := by
  unfold memWrite at h
  split at h
  · cases h
  split at h
  · next hd => cases h; exact .inr ⟨hd.1, .inl hd.2, _, rfl⟩
  split at h
  · next hd => cases h; exact .inr ⟨hd.1, .inr hd.2, _, rfl⟩
  split at h
  · next hr => cases h; exact .inl ⟨(inRam_iff ..).1 hr, rfl⟩
  · cases h

/-- Why a read fails (R51). -/
theorem memRead_error {s : State} {sz : Size} {a : Word} {f : Fault} (h : memRead s sz a = .error f) :
    (f = .misalignedAccess a ∧ misaligned s.cfg.xlen sz a = true) ∨
    (f = .inputExhausted ∧ misaligned s.cfg.xlen sz a = false ∧ sz = .word ∧
      (a = s.cfg.inChar ∨ a = s.cfg.inInt) ∧ s.input = []) ∨
    (f = .accessFault a ∧ misaligned s.cfg.xlen sz a = false ∧
      s.cfg.memSize < a.toNat + sizeBytes s.cfg.xlen sz ∧
      ¬ (sz = .word ∧ (a = s.cfg.inChar ∨ a = s.cfg.inInt))) := by
  unfold memRead at h
  split at h
  · next hm => cases h; exact .inl ⟨rfl, hm⟩
  next hm =>
  have hm := Bool.eq_false_iff.2 hm
  split at h
  · next hd =>
    unfold readCharDevice at h
    split at h
    · next hi => cases h; exact .inr (.inl ⟨rfl, hm, hd.1, .inl hd.2, hi⟩)
    · cases h
  split at h
  · next hd =>
    unfold readIntDevice at h
    split at h
    · next hi => cases h; exact .inr (.inl ⟨rfl, hm, hd.1, .inr hd.2, hi⟩)
    · cases h
  next h1 h2 =>
  split at h
  · cases h
  · next hr =>
    cases h
    rw [inRam_iff] at hr
    exact .inr (.inr ⟨rfl, hm, by omega, fun hh => hh.2.elim (fun e => h1 ⟨hh.1, e⟩) fun e => h2 ⟨hh.1, e⟩⟩)

/-- Why a write fails (R52). -/
theorem memWrite_error {s : State} {sz : Size} {a v : Word} {f : Fault} (h : memWrite s sz a v = .error f) :
    (f = .misalignedAccess a ∧ misaligned s.cfg.xlen sz a = true) ∨
    (f = .accessFault a ∧ misaligned s.cfg.xlen sz a = false ∧
      s.cfg.memSize < a.toNat + sizeBytes s.cfg.xlen sz ∧
      ¬ (sz = .word ∧ (a = s.cfg.outChar ∨ a = s.cfg.outInt))) := by
  unfold memWrite at h
  split at h
  · next hm => cases h; exact .inl ⟨rfl, hm⟩
  next hm =>
  have hm := Bool.eq_false_iff.2 hm
  split at h
  · cases h
  split at h
  · cases h
  next h1 h2 =>
  split at h
  · cases h
  · next hr =>
    cases h
    rw [inRam_iff] at hr
    exact .inr ⟨rfl, hm, by omega, fun hh => hh.2.elim (fun e => h1 ⟨hh.1, e⟩) fun e => h2 ⟨hh.1, e⟩⟩

/-- An access of at least one byte. -/
theorem sizeBytes_pos (x : XLen) (sz : Size) : 0 < sizeBytes x sz := by
  cases sz
  · exact Nat.one_pos
  · unfold sizeBytes; cases x <;> decide

/-- An access in RAM reads RAM; a word access needs parameters that keep the devices out of RAM. -/
theorem memRead_ram {s : State} {sz : Size} {a : Word} (hw : sz = .word → s.cfg.WellFormed)
    (hm : misaligned s.cfg.xlen sz a = false)
    (hr : a.toNat + sizeBytes s.cfg.xlen sz ≤ s.cfg.memSize) :
    memRead s sz a = .ok (readBytes s.mem a.toNat (sizeBytes s.cfg.xlen sz), s) := by
  have hs := sizeBytes_pos s.cfg.xlen sz
  have ha : ¬ (sz = .word ∧ a = s.cfg.inChar) := by
    rintro ⟨h, rfl⟩; have := (memSize_le_devices (hw h)).2.2.1; omega
  have hb : ¬ (sz = .word ∧ a = s.cfg.inInt) := by
    rintro ⟨h, rfl⟩; have := (memSize_le_devices (hw h)).2.2.2; omega
  simp only [memRead, hm, ha, hb, (inRam_iff ..).2 hr, if_true, if_false, Bool.false_eq_true]

/-- An access in RAM writes RAM; a word access needs parameters that keep the devices out of RAM. -/
theorem memWrite_ram {s : State} {sz : Size} {a : Word} (v : Word) (hw : sz = .word → s.cfg.WellFormed)
    (hm : misaligned s.cfg.xlen sz a = false)
    (hr : a.toNat + sizeBytes s.cfg.xlen sz ≤ s.cfg.memSize) :
    memWrite s sz a v =
      .ok (s.setMem (writeBytes s.mem a.toNat (sizeBytes s.cfg.xlen sz) v)) := by
  have hs := sizeBytes_pos s.cfg.xlen sz
  have ha : ¬ (sz = .word ∧ a = s.cfg.outChar) := by
    rintro ⟨h, rfl⟩; have := (memSize_le_devices (hw h)).1; omega
  have hb : ¬ (sz = .word ∧ a = s.cfg.outInt) := by
    rintro ⟨h, rfl⟩; have := (memSize_le_devices (hw h)).2.1; omega
  simp only [memWrite, hm, ha, hb, (inRam_iff ..).2 hr, if_true, if_false, Bool.false_eq_true]

/-! ### The four shapes -/

theorem load_next {s t : State} {sz : Size} {f : Word → Word} {rst rsb : Reg}
    (h : load sz f rst rsb s = .next t) :
    ∃ v u, memRead s sz (s.reg rsb) = .ok (v, u) ∧ t = (u.setReg rst (f v)).advance := by
  unfold load at h
  split at h
  · next v u hm => cases h; exact ⟨v, u, hm, rfl⟩
  · cases h

theorem store_next {s t : State} {sz : Size} {rsa rsb : Reg} (h : store sz rsa rsb s = .next t) :
    ∃ u, memWrite s sz (s.reg rsb) (s.reg rsa) = .ok u ∧ t = u.advance := by
  unfold store at h
  split at h
  · next u hm => cases h; exact ⟨u, hm, rfl⟩
  · cases h

theorem branch_next {s t : State} {c : Bool} {target : Word} (h : branch c target s = .next t) :
    t = s.advance ∨ t = s.setPc target := by
  unfold branch at h
  split at h <;> cases h
  · exact .inr rfl
  · exact .inl rfl

/-! ### Everything one instruction can do -/

/-- If an instruction answers a next state, it wrote one register, or read an input register into one, or stored to
RAM, or wrote to an output register, or branched, or was HCF. -/
theorem exec_next {i : Instr} {s t : State} (h : exec i s = .next t) :
    (∃ d v, i ≠ .hcf ∧ isBranch i = false ∧ isStore i = false ∧ t = (s.setReg d v).advance) ∨
    (∃ rst rsa rsb n rest v, i = .ldw rst rsa rsb ∧
      (s.reg rsb = s.cfg.inChar ∨ s.reg rsb = s.cfg.inInt) ∧ s.input = n :: rest ∧
      t = ((s.setInput rest).setReg rst v).advance) ∨
    (∃ rst rsa rsb, i = .stb rst rsa rsb ∧ (s.reg rsb).toNat + 1 ≤ s.cfg.memSize ∧
      t = (s.setMem (writeBytes s.mem (s.reg rsb).toNat 1 (s.reg rsa))).advance) ∨
    (∃ rst rsa rsb, i = .stw rst rsa rsb ∧
      (s.reg rsb).toNat + s.cfg.xlen.wordBytes ≤ s.cfg.memSize ∧
      t = (s.setMem (writeBytes s.mem (s.reg rsb).toNat s.cfg.xlen.wordBytes (s.reg rsa))).advance) ∨
    (∃ rst rsa rsb bs, i = .stw rst rsa rsb ∧
      (s.reg rsb = s.cfg.outChar ∨ s.reg rsb = s.cfg.outInt) ∧ t = (s.emit bs).advance) ∨
    (isBranch i = true ∧ (t = s.advance ∨
      (∃ rst rsa rsb, (i = .bezR rst rsa rsb ∨ i = .bezRAsm rst rsa rsb ∨ i = .bnzR rst rsa rsb ∨
        i = .bnzRAsm rst rsa rsb) ∧ t = s.setPc (s.reg rsb)) ∨
      ∃ rst imm8, (i = .bezI rst imm8 ∨ i = .bnzI rst imm8) ∧ t = s.setPc (relativeTarget s imm8))) ∨
    (i = .hcf ∧ t = s.halt) := by
  have compute : ∀ {d v}, i ≠ .hcf → isBranch i = false → isStore i = false →
      Machine.compute d v s = .next t →
      ∃ d v, i ≠ .hcf ∧ isBranch i = false ∧ isStore i = false ∧ t = (s.setReg d v).advance := by
    intro d v h1 h2 h3 h
    cases h
    exact ⟨d, v, h1, h2, h3, rfl⟩
  cases i with
  | ldb rst rsa rsb =>
    obtain ⟨v, u, hm, rfl⟩ := load_next h
    obtain ⟨rfl, -, -⟩ | ⟨h, -⟩ := memRead_ok hm
    · exact .inl ⟨rst, _, by simp, rfl, rfl, rfl⟩
    · cases h
  | ldw rst rsa rsb =>
    obtain ⟨v, u, hm, rfl⟩ := load_next h
    obtain ⟨rfl, -, -⟩ | ⟨-, hd, n, rest, hi, rfl⟩ := memRead_ok hm
    · exact .inl ⟨rst, _, by simp, rfl, rfl, rfl⟩
    · exact .inr (.inl ⟨rst, rsa, rsb, n, rest, _, rfl, hd, hi, rfl⟩)
  | stb rst rsa rsb =>
    obtain ⟨u, hm, rfl⟩ := store_next h
    obtain ⟨hr, rfl⟩ | ⟨h, -⟩ := memWrite_ok hm
    · exact .inr (.inr (.inl ⟨rst, rsa, rsb, rfl, hr, rfl⟩))
    · cases h
  | stw rst rsa rsb =>
    obtain ⟨u, hm, rfl⟩ := store_next h
    obtain ⟨hr, rfl⟩ | ⟨-, hd, bs, rfl⟩ := memWrite_ok hm
    · exact .inr (.inr (.inr (.inl ⟨rst, rsa, rsb, rfl, hr, rfl⟩)))
    · exact .inr (.inr (.inr (.inr (.inl ⟨rst, rsa, rsb, bs, rfl, hd, rfl⟩))))
  | bezR rst rsa rsb | bezRAsm rst rsa rsb | bnzR rst rsa rsb | bnzRAsm rst rsa rsb =>
    refine .inr (.inr (.inr (.inr (.inr (.inl ⟨rfl, ?_⟩)))))
    obtain h | h := branch_next h
    · exact .inl h
    · exact .inr (.inl ⟨rst, rsa, rsb, by simp, h⟩)
  | bezI rst imm8 | bnzI rst imm8 =>
    refine .inr (.inr (.inr (.inr (.inr (.inl ⟨rfl, ?_⟩)))))
    obtain h | h := branch_next h
    · exact .inl h
    · exact .inr (.inr ⟨rst, imm8, by simp, h⟩)
  | hcf => cases h; exact .inr (.inr (.inr (.inr (.inr (.inr ⟨rfl, rfl⟩)))))
  | _ => exact .inl (compute (by simp) rfl rfl h)

/-- Only the four memory instructions fault, with one of three faults (R281). -/
theorem exec_fault {i : Instr} {s : State} {f : Fault} (h : exec i s = .fault f) :
    (∃ rst rsa rsb, i = .ldb rst rsa rsb ∨ i = .stb rst rsa rsb ∨ i = .ldw rst rsa rsb ∨
      i = .stw rst rsa rsb) ∧
    ((∃ a, f = .misalignedAccess a ∨ f = .accessFault a) ∨ f = .inputExhausted) := by
  have hr : ∀ {sz a}, memRead s sz a = .error f →
      (∃ a, f = .misalignedAccess a ∨ f = .accessFault a) ∨ f = .inputExhausted := by
    intro sz a h
    rcases memRead_error h with ⟨h, -⟩ | ⟨h, -⟩ | ⟨h, -⟩
    · exact .inl ⟨_, .inl h⟩
    · exact .inr h
    · exact .inl ⟨_, .inr h⟩
  have hw : ∀ {sz a v}, memWrite s sz a v = .error f →
      (∃ a, f = .misalignedAccess a ∨ f = .accessFault a) ∨ f = .inputExhausted := by
    intro sz a v h
    rcases memWrite_error h with ⟨h, -⟩ | ⟨h, -⟩
    · exact .inl ⟨_, .inl h⟩
    · exact .inl ⟨_, .inr h⟩
  cases i with
  | ldb d a b =>
    simp only [exec, execLdb, load, raise] at h
    split at h <;> cases h
    next hm => exact ⟨⟨d, a, b, by simp⟩, hr hm⟩
  | ldw d a b =>
    simp only [exec, execLdw, load, raise] at h
    split at h <;> cases h
    next hm => exact ⟨⟨d, a, b, by simp⟩, hr hm⟩
  | stb d a b =>
    simp only [exec, execStb, store, raise] at h
    split at h <;> cases h
    next hm => exact ⟨⟨d, a, b, by simp⟩, hw hm⟩
  | stw d a b =>
    simp only [exec, execStw, store, raise] at h
    split at h <;> cases h
    next hm => exact ⟨⟨d, a, b, by simp⟩, hw hm⟩
  | bezR | bezRAsm | bnzR | bnzRAsm | bezI | bnzI =>
    simp only [exec, execBezR, execBezRAsm, execBnzR, execBnzRAsm, execBezI, execBnzI, branch] at h
    cases h
  | _ => cases h

/-- No instruction is refused. -/
theorem exec_not_refused (i : Instr) (s : State) (r : Refusal) : exec i s ≠ .refused r := by
  cases i with
  | ldb _ _ rsb => intro h; simp only [exec, execLdb, load, raise] at h; split at h <;> cases h
  | ldw _ _ rsb => intro h; simp only [exec, execLdw, load, raise] at h; split at h <;> cases h
  | stb _ _ rsb => intro h; simp only [exec, execStb, store, raise] at h; split at h <;> cases h
  | stw _ _ rsb => intro h; simp only [exec, execStw, store, raise] at h; split at h <;> cases h
  | _ => intro h; cases h

/-! ### Everything one step can do -/

theorem ending_none {s : State} :
    s.ending = none ↔ s.fault = none ∧ s.halted = false ∧ s.stackLimitHit = false := by
  unfold State.ending
  cases s.fault <;> cases s.halted <;> cases s.stackLimitHit <;> simp

/-- A step that answers a next state fetched, decoded and executed an instruction, then retired it. -/
theorem step_next {s t : State} (h : step s = .next t) :
    ∃ w i u, s.ending = none ∧ fetch s = .ok w ∧ decode s.cfg.strictFixedFields w = .ok i ∧
      exec i s = .next u ∧ t = retire i u := by
  unfold step at h
  split at h
  · cases h
  next he =>
  split at h
  · cases h
  next w hf =>
  split at h
  · cases h
  next i hd =>
  split at h <;> cases h
  next u hx => exact ⟨w, i, u, he, hf, decodeStep_ok.1 hd, hx, rfl⟩

/-- A step that faults either had no step to take, or met one of the causes of R281. -/
theorem step_fault {s : State} {f : Fault} (h : step s = .fault f) :
    s.ending = some f ∨
    (s.ending = none ∧
      (fetch s = .error f ∨
        (∃ w, fetch s = .ok w ∧ decodeStep s w = .error f ∧ f = .illegalInstruction w) ∨
        ∃ w i, fetch s = .ok w ∧ decode s.cfg.strictFixedFields w = .ok i ∧ exec i s = .fault f)) := by
  unfold step at h
  split at h
  · next he => cases h; exact .inl he
  next he =>
  refine .inr ⟨he, ?_⟩
  split at h
  · next hf => cases h; exact .inl hf
  next w hf =>
  split at h
  · next hd =>
    cases h
    refine .inr (.inl ⟨w, hf, hd, ?_⟩)
    unfold decodeStep at hd
    split at hd <;> cases hd
    rfl
  next i hd =>
  split at h <;> cases h
  next hx => exact .inr (.inr ⟨w, i, hf, decodeStep_ok.1 hd, hx⟩)

/-- Why a fetch fails (R44). -/
theorem fetch_error {s : State} {f : Fault} (h : fetch s = .error f) :
    f = .misalignedFetch s.pc ∨ f = .accessFault s.pc := by
  unfold fetch at h
  split at h
  · cases h; exact .inl rfl
  split at h <;> cases h
  exact .inr rfl

/-- The step of a state that runs the instruction `i`. -/
theorem step_of_decode {s : State} {w : Code} {i : Instr} (he : s.ending = none) (hf : fetch s = .ok w)
    (hd : decode s.cfg.strictFixedFields w = .ok i) :
    step s =
      match exec i s with
      | .next t => .next (retire i t)
      | .fault f => .fault f
      | .refused r => .refused r := by
  cases hx : exec i s <;> simp only [step, he, hf, decodeStep_ok.2 hd, hx]

theorem retire_hcf (s : State) : retire .hcf s = s := rfl

theorem retire_of_ne {i : Instr} (h : i ≠ .hcf) (s : State) :
    retire i s = s.count.latchStackLimit (stackCheckFires s) := by simp [retire, h]

end Sys2Proof.Machine
end

