-- ==== Sys2Proof/Laws/Frames.lean ====
section
/-! SUPPORT. Laws/Frames.lean: the frames of the shared operations, in the terms of Safety.lean. -/

namespace Sys2Proof.Machine

theorem pcAdvanced_advance (s : State) : PcAdvanced s s.advance := by
  simp [PcAdvanced, BitVec.toNat_add]
  cases s.cfg.xlen <;> simp [XLen.bits]

/-- Writing r[d] and advancing pc changes nothing else. -/
theorem computeFrame_setReg (d : Reg) (v : Word) (s : State) :
    ComputeFrame d s ((s.setReg d v).advance) := by
  refine ⟨fun i hi => ?_, fun _ => rfl, ⟨rfl, rfl⟩, ⟨rfl, rfl, rfl, rfl, rfl, rfl⟩,
    pcAdvanced_advance (s.setReg d v)⟩
  simp [RegFile.get_set_other _ _ hi]

theorem reg_computed_same (d : Reg) (v : Word) (s : State) :
    ((s.setReg d v).advance).reg d = trim s.cfg.xlen v := State.reg_setReg_same s d v

theorem reg_computed_other {d r : Reg} (v : Word) (s : State) (h : r ≠ d) :
    ((s.setReg d v).advance).reg r = s.reg r := State.reg_setReg_other s v h

/-- Writing `n` bytes from `a` and advancing pc changes nothing else. -/
theorem storeFrame_writeBytes (s : State) (h : s.mem.wf = true) (a n : Nat) (v : Word) :
    StoreFrame a n s ((s.setMem (writeBytes s.mem a n v)).advance) :=
  ⟨fun _ => rfl, fun _ hk => readByte_writeBytes_outside h a n v hk, ⟨rfl, rfl⟩,
    ⟨rfl, rfl, rfl, rfl, rfl, rfl⟩, pcAdvanced_advance (s.setMem _)⟩

/-- What a branch answers. -/
theorem branch_frame (taken : Bool) (target : Word) (s : State) :
    ∃ t : State, branch taken target s = .next t ∧ BranchFrame s t ∧
      t.pc = if taken then trim s.cfg.xlen target else s.advance.pc := by
  cases taken <;>
    exact ⟨_, rfl, ⟨fun _ => rfl, fun _ => rfl, ⟨rfl, rfl⟩, ⟨rfl, rfl, rfl, rfl, rfl, rfl⟩⟩, rfl⟩

/-- A device read consumes input and writes r[d], nothing else. -/
theorem inputFrame_setInput (s : State) (rest : List Int) (d : Reg) (v : Word) :
    let t := ((s.setInput rest).setReg d v).advance
    OnlyRegister d s t ∧ SameMemory s t ∧ SameEnvironment s t ∧ PcAdvanced s t := by
  refine ⟨fun i hi => ?_, fun _ => rfl, ⟨rfl, rfl, rfl, rfl, rfl, rfl⟩,
    pcAdvanced_advance ((s.setInput rest).setReg d v)⟩
  simp [RegFile.get_set_other _ _ hi]

theorem isZero_eq (v : Word) : isZero v = decide (v.toNat = 0) := by
  rw [isZero, Bool.eq_iff_iff]
  simp
  exact ⟨fun h => by rw [h]; rfl, fun h => BitVec.eq_of_toNat_eq h⟩

end Sys2Proof.Machine
end

