-- ==== Sys2Proof/Laws/Loader.lean ====
section
/-! SUPPORT. Laws/Loader.lean: what State.initial answers, said once. -/

namespace Sys2Proof.Machine

/-- The initial state of an image that fits (R36, R321). -/
theorem initial_some {cfg : Config} {image : List Code} {input : List Int} {s : State}
    (h : State.initial cfg image input = some s) :
    2 * image.length + 2 ≤ cfg.memSize ∧ s.cfg = cfg ∧ s.regs = initialRegs cfg ∧ s.pc = 0#32 ∧
      s.mem = placeWords [] 0 image ∧ s.halted = false ∧ s.stackLimitHit = false ∧ s.fault = none ∧
      s.stackLimit = 2 * image.length + 2 ∧ s.cycles = 0 ∧ s.output = [] ∧ s.input = input := by
  unfold State.initial at h
  split at h
  · next hf =>
    simp only [imageFits, decide_eq_true_eq] at hf
    cases h
    exact ⟨hf, rfl, rfl, rfl, rfl, rfl, rfl, rfl, rfl, rfl, rfl, rfl⟩
  · cases h

/-- The memory of an initial state is in canonical form. -/
theorem initial_mem_wf {cfg : Config} {image : List Code} {input : List Int} {s : State}
    (h : State.initial cfg image input = some s) : s.mem.wf = true := by
  obtain ⟨-, -, -, -, hm, -⟩ := initial_some h
  rw [hm]
  exact placeWords_wf rfl 0 image

end Sys2Proof.Machine
end

