-- ==== Sys2Proof/Laws/PerInstr.lean ====
section
/-! SUPPORT. Laws/PerInstr.lean: statements for all instructions, one lemma per constructor. FormatBit: bit 11 of an
instruction's word is 0 in the R format and 1 in the I format (30_encoding.md R73). -/

namespace Sys2Proof.Laws

/-- Whether an instruction has the I format, that is an 8-bit immediate in place of RsA, RsB and Op2 (R72). -/
def usesImmediate : Instr → Bool
  | .andR _ _ _ | .orR _ _ _ | .xorR _ _ _ | .sltR _ _ _ | .sltuR _ _ _ | .addR _ _ _ => false
  | .subR _ _ _ | .lsr _ _ _ | .asr _ _ _ | .ldb _ _ _ | .stb _ _ _ | .ldw _ _ _ => false
  | .stw _ _ _ | .bezR _ _ _ | .bezRAsm _ _ _ | .bnzR _ _ _ | .bnzRAsm _ _ _ => false
  | .andI _ _ | .orI _ _ | .xorI _ _ | .sltI _ _ | .sltuI _ _ | .addI _ _ => true
  | .subI _ _ | .ldr _ _ | .ldc _ _ | .bezI _ _ | .bnzI _ _ => true
  | .hcf => false

/-- "As instruções do tipo R possuem o campo Imm com o valor fixo em 0", and those of type I in 1 (R73). -/
def FormatBit.Statement (i : Instr) : Prop :=
  (encode i).getLsbD 11 = usesImmediate i

theorem getLsbD_eleven (w : Code) : w.getLsbD 11 = (fieldImm w == 1#1) := by
  have h : (fieldImm w).getLsbD 0 = w.getLsbD 11 := by
    simp [fieldImm]
  rw [← h]
  generalize fieldImm w = f
  revert f
  decide

theorem formatBit_encodeR (opc : BitVec 4) (op2 : BitVec 2) (d a b : Reg) :
    (encodeR opc op2 d a b).getLsbD 11 = false := by rw [getLsbD_eleven, fieldImm_encodeR]; rfl

theorem formatBit_encodeI (opc : BitVec 4) (d : Reg) (v : Imm8) :
    (encodeI opc d v).getLsbD 11 = true := by rw [getLsbD_eleven, fieldImm_encodeI]; rfl

theorem FormatBit.andR (rst rsa rsb : Reg) : FormatBit.Statement (.andR rst rsa rsb) :=
  formatBit_encodeR _ _ _ _ _
theorem FormatBit.andI (rst : Reg) (imm8 : Imm8) : FormatBit.Statement (.andI rst imm8) :=
  formatBit_encodeI _ _ _
theorem FormatBit.orR (rst rsa rsb : Reg) : FormatBit.Statement (.orR rst rsa rsb) :=
  formatBit_encodeR _ _ _ _ _
theorem FormatBit.orI (rst : Reg) (imm8 : Imm8) : FormatBit.Statement (.orI rst imm8) :=
  formatBit_encodeI _ _ _
theorem FormatBit.xorR (rst rsa rsb : Reg) : FormatBit.Statement (.xorR rst rsa rsb) :=
  formatBit_encodeR _ _ _ _ _
theorem FormatBit.xorI (rst : Reg) (imm8 : Imm8) : FormatBit.Statement (.xorI rst imm8) :=
  formatBit_encodeI _ _ _
theorem FormatBit.sltR (rst rsa rsb : Reg) : FormatBit.Statement (.sltR rst rsa rsb) :=
  formatBit_encodeR _ _ _ _ _
theorem FormatBit.sltI (rst : Reg) (imm8 : Imm8) : FormatBit.Statement (.sltI rst imm8) :=
  formatBit_encodeI _ _ _
theorem FormatBit.sltuR (rst rsa rsb : Reg) : FormatBit.Statement (.sltuR rst rsa rsb) :=
  formatBit_encodeR _ _ _ _ _
theorem FormatBit.sltuI (rst : Reg) (imm8 : Imm8) : FormatBit.Statement (.sltuI rst imm8) :=
  formatBit_encodeI _ _ _
theorem FormatBit.addR (rst rsa rsb : Reg) : FormatBit.Statement (.addR rst rsa rsb) :=
  formatBit_encodeR _ _ _ _ _
theorem FormatBit.addI (rst : Reg) (imm8 : Imm8) : FormatBit.Statement (.addI rst imm8) :=
  formatBit_encodeI _ _ _
theorem FormatBit.subR (rst rsa rsb : Reg) : FormatBit.Statement (.subR rst rsa rsb) :=
  formatBit_encodeR _ _ _ _ _
theorem FormatBit.subI (rst : Reg) (imm8 : Imm8) : FormatBit.Statement (.subI rst imm8) :=
  formatBit_encodeI _ _ _
theorem FormatBit.ldr (rst : Reg) (imm8 : Imm8) : FormatBit.Statement (.ldr rst imm8) :=
  formatBit_encodeI _ _ _
theorem FormatBit.ldc (rst : Reg) (imm8 : Imm8) : FormatBit.Statement (.ldc rst imm8) :=
  formatBit_encodeI _ _ _
theorem FormatBit.lsr (rst rsa rsb : Reg) : FormatBit.Statement (.lsr rst rsa rsb) :=
  formatBit_encodeR _ _ _ _ _
theorem FormatBit.asr (rst rsa rsb : Reg) : FormatBit.Statement (.asr rst rsa rsb) :=
  formatBit_encodeR _ _ _ _ _
theorem FormatBit.ldb (rst rsa rsb : Reg) : FormatBit.Statement (.ldb rst rsa rsb) :=
  formatBit_encodeR _ _ _ _ _
theorem FormatBit.stb (rst rsa rsb : Reg) : FormatBit.Statement (.stb rst rsa rsb) :=
  formatBit_encodeR _ _ _ _ _
theorem FormatBit.ldw (rst rsa rsb : Reg) : FormatBit.Statement (.ldw rst rsa rsb) :=
  formatBit_encodeR _ _ _ _ _
theorem FormatBit.stw (rst rsa rsb : Reg) : FormatBit.Statement (.stw rst rsa rsb) :=
  formatBit_encodeR _ _ _ _ _
theorem FormatBit.bezR (rst rsa rsb : Reg) : FormatBit.Statement (.bezR rst rsa rsb) :=
  formatBit_encodeR _ _ _ _ _
theorem FormatBit.bezRAsm (rst rsa rsb : Reg) : FormatBit.Statement (.bezRAsm rst rsa rsb) :=
  formatBit_encodeR _ _ _ _ _
theorem FormatBit.bezI (rst : Reg) (imm8 : Imm8) : FormatBit.Statement (.bezI rst imm8) :=
  formatBit_encodeI _ _ _
theorem FormatBit.bnzR (rst rsa rsb : Reg) : FormatBit.Statement (.bnzR rst rsa rsb) :=
  formatBit_encodeR _ _ _ _ _
theorem FormatBit.bnzRAsm (rst rsa rsb : Reg) : FormatBit.Statement (.bnzRAsm rst rsa rsb) :=
  formatBit_encodeR _ _ _ _ _
theorem FormatBit.bnzI (rst : Reg) (imm8 : Imm8) : FormatBit.Statement (.bnzI rst imm8) :=
  formatBit_encodeI _ _ _
theorem FormatBit.hcf : FormatBit.Statement .hcf := by unfold FormatBit.Statement; decide

end Sys2Proof.Laws
end

