-- ==== Sys2Proof/Laws/Values.lean ====
section
/-! SUPPORT. Laws/Values.lean: the model's arithmetic in the terms of Safety.lean: signed values, sums, truth words,
decimal text. -/

namespace Sys2Proof.Machine

theorem fieldOfReg_toNat (r : Reg) : (fieldOfReg r).toNat = regIndex r := by cases r <;> rfl

theorem signedValue_x16 (v : Word) :
    signedValue .x16 v = if v.toNat < 32768 then (v.toNat : Int) else (v.toNat : Int) - 65536 := rfl

theorem signedValue_x32 (v : Word) :
    signedValue .x32 v =
      if v.toNat < 2147483648 then (v.toNat : Int) else (v.toNat : Int) - 4294967296 := rfl

/-- The bit-vector reading of `signed` is the one R11 writes. -/
theorem signed_eq_signedValue (x : XLen) (v : Word) (h : v.toNat < 2 ^ x.bits) :
    signed x v = signedValue x v := by
  cases x <;> simp only [XLen.bits] at h
  · rw [signedValue_x16, signed, BitVec.toInt_eq_toNat_cond]
    simp only [BitVec.toNat_setWidth, XLen.bits, Nat.mod_eq_of_lt h]
    split <;> split <;> omega
  · rw [signedValue_x32, signed, BitVec.toInt_eq_toNat_cond]
    simp only [BitVec.toNat_setWidth, XLen.bits, Nat.mod_eq_of_lt h]
    split <;> split <;> omega

theorem signed_reg (s : State) (r : Reg) :
    signed s.cfg.xlen (s.reg r) = signedValue s.cfg.xlen (s.reg r) :=
  signed_eq_signedValue _ _ (s.reg_lt r)

/-- A word that is a small integer mod 2^XLEN has that integer as its signed value. -/
theorem signedValue_of_mod (x : XLen) (v : Word) (z : Int) (h : (v.toNat : Int) = z % 2 ^ x.bits)
    (hz : -2 ^ 15 ≤ z ∧ z < 2 ^ 15) : signedValue x v = z := by
  cases x <;> simp only [XLen.bits] at h
  · rw [signedValue_x16]; split <;> omega
  · rw [signedValue_x32]; split <;> omega

theorem imm8_range (v : Imm8) : -128 ≤ v.toInt ∧ v.toInt < 128 := by
  have h1 := BitVec.le_toInt v
  have h2 := BitVec.toInt_lt (x := v)
  constructor <;> omega

theorem signed_signImm (s : State) (v : Imm8) : signed s.cfg.xlen (s.signImm v) = v.toInt := by
  have hr := imm8_range v
  rw [State.signImm, signed_eq_signedValue _ _ (by rw [sext8]; exact toNat_trim_lt _ _)]
  exact signedValue_of_mod _ _ _ (toNat_sext8 _ v) (by omega)

theorem toNat_trim_add (x : XLen) (a b : Word) :
    ((trim x (a + b)).toNat : Int) = (a.toNat + b.toNat : Int) % 2 ^ x.bits := by
  rw [toNat_trim, BitVec.toNat_add]
  have ha := a.isLt
  have hb := b.isLt
  cases x <;> simp only [XLen.bits] <;> omega

theorem toNat_trim_sub (x : XLen) (a b : Word) :
    ((trim x (a - b)).toNat : Int) = (a.toNat - b.toNat : Int) % 2 ^ x.bits := by
  rw [toNat_trim, BitVec.toNat_sub]
  have ha := a.isLt
  have hb := b.isLt
  cases x <;> simp only [XLen.bits] <;> omega

theorem toNat_truthWord (x : XLen) (c : Bool) : (trim x (truthWord c)).toNat = boolValue c := by
  cases c <;> simp [truthWord, boolValue]

theorem getLsbD_sext8 (x : XLen) (v : Imm8) {k : Nat} (hk : k < x.bits) :
    (sext8 x v).getLsbD k = sextBit v k := by
  have h := bits_le x
  rw [sext8, getLsbD_trim, BitVec.getLsbD_signExtend]
  simp only [hk, show k < 32 by omega, decide_true, Bool.true_and, sextBit]
  split
  · rw [show min k 7 = k by omega]
  · rw [show min k 7 = 7 by omega, BitVec.msb_eq_getLsbD_last]

/-- No bit of a register at or above XLEN is set. -/
theorem State.getLsbD_reg_high (s : State) (r : Reg) {k : Nat} (h : s.cfg.xlen.bits ≤ k) :
    (s.reg r).getLsbD k = false := by
  simp only [State.reg, getLsbD_trim]
  simp; intro; omega

/-! ### Decimal text (R295) -/

theorem digitByte_toNat (n : Nat) : (digitByte n).toNat = 0x30 + n % 10 := by
  simp [digitByte]; omega

theorem digitsNat_append (l : List Byte) (b : Byte) (acc : Nat) :
    digitsNat (l ++ [b]) acc = digitsNat l acc * 10 + (b.toNat - 0x30) := by
  induction l generalizing acc with
  | nil => rfl
  | cons c l ih => exact ih _

theorem decimalDigits_spec (fuel n : Nat) (h : n < fuel) : IsDecimalText n (decimalDigits fuel n) := by
  induction fuel generalizing n with
  | zero => omega
  | succ fuel ih =>
    rw [decimalDigits]
    split
    · next hn =>
      refine ⟨?_, ?_, by simp, fun h => by simpa using h⟩
      · intro b hb
        rw [List.mem_singleton.1 hb, digitByte_toNat]; omega
      · simp [digitsNat, digitByte_toNat]; omega
    · next hn =>
      obtain ⟨h1, h2, h3, h4⟩ := ih (n / 10) (by omega)
      refine ⟨?_, ?_, by simp, ?_⟩
      · intro b hb
        rcases List.mem_append.1 hb with hb | hb
        · exact h1 b hb
        · rw [List.mem_singleton.1 hb, digitByte_toNat]; omega
      · rw [digitsNat_append, h2, digitByte_toNat]; omega
      · intro h
        have hd : (decimalDigits fuel (n / 10)).head? = some 0x30#8 := by
          cases hd : decimalDigits fuel (n / 10) with
          | nil => exact absurd hd h3
          | cons c l => rw [hd] at h; simpa using h
        rw [h4 hd] at h2
        simp [digitsNat] at h2
        omega

end Sys2Proof.Machine
end

