-- ==== Sys2Proof/Machine/Routines.lean ====
section
/-! DEFINITION. Machine/Routines.lean: the software arithmetic of the manual, mulsi3, divsi3, modsi3 and udivmodsi4
(46_pseudo_ops.md R236, R238): the listings as printed, and the result each leaves in sr. This is software
convention, not hardware: no step of the machine uses it. The contract follows the listings, errata included
(90_conflicts.md C14). -/

namespace Sys2Proof.Machine

/-- Lines of assembly source as one text. -/
def sourceText (lines : List String) : Text := (lines.map fun l => l.toList ++ ['\n']).flatten

/-- Listing A.1. -/
def mulsi3Source : List String :=
  ["mulsi3", "\tsub sp,2", "\tstw r1,sp", "\tsub sp,2", "\tstw r2,sp", "\tsub sp,2", "\tstw r3,sp",
   "\tand r3,sp,sp", "\tadd r3,10", "\tldw r2,r3", "\tsub r3,2", "\tldw r3,r3", "\txor r1,r1,r1",
   "\tbez r3,14", "\tand sr,r3,r3", "\tand sr,1", "\tbez sr,2", "\tadd r1,r1,r2", "\tlsl r2,r2",
   "\tlsr r3,r3", "\tbnz r7,-16", "\tand sr,r1,r1", "\tldw r3,sp", "\tadd sp,2", "\tldw r2,sp",
   "\tadd sp,2", "\tldw r1,sp", "\tadd sp,2", "\tbnz r7,lr"]

/-- Listings A.2 and A.3 are one text but for the routine's name, its return label and the flag word pushed for
udivmodsi4: 0 asks for the quotient, 1 for the remainder (R238). -/
def signedDivisionSource (name flag : String) : List String :=
  [name, "\tsub sp,2", "\tstw r1,sp", "\tsub sp,2", "\tstw r2,sp", "\tsub sp,2", "\tstw r3,sp",
   "\tand r2,sp,sp", "\tadd r2,10", "\tldw r1,r2", "\tsub r2,2", "\tldw r2,r2", "\txor r3,r3,r3",
   "\txor at,at,at", "\tslt sr,r1,at", "\tbez sr,4", "\tsub r1,at,r1", "\tor r3,1",
   "\tslt sr,r2,at", "\tbez sr,4", "\tsub r2,at,r2", "\txor r3,1", "\tsub sp,2", "\tstw r1,sp",
   "\tsub sp,2", "\tstw r2,sp", "\tsub sp,2", "\tldr sr," ++ flag, "\tstw sr,sp", "\tsub sp,2",
   "\tstw lr,sp", "\tldi lr,ret_" ++ name, "\tldi sr,udivmodsi4", "\tbnz r7,sr", "ret_" ++ name,
   "\tldw lr,sp", "\tadd sp,8", "\tbez r3,4", "\txor at,at,at", "\tsub sr,at,sr", "\tldw r3,sp",
   "\tadd sp,2", "\tldw r2,sp", "\tadd sp,2", "\tldw r1,sp", "\tadd sp,2", "\tbnz r7,lr"]

/-- Listing A.2. -/
def divsi3Source : List String := signedDivisionSource "divsi3" "0"

/-- Listing A.3. -/
def modsi3Source : List String := signedDivisionSource "modsi3" "1"

/-- Listing A.4, as printed in both editions (C14). -/
def udivmodsi4Source : List String :=
  ["udivmodsi4", "\tsub sp,2", "\tstw r1,sp", "\tsub sp,2", "\tstw r2,sp", "\tsub sp,2",
   "\tstw r3,sp", "\tsub sp,2", "\tstw r4,sp", "\tldr r3,1", "\txor r4,r4,r4", "\tand r2,sp,sp",
   "\tadd r2,14", "\tldw r1,r2", "\tsub r2,2", "\tldw r2,r2", "\tsltu sr,r2,r1", "\tbez sr,8",
   "\tbez r3,6", "\tlsl r2,r2", "\tlsl r3,r3", "\tbnz r7,-12", "\tsltu sr,r1,r2", "\tbnz sr,4",
   "\tsub r1,r1,r2", "\tadd r4,r4,r3", "\tlsr r3,r3", "\tlsr r2,r2", "\tbnz r3,-14",
   "\tand sr,sp,sp", "\tadd sr,10", "\tldw sr,sr", "\tbez sr,4", "\tand sr,r1,r1", "\tbez sr,2",
   "\tand sr,r4,r4", "\tldw r4,sp", "\tadd sp,2", "\tldw r3,sp", "\tadd sp,2", "\tldw r2,sp",
   "\tadd sp,2", "\tldw r1,sp", "\tadd sp,2", "\tbnz r7,lr"]

/-- mulsi3: the low XLEN bits of first × second (R238). -/
def mulsi3Result (x : XLen) (a b : Word) : Word := trim x (trim x a * trim x b)

/-- The quotient udivmodsi4 computes, 0 for a zero divisor (R238). -/
def udivQuotient (x : XLen) (a b : Word) : Word := trim x a / trim x b

/-- The remainder udivmodsi4 computes, the dividend for a zero divisor (R238). -/
def udivRemainder (x : XLen) (a b : Word) : Word := trim x a % trim x b

/-- What udivmodsi4 returns: the quotient for flag 0; for a non-zero flag, as printed, the remainder only when it
is zero, else the quotient (R238, C14). R238's words and the printed listing disagree on some operands: run by hand the
listing gives quotient 1 for 0 by 0, where R238 says quotient 0 for a zero divisor, and, since mask and divisor shift
out for some dividends above 2^(XLEN-1), quotient 0 for 0xFFFF by 1. This function takes R238's words there, 0 and 0xFFFF
(DESIGN CHOICE, log entry 19); the listing itself is udivmodsi4Source. -/
def udivmodsi4Result (x : XLen) (a b flag : Word) : Word :=
  if flag = 0#32 then udivQuotient x a b
  else if udivRemainder x a b = 0#32 then 0#32
  else udivQuotient x a b

/-- The absolute value that divsi3 and modsi3 form: 0 minus a negative operand, mod 2^XLEN (R238). -/
def absoluteValue (x : XLen) (a : Word) : Word := if signed x a < 0 then trim x (0#32 - a) else trim x a

/-- divsi3 (flag 0) and modsi3 (flag 1): udivmodsi4 of the absolute values, negated when exactly one operand was
negative (R238). -/
def signedDivisionResult (x : XLen) (a b flag : Word) : Word :=
  let r := udivmodsi4Result x (absoluteValue x a) (absoluteValue x b) flag
  if decide (signed x a < 0) != decide (signed x b < 0) then trim x (0#32 - r) else r

/-- divsi3 (R238). -/
def divsi3Result (x : XLen) (a b : Word) : Word := signedDivisionResult x a b 0#32

/-- modsi3, as printed (R238, C14). -/
def modsi3Result (x : XLen) (a b : Word) : Word := signedDivisionResult x a b 1#32

end Sys2Proof.Machine
end

