-- ==== Sys2Proof/Tests/Slice0.lean ====
section
/-! SUPPORT. Tests/Slice0.lean: small tests. Words and results come from spec/95_test_vectors.md and the rules it names,
not from the model; each witness theorem shows that the hypotheses of the obligation it is named after can be met. -/

namespace Sys2Proof.Machine.Tests

/-! ### WellFormed: each check refuses an ill-formed term (R82) -/

theorem test_illformed_lsr : (Instr.lsr .r1 .r2 .r1).wellFormed true = false := by decide
theorem test_illformed_asr : (Instr.asr .r1 .r2 .r7).wellFormed true = false := by decide
theorem test_illformed_ldb : (Instr.ldb .r1 .r1 .r2).wellFormed true = false := by decide
theorem test_illformed_ldw : (Instr.ldw .r3 .r1 .r2).wellFormed true = false := by decide
theorem test_illformed_stb : (Instr.stb .r1 .r2 .r3).wellFormed true = false := by decide
theorem test_illformed_stw : (Instr.stw .r1 .r1 .r2).wellFormed true = false := by decide
theorem test_illformed_bezR : (Instr.bezR .r1 .r2 .r3).wellFormed true = false := by decide
theorem test_illformed_bezRAsm : (Instr.bezRAsm .r4 .r2 .r3).wellFormed true = false := by decide
theorem test_illformed_bnzR : (Instr.bnzR .r7 .r0 .r0).wellFormed true = false := by decide
theorem test_illformed_bnzRAsm : (Instr.bnzRAsm .r1 .r7 .r6).wellFormed true = false := by decide
theorem test_lenient_accepts : (Instr.ldw .r3 .r1 .r2).wellFormed false = true := by decide

/-! ### Decode: every constructor's word, written field by field from R78 and R79 -/

/-- Opcode, Imm, Rst, RsA, RsB, Op2 written side by side (R71). -/
theorem test_decode_andR : decode true 0b0000_0_010_011_100_00#16 = .ok (.andR .r2 .r3 .r4) := by decide
theorem test_decode_orR : decode true 0b0001_0_001_010_011_00#16 = .ok (.orR .r1 .r2 .r3) := by decide
theorem test_decode_xorR : decode true 0b0010_0_011_001_010_00#16 = .ok (.xorR .r3 .r1 .r2) := by decide
theorem test_decode_sltR : decode true 0b0011_0_011_001_010_00#16 = .ok (.sltR .r3 .r1 .r2) := by decide
theorem test_decode_sltuR : decode true 0b0100_0_001_010_011_00#16 = .ok (.sltuR .r1 .r2 .r3) := by decide
theorem test_decode_addR : decode true 0b0101_0_011_001_010_00#16 = .ok (.addR .r3 .r1 .r2) := by decide
theorem test_decode_subR : decode true 0b0110_0_001_000_001_00#16 = .ok (.subR .r1 .r0 .r1) := by decide
theorem test_decode_lsr : decode true 0b0000_0_101_011_000_01#16 = .ok (.lsr .r5 .r3 .r0) := by decide
theorem test_decode_asr : decode true 0b0001_0_001_010_000_01#16 = .ok (.asr .r1 .r2 .r0) := by decide
theorem test_decode_ldb : decode true 0b0000_0_011_000_010_10#16 = .ok (.ldb .r3 .r0 .r2) := by decide
theorem test_decode_stb : decode true 0b0001_0_000_011_100_10#16 = .ok (.stb .r0 .r3 .r4) := by decide
theorem test_decode_ldw : decode true 0b0100_0_001_000_010_10#16 = .ok (.ldw .r1 .r0 .r2) := by decide
theorem test_decode_stw : decode true 0b0101_0_000_001_010_10#16 = .ok (.stw .r0 .r1 .r2) := by decide
theorem test_decode_bezR : decode true 0b1010_0_000_010_011_11#16 = .ok (.bezR .r0 .r2 .r3) := by decide
theorem test_decode_bezRAsm : decode true 0b1010_0_000_010_011_00#16 = .ok (.bezRAsm .r0 .r2 .r3) := by decide
theorem test_decode_bnzR : decode true 0b1011_0_000_001_000_11#16 = .ok (.bnzR .r0 .r1 .r0) := by decide
theorem test_decode_bnzRAsm : decode true 0b1011_0_000_111_110_00#16 = .ok (.bnzRAsm .r0 .r7 .r6) := by decide
theorem test_decode_hcf : decode true 0b0000_0_000_000_000_11#16 = .ok .hcf := by decide
/-- Opcode, Imm, Rst, Immediate written side by side (R72). -/
theorem test_decode_andI : decode true 0b0000_1_101_00000001#16 = .ok (.andI .r5 1#8) := by decide
theorem test_decode_orI : decode true 0b0001_1_010_00000001#16 = .ok (.orI .r2 1#8) := by decide
theorem test_decode_xorI : decode true 0b0010_1_101_11111111#16 = .ok (.xorI .r5 0xFF#8) := by decide
theorem test_decode_sltI : decode true 0b0011_1_100_00001010#16 = .ok (.sltI .r4 10#8) := by decide
theorem test_decode_sltuI : decode true 0b0100_1_001_00000001#16 = .ok (.sltuI .r1 1#8) := by decide
theorem test_decode_addI : decode true 0b0101_1_101_00001010#16 = .ok (.addI .r5 10#8) := by decide
theorem test_decode_subI : decode true 0b0110_1_001_00000001#16 = .ok (.subI .r1 1#8) := by decide
theorem test_decode_ldr : decode true 0b1000_1_011_00000101#16 = .ok (.ldr .r3 5#8) := by decide
theorem test_decode_ldc : decode true 0b1001_1_011_00001010#16 = .ok (.ldc .r3 10#8) := by decide
theorem test_decode_bezI : decode true 0b1010_1_100_00011100#16 = .ok (.bezI .r4 28#8) := by decide
theorem test_decode_bnzI : decode true 0b1011_1_010_11111010#16 = .ok (.bnzI .r2 0xFA#8) := by decide

/-- Reserved words of 95_test_vectors.md section 3. -/
theorem test_reserved_op2_11 : decode true 0x0103#16 = .error (.reservedOpcode 0x0103#16) := by decide
theorem test_reserved_op2_01 : decode true 0x2001#16 = .error (.reservedOpcode 0x2001#16) := by decide
theorem test_reserved_op2_10 : decode true 0x3002#16 = .error (.reservedOpcode 0x3002#16) := by decide
theorem test_reserved_op2_00 : decode true 0x8000#16 = .error (.reservedOpcode 0x8000#16) := by decide
theorem test_reserved_immediate : decode true 0x7800#16 = .error (.reservedOpcode 0x7800#16) := by decide
/-- Fixed fields of the same section. -/
theorem test_fixed_field_lsr : decode true 0x0005#16 = .error (.fixedField 0x0005#16) := by decide
theorem test_fixed_field_bnz : decode true 0xB703#16 = .error (.fixedField 0xB703#16) := by decide
theorem test_decode_table_word : decodeTableWord 16 0x0270 = some (.andR .r2 .r3 .r4) := by decide

/-! ### One step of each instruction: 95_test_vectors.md sections 2.1 to 2.7, at pc = 0x0100 -/

/-- The reset state at pc = 0x0100 with two registers set. -/
def start (a : Reg) (v : Word) (b : Reg) (w : Word) : State :=
  ((State.reset.setPc 0x100#32).setReg a v).setReg b w

/-- The same state of the 32-bit variant. -/
def startWide (a : Reg) (v : Word) (b : Reg) (w : Word) : State :=
  ((({ State.reset with cfg := Config.wide }).setPc 0x100#32).setReg a v).setReg b w

/-- Two bytes at 0x0200. -/
def withBytes (s : State) (b0 b1 : Byte) : State := s.setMem (placeBytes s.mem 0x200 [b0, b1])

/-- One register and pc after the instruction word has run. -/
def after (s : State) (code : Nat) (r : Reg) : Option (Word × Word) :=
  match step (s.withFetchWord 16 code) with
  | .next t => some (t.reg r, t.pc)
  | _ => none

/-- The fault the instruction word raises. -/
def faultAfter (s : State) (code : Nat) : Option Fault :=
  match step (s.withFetchWord 16 code) with
  | .fault f => some f
  | _ => none

/-- The output written, and two bytes of memory, after the instruction word has run. -/
def wrote (s : State) (code : Nat) : Option (List Byte × Byte × Byte) :=
  match step (s.withFetchWord 16 code) with
  | .next t => some (t.output, readByte t.mem 0x200, readByte t.mem 0x201)
  | _ => none

theorem test_andR :
    after (start .r3 0xF0F0#32 .r4 0x3C3C#32) 0x0270 .r2 = some (0x3030#32, 0x102#32) := by decide
theorem test_andI : after (start .r1 0xABCD#32 .r0 0#32) 0x09FF .r1 = some (0x00CD#32, 0x102#32) := by decide
theorem test_orR :
    after (start .r2 0x00F0#32 .r3 0x0F00#32) 0x114C .r1 = some (0x0FF0#32, 0x102#32) := by decide
theorem test_orI : after (start .r1 0x1200#32 .r0 0#32) 0x19FF .r1 = some (0x12FF#32, 0x102#32) := by decide
theorem test_xorR :
    after (start .r1 0xFF00#32 .r2 0x0FF0#32) 0x2328 .r3 = some (0xF0F0#32, 0x102#32) := by decide
theorem test_xorI : after (start .r1 0#32 .r0 0#32) 0x2980 .r1 = some (0xFF80#32, 0x102#32) := by decide
theorem test_xorI_wide :
    after (startWide .r1 0x12345678#32 .r0 0#32) 0x29FF .r1 = some (0xEDCBA987#32, 0x102#32) := by decide
theorem test_sltR : after (start .r1 0x8000#32 .r2 0x7FFF#32) 0x3328 .r3 = some (1#32, 0x102#32) := by decide
theorem test_sltI : after (start .r4 0xFFF6#32 .r0 0#32) 0x3C0A .r4 = some (1#32, 0x102#32) := by decide
theorem test_sltuR : after (start .r1 0xFFFF#32 .r2 1#32) 0x4328 .r3 = some (0#32, 0x102#32) := by decide
theorem test_sltuI : after (start .r1 0xFF7F#32 .r0 0#32) 0x4980 .r1 = some (1#32, 0x102#32) := by decide
theorem test_addR : after (start .r1 0xFFFF#32 .r2 1#32) 0x5328 .r3 = some (0#32, 0x102#32) := by decide
theorem test_addI : after (start .r1 0#32 .r0 0#32) 0x5980 .r1 = some (0xFF80#32, 0x102#32) := by decide
theorem test_subR : after (start .r1 3#32 .r2 5#32) 0x6328 .r3 = some (0xFFFE#32, 0x102#32) := by decide
theorem test_subI : after (start .r1 0#32 .r0 0#32) 0x6980 .r1 = some (0x0080#32, 0x102#32) := by decide
theorem test_ldr : after (start .r1 0#32 .r0 0#32) 0x8980 .r1 = some (0xFF80#32, 0x102#32) := by decide
theorem test_ldc : after (start .r3 0x1234#32 .r0 0#32) 0x9B0A .r3 = some (0x340A#32, 0x102#32) := by decide
theorem test_ldc_wide :
    after (startWide .r1 0xAB123456#32 .r0 0#32) 0x9978 .r1 = some (0x12345678#32, 0x102#32) := by decide
theorem test_lsr :
    after (start .r3 0x8003#32 .r0 0x5555#32) 0x0561 .r5 = some (0x4001#32, 0x102#32) := by decide
theorem test_asr : after (start .r2 0x8003#32 .r0 0#32) 0x1141 .r1 = some (0xC001#32, 0x102#32) := by decide
theorem test_ldb :
    after (withBytes (start .r2 0x201#32 .r0 0#32) 0x41#8 0xC8#8) 0x030A .r3 =
      some (0xFFC8#32, 0x102#32) := by decide
theorem test_ldb_fault :
    faultAfter (start .r2 0xF004#32 .r0 0#32) 0x030A = some (.accessFault 0xF004#32) := by decide
theorem test_stb :
    wrote (withBytes (start .r3 0x120A#32 .r4 0x201#32) 0x41#8 0x42#8) 0x1072 =
      some ([], 0x41#8, 0x0A#8) := by decide
theorem test_stb_fault :
    faultAfter (start .r3 0x41#32 .r4 0xF000#32) 0x1072 = some (.accessFault 0xF000#32) := by decide
theorem test_ldw :
    after (withBytes (start .r2 0x200#32 .r0 0#32) 0x12#8 0x34#8) 0x410A .r1 =
      some (0x1234#32, 0x102#32) := by decide
theorem test_ldw_integer :
    after { start .r2 0xF006#32 .r0 0#32 with input := [70000] } 0x410A .r1 =
      some (0x1170#32, 0x102#32) := by decide
theorem test_stw : wrote (start .r1 0x1234#32 .r2 0x200#32) 0x502A = some ([], 0x12#8, 0x34#8) := by decide
/-- 0x8000 prints `-32768`. -/
theorem test_stw_integer : wrote (start .r1 0x8000#32 .r2 0xF002#32) 0x502A =
    some ([0x2D#8, 0x33#8, 0x32#8, 0x37#8, 0x36#8, 0x38#8], 0#8, 0#8) := by decide
theorem test_bezR : after (start .r2 0#32 .r3 0x40#32) 0xA04F .r2 = some (0#32, 0x40#32) := by decide
theorem test_bezRAsm : after (start .r2 1#32 .r3 0x40#32) 0xA04C .r2 = some (1#32, 0x102#32) := by decide
theorem test_bezI : after (start .r4 0#32 .r0 0#32) 0xAC1C .r4 = some (0#32, 0x11E#32) := by decide
theorem test_bezI_wide :
    after ((startWide .r4 0#32 .r0 0#32).setPc 0x10#32) 0xAC80 .r4 = some (0#32, 0xFFFFFF92#32) := by decide
theorem test_bnzR : after (start .r0 8#32 .r1 8#32) 0xB023 .r1 = some (8#32, 8#32) := by decide
theorem test_bnzRAsm : after (start .r6 0x35#32 .r0 0#32) 0xB0F8 .r6 = some (0x35#32, 0x35#32) := by decide
theorem test_bnzI : after (start .r2 1#32 .r0 0#32) 0xBAFA .r2 = some (1#32, 0xFC#32) := by decide
theorem test_bnzI_not_taken : after (start .r2 0#32 .r0 0#32) 0xBAFA .r2 = some (0#32, 0x102#32) := by decide
/-- HCF: pc stays and the instruction is not counted (R180). -/
theorem test_hcf : (match step (State.reset.withFetchWord 16 3) with
    | .next t => decide (t.pc = 0#32 ∧ t.cycles = 0 ∧ outcome t = .halted)
    | _ => false) = true := by decide

/-! ### Faults and the environment: 95_test_vectors.md section 5 -/

theorem test_misaligned_before_range :
    faultAfter (start .r2 0xE001#32 .r0 0#32) 0x410A = some (.misalignedAccess 0xE001#32) := by decide
theorem test_illegal_before_misaligned :
    faultAfter (start .r2 0x201#32 .r0 0#32) 0x432A = some (.illegalInstruction 0x432A#16) := by decide
theorem test_input_exhausted :
    faultAfter (start .r2 0xF006#32 .r0 0#32) 0x410A = some .inputExhausted := by decide
/-- `ldr r7,0` completes and is counted, then the stack check ends the run. -/
theorem test_stack_limit : (match step (State.reset.withFetchWord 16 0x8F00) with
    | .next t => decide (t.pc = 2#32 ∧ t.cycles = 1 ∧ outcome t = .stackLimit)
    | _ => false) = true := by decide

/-! ### Assembler and conventions -/

/-- `ldi r1,0x1234` and `ldw rX,label`, assembled (95_test_vectors.md section 4, R196, R206). -/
theorem test_assemble_ldi :
    imageOf (assemble (sourceText ["\tldi r1,0x1234"])) = some [0x9912#16, 0x9934#16] := by decide
theorem test_assemble_label :
    imageOf (assemble (sourceText ["\tldw r1,v", "v 0x8142"])) =
      some [0x9800#16, 0x9806#16, 0x4102#16, 0x8142#16] := by decide
/-- A mnemonic of group (c) makes an error line (R190). -/
theorem test_assemble_error : imageOf (assemble (sourceText ["\tseq r1,r2,r3"])) = none := by decide
/-- Lines of Listing 3.3: a label of its own, the halves of LDI, a label with its datum (95_test_vectors.md 1.5). -/
theorem test_debug_listing :
    debugListing (sourceText ["main", "\tldi r1,9", "\thcf", "writec 0xf000"]) =
      sourceText ["     main", "0000 9900     ldc0 r1,9", "0002 9909     ldc1 r1,9",
        "0004 0003     hcf r0,r0,r0", "0006 f000     writec 0xf000"] := by decide
/-- The call of R266 and the frame it leaves: the first parameter is pushed last (R264, R265). -/
theorem test_call_words :
    (callSequence .x16 [.r1] 0x30#32 0x10#32).map encode =
      [0x6F02#16, 0x503E#16, 0x6F02#16, 0x50DE#16, 0x9E00#16, 0x9E10#16, 0x9D00#16, 0x9D30#16, 0xB0F4#16] ∧
    (callSequence .x16 [.r1, .r2] 0#32 0#32).take 2 = push16 .r2 ∧
    (afterCall .x16 1).map encode = [0x461E#16, 0x5F04#16] := by decide
/-- The second way of R265, and 4-byte stack words with 32-bit registers (R261). -/
theorem test_call_other_forms :
    afterCallByPop .x16 1 = [.ldw .r6 .r0 .r7, .addI .r7 2#8, .addI .r7 2#8] ∧
    (callSequence .x32 [.r1] 0#32 0#32).take 2 = [.subI .r7 4#8, .stw .r0 .r1 .r7] ∧
    afterCall .x32 1 = [.ldw .r6 .r0 .r7, .addI .r7 8#8] ∧
    parameterOffset .x16 2 1 1 = 6 ∧ parameterOffset .x32 2 1 1 = 12 := by decide
/-- vet[3] = 123 of R270, with vet at 0x1234. -/
theorem test_store_integer : storeInteger .x16 0x1234#32 3#8 123#32 =
    expand (.ldi .r4 0x1234#16) ++ [.addI .r4 3#8, .addI .r4 3#8] ++ expand (.ldi .r3 123#16) ++
      expand (.stw .r3 .r4) := by decide
/-- PUSH r1 and POP r1 (R261). -/
theorem test_push_words : (push .x16 .r1 ++ pop .x16 .r1).map encode =
    [0x6F02#16, 0x503E#16, 0x411E#16, 0x5F02#16] := by decide
/-- modsi3 as printed answers the quotient 2 for 7 and 3 (96_programs.md P5, C14). -/
theorem test_modsi3_as_printed : modsi3Result .x16 7#32 3#32 = 2#32 := by decide
/-- The debug line of R303. -/
theorem test_debug_line : (debugLines (.addI .r5 10#8) (State.reset.setPc 0x100#32) State.reset).head? =
    some (asciiBytes "pc: 0100 instruction: add r5,10") := by decide

/-! ### Witnesses: states and operands that meet the hypotheses of the obligation named, at the edges of each clause -/

/-- Whether an outcome is a next state. -/
def completes (o : Result) : Bool :=
  match o with
  | .next _ => true
  | _ => false

/-- Whether an outcome is this fault. -/
def faults (o : Result) (f : Fault) : Bool :=
  match o with
  | .fault g => g == f
  | _ => false

/-- Both columns of R9 are address maps. -/
theorem witness_reference_wellFormed : Config.reference.WellFormed := by
  constructor <;> simp [Config.reference, Config.devices, XLen.bits, XLen.wordBytes]
theorem witness_wide_wellFormed : Config.wide.WellFormed := by
  constructor <;> simp [Config.wide, Config.devices, XLen.bits, XLen.wordBytes]
/-- An address map that is neither column: 32 bits, one page of RAM, a device next to it. -/
theorem witness_other_wellFormed :
    { Config.wide with memSize := 0x1000, spInit := 0xFFC#32, outChar := 0x1000#32 }.WellFormed := by
  constructor <;> simp [Config.wide, Config.devices, XLen.bits, XLen.wordBytes]
/-- Each condition refuses some parameters: an odd RAM, a device inside RAM, two devices at one address. -/
theorem test_illformed_config :
    ¬ { Config.reference with memSize := 0xDFFF }.WellFormed ∧
      ¬ { Config.reference with inInt := 0x8000#32 }.WellFormed ∧
      ¬ { Config.reference with outInt := 0xF000#32 }.WellFormed :=
  ⟨fun h => absurd h.ramOfWords (by decide), fun h => absurd (h.deviceOutsideRam 0x8000#32 (by decide)) (by decide),
    fun h => absurd h.devicesDistinct (by decide)⟩

theorem witness_DecodeInvertsEncode :
    (Instr.lsr .r7 .r0 .r0).wellFormed true = true ∧ (Instr.lsr .r7 .r0 .r7).wellFormed false = true := by decide

theorem witness_EncodeInvertsDecode : decode true 0x0561#16 = .ok (.lsr .r5 .r3 .r0) := by decide

theorem witness_ReservedWordsAreIllegal :
    (State.reset.withFetchWord 16 0x7000).ending = none ∧
      (State.reset.withFetchWord 16 0x7000).cfg.strictFixedFields = true ∧
      fetch (State.reset.withFetchWord 16 0x7000) = .ok 0x7000#16 := by decide
/-- Reserved and not reserved words on both sides of an edge of R83's list. -/
theorem witness_ReservedWords_edges :
    IsReserved 0x7000 ∧ ¬ IsReserved 0x6FFC ∧ IsReserved 0x0007 ∧ ¬ IsReserved 0x0003 := by
  simp [IsReserved]

theorem witness_FixedFieldSwitch : (Instr.stw .r1 .r1 .r2).fixedFieldsZero = false := by decide

theorem witness_EqualReadsMakeEqualMemories :
    Memory.wf [(5, 1#8)] = true ∧
      ∀ a : Nat, readByte [(5, 1#8)] a = readByte (writeByte [(5, 1#8)] 6 0#8) a := by
  refine ⟨by decide, fun a => ?_⟩
  rw [readByte_writeByte (by decide)]
  split
  · next h => subst h; decide
  · rfl

/-- The last word of RAM, in both variants. -/
theorem witness_WordLanes :
    (start .r1 0#32 .r2 0#32).cfg.WellFormed ∧ (startWide .r1 0#32 .r2 0#32).cfg.WellFormed ∧
      (start .r1 0#32 .r2 0#32).mem.wf = true ∧ (0xDFFE#32).toNat % XLen.x16.wordBytes = 0 ∧
      (0xDFFE#32).toNat + XLen.x16.wordBytes ≤ Config.reference.memSize ∧ 1 < XLen.x16.wordBytes ∧
      (0x000FFFFC#32).toNat % XLen.x32.wordBytes = 0 ∧
      (0x000FFFFC#32).toNat + XLen.x32.wordBytes ≤ Config.wide.memSize ∧ 3 < XLen.x32.wordBytes :=
  ⟨witness_reference_wellFormed, witness_wide_wellFormed, by decide⟩

/-- An odd address between two devices; an even address that is no multiple of 4. -/
theorem witness_MisalignedWordAccessFaults :
    ((start .r2 0xF005#32 .r0 0#32).reg .r2).toNat % XLen.x16.wordBytes ≠ 0 ∧
      ((startWide .r2 0x202#32 .r0 0#32).reg .r2).toNat % XLen.x32.wordBytes ≠ 0 := by decide

/-- The first address past RAM; LDW at an output register; STW at an input register. -/
theorem witness_DataAccessOutsideFaults :
    Config.reference.memSize = ((start .r2 0xE000#32 .r0 0#32).reg .r2).toNat ∧
      (0xE000#32).toNat % 2 = 0 ∧ (0xF000#32).toNat % 2 = 0 ∧
      Config.reference.outChar ≠ Config.reference.inChar ∧ Config.reference.outChar ≠ Config.reference.inInt ∧
      Config.reference.inInt ≠ Config.reference.outChar ∧ Config.reference.inInt ≠ Config.reference.outInt := by decide

theorem witness_FetchRule :
    (startWide .r1 0#32 .r2 0#32).cfg.WellFormed ∧
      (0xDFFF#32).toNat % 2 = 1 ∧
      ((0xE000#32).toNat % 2 = 0 ∧ Config.reference.memSize - 1 < (0xE000#32).toNat + 1) ∧
      ((0xDFFE#32).toNat % 2 = 0 ∧ (0xDFFE#32).toNat + 1 ≤ Config.reference.memSize - 1) ∧
      ((0x000FFFFC#32).toNat % 4 = 0 ∧ (0x000FFFFC#32).toNat + 4 ≤ Config.wide.memSize) :=
  ⟨witness_wide_wellFormed, by decide⟩

theorem witness_StoredCodeIsFetched_word :
    (start .r1 0x8B07#32 .r2 0xDFFE#32).cfg.WellFormed ∧ (startWide .r1 0#32 .r2 0#32).cfg.WellFormed ∧
      (start .r1 0x8B07#32 .r2 0xDFFE#32).mem.wf = true ∧
      ((start .r1 0x8B07#32 .r2 0xDFFE#32).reg .r2).toNat < Config.reference.memSize ∧
    completes (exec (.stw .r0 .r1 .r2) (start .r1 0x8B07#32 .r2 0xDFFE#32)) = true ∧
      completes (exec (.stw .r0 .r1 .r2) (startWide .r1 0x8B078B01#32 .r2 0x000FFFFC#32)) = true :=
  ⟨witness_reference_wellFormed, witness_wide_wellFormed, by decide⟩
theorem witness_StoredCodeIsFetched_byte :
    (start .r1 7#32 .r2 0xDFFF#32).cfg.WellFormed ∧
      completes (exec (.stb .r0 .r1 .r2) (start .r1 7#32 .r2 0x000A#32)) = true ∧
      completes (exec (.stb .r0 .r1 .r2) (start .r1 7#32 .r2 0xDFFF#32)) = true :=
  ⟨witness_reference_wellFormed, by decide⟩

theorem witness_CharacterOutput :
    (start .r1 0x141#32 .r2 0xF000#32).cfg.WellFormed ∧ (startWide .r1 0#32 .r2 0#32).cfg.WellFormed ∧
      (start .r1 0x141#32 .r2 0xF000#32).reg .r2 = Config.reference.outChar ∧
      (startWide .r1 0x141#32 .r2 0xF0000000#32).reg .r2 = Config.wide.outChar :=
  ⟨witness_reference_wellFormed, witness_wide_wellFormed, by decide⟩
/-- Zero, the largest and the smallest value printed. -/
theorem witness_IntegerOutput :
    (start .r1 0#32 .r2 0xF002#32).cfg.WellFormed ∧
      (start .r1 0#32 .r2 0xF002#32).reg .r2 = Config.reference.outInt ∧ 0 ≤ signedValue .x16 0#32 ∧
      0 ≤ signedValue .x16 0x7FFF#32 ∧ signedValue .x16 0x8000#32 < 0 :=
  ⟨witness_reference_wellFormed, by decide⟩
theorem witness_CharacterInput :
    (start .r1 0#32 .r2 0xF004#32).cfg.WellFormed ∧
      (start .r1 0#32 .r2 0xF004#32).reg .r2 = Config.reference.inChar ∧ (start .r1 0#32 .r2 0xF004#32).input = [] ∧
      { start .r1 0#32 .r2 0xF004#32 with input := [-1, 65] }.input = -1 :: [65] :=
  ⟨witness_reference_wellFormed, by decide⟩
theorem witness_IntegerInput :
    (startWide .r1 0#32 .r2 0xF000000C#32).cfg.WellFormed ∧
      (startWide .r1 0#32 .r2 0xF000000C#32).reg .r2 = Config.wide.inInt ∧
      { startWide .r1 0#32 .r2 0xF000000C#32 with input := [-3] }.input = -3 :: [] :=
  ⟨witness_wide_wellFormed, by decide⟩
theorem witness_OnlyDeviceAccessesTouchIO :
    (match exec (.stw .r0 .r1 .r2) (start .r1 0x41#32 .r2 0xF000#32) with
      | .next t => decide (t.output ≠ [])
      | _ => false) = true ∧
    (match exec (.ldw .r1 .r0 .r2) { start .r1 0#32 .r2 0xF006#32 with input := [5] } with
      | .next t => decide (t.input = [])
      | _ => false) = true := by decide

theorem witness_ConstantLoads : (0x8000#16).toNat / 4096 = 8 ∧ (0x97FF#16).toNat / 4096 = 9 ∧
    (0x8000#16).toNat / 2048 % 2 = 0 ∧ (0x97FF#16).toNat / 2048 % 2 = 0 := by decide
theorem witness_LogicalImmediateForms : 15 < XLen.x16.bits ∧ 31 < XLen.x32.bits := by decide
theorem witness_ComparisonsAgreeWithAluSignals :
    (0xFFFF#32).toNat < 2 ^ XLen.x16.bits ∧ (0x8000#32).toNat < 2 ^ XLen.x16.bits ∧
      (0xFFFFFFFF#32).toNat < 2 ^ XLen.x32.bits := by decide
theorem witness_ConstantSequences :
    (start .r1 0xABCD#32 .r0 0#32).cfg.xlen = .x16 ∧ (startWide .r1 0#32 .r0 0#32).cfg.xlen = .x32 := by decide
theorem witness_ShiftsByOne : Reg.r7 ≠ Reg.r0 ∧ 14 < XLen.x16.bits - 1 := by decide

/-- The last byte of RAM and the first address past it. -/
theorem witness_LoadByte_StoreByte :
    ((start .r2 0xDFFF#32 .r0 0#32).reg .r2).toNat < Config.reference.memSize ∧
      Config.reference.memSize ≤ ((start .r2 0xE000#32 .r0 0#32).reg .r2).toNat ∧
      (start .r2 0xDFFF#32 .r0 0#32).mem.wf = true ∧ Reg.r1 ≠ Reg.r0 := by decide
/-- The last word of RAM, in both variants. -/
theorem witness_LoadWordFromRam_StoreWordToRam :
    (start .r2 0xDFFE#32 .r0 0#32).cfg.WellFormed ∧ (startWide .r1 0#32 .r2 0#32).cfg.WellFormed ∧
      (start .r2 0xDFFE#32 .r0 0#32).mem.wf = true ∧
      ((start .r2 0xDFFE#32 .r0 0#32).reg .r2).toNat % XLen.x16.wordBytes = 0 ∧
      ((start .r2 0xDFFE#32 .r0 0#32).reg .r2).toNat < Config.reference.memSize ∧
      ((startWide .r2 0x000FFFFC#32 .r0 0#32).reg .r2).toNat % XLen.x32.wordBytes = 0 ∧
      ((startWide .r2 0x000FFFFC#32 .r0 0#32).reg .r2).toNat < Config.wide.memSize :=
  ⟨witness_reference_wellFormed, witness_wide_wellFormed, by decide⟩
theorem witness_RegisterBranches :
    Reg.r1 ≠ Reg.r0 ∧ ((start .r2 0#32 .r3 0x41#32).reg .r2).toNat = 0 ∧
      ((start .r2 0x8000#32 .r3 0x41#32).reg .r2).toNat ≠ 0 := by decide

theorem witness_HaltEndsTheRun :
    (0x07FF#16 ≠ 0x0003#16 ∧ (0x07FF#16).toNat / 4096 = 0 ∧ (0x07FF#16).toNat / 2048 % 2 = 0 ∧
      (0x07FF#16).toNat % 4 = 3) ∧
    (State.reset.withFetchWord 16 3).ending = none ∧
    fetch (State.reset.withFetchWord 16 3) = .ok 0x0003#16 := by decide

/-- An instruction that completes, one that faults, and HCF. -/
theorem witness_StepRunsDecodedInstruction :
    State.reset.ending = none ∧ fetch State.reset = .ok 0#16 ∧
      decode true 0#16 = .ok (.andR .r0 .r0 .r0) ∧
      completes (exec (.andR .r0 .r0 .r0) State.reset) = true ∧
      faults (exec (.ldb .r1 .r0 .r2) (start .r2 0xE000#32 .r0 0#32)) (.accessFault 0xE000#32) = true ∧
      Instr.andR .r0 .r0 .r0 ≠ .hcf := by decide
theorem witness_PlacedWordRuns :
    (start .r2 0xE000#32 .r0 0#32).cfg.WellFormed ∧
      (start .r2 0xE000#32 .r0 0#32).mem.wf = true ∧ (Instr.ldb .r1 .r0 .r2).wellFormed true = true ∧
      fetch (start .r2 0xE000#32 .r0 0#32) = .ok 0#16 ∧
      faults (exec (.ldb .r1 .r0 .r2) ((start .r2 0xE000#32 .r0 0#32).withFetchWord 16 0x010A))
        (.accessFault 0xE000#32) = true ∧
      completes (exec (.ldb .r1 .r0 .r3) ((start .r2 0xE000#32 .r0 0#32).withFetchWord 16 0x010E)) = true :=
  ⟨witness_reference_wellFormed, by decide⟩

/-- Each cause of R283 alone, each with every later cause present as far as one word allows it. -/
theorem witness_FaultPriority :
    State.reset.cfg.WellFormed ∧
      State.reset.ending = none ∧
      faults (step ((State.reset.withFetchWord 16 0x7000).setPc 1#32)) (.misalignedFetch 1#32) = true ∧
      faults (step (State.reset.setPc 0xE000#32)) (.accessFault 0xE000#32) = true ∧
      faults (step ((start .r2 0x201#32 .r0 0#32).withFetchWord 16 0x432A)) (.illegalInstruction 0x432A#16) =
        true ∧
      faults (step ((start .r2 0xE001#32 .r0 0#32).withFetchWord 16 0x410A)) (.misalignedAccess 0xE001#32) =
        true ∧
      faults (step ((start .r2 0xE000#32 .r0 0#32).withFetchWord 16 0x410A)) (.accessFault 0xE000#32) = true ∧
      faults (step ((start .r2 0xF006#32 .r0 0#32).withFetchWord 16 0x410A)) .inputExhausted = true :=
  ⟨witness_reference_wellFormed, by decide⟩
theorem witness_RunningStepsNextOrModelFault : State.reset.ending = none ∧ completes (step State.reset) = true := by
  decide
theorem witness_EndedRunsStay :
    State.reset.halt.ending = some .runHalted ∧
      (State.reset.latchStackLimit true).ending = some .runStackLimit ∧
      { State.reset with fault := some .inputExhausted }.ending = some .inputExhausted ∧
      State.reset.halt.fault = none ∧ State.reset.ending = none ∧ completes (step State.reset) = true := by decide
theorem witness_FaultKeepsTheState :
    (State.reset.setPc 0xE000#32).ending = none ∧
      faults (step (State.reset.setPc 0xE000#32)) (.accessFault 0xE000#32) = true := by decide

/-- A state with the invariant whose step answers a next state. -/
theorem witness_EveryStepKeepsTheInvariant :
    (start .r1 0x41#32 .r2 0xF000#32).Inv ∧
      completes (step ((start .r1 0x41#32 .r2 0xF000#32))) = true := by
  refine ⟨⟨witness_reference_wellFormed, by decide, (by intro c hc; cases hc), (fun i => by cases i <;> decide), by decide, by decide,
    by decide⟩, by decide⟩
/-- The longest image accepted and the shortest refused. -/
theorem witness_InitialStateAsSpecified :
    Config.reference.WellFormed ∧
      (State.initial Config.reference [0x0003#16] [7]).isSome = true ∧ [0x0003#16][0]? = some 0x0003#16 ∧
      imageFits Config.reference (List.replicate 28671 0#16) = true ∧ imageFits Config.reference (List.replicate 28672 0#16) = false := by
  refine ⟨witness_reference_wellFormed, by decide, by decide, ?_, ?_⟩ <;> rw [imageFits, List.length_replicate] <;> decide
theorem witness_StackCheckAfterEveryStep :
    (match step (State.reset.withFetchWord 16 3) with
      | .next t => t.halted && !t.stackLimitHit
      | _ => false) = true ∧
    (match step (State.reset.withFetchWord 16 0x8F00) with
      | .next t => !t.halted && t.stackLimitHit
      | _ => false) = true ∧
    (match step (State.reset.withFetchWord 16 0x8F02) with
      | .next t => !t.halted && !t.stackLimitHit
      | _ => false) = true := by decide

/-- Steps that answer a next state: an operation, a store, a branch taken and not taken, HCF (ParametersNeverChange,
FlowOfControl, StoresAndBranchesWriteNoRegister, AtMostOneRegisterWritten). -/
theorem witness_next_states :
    completes (step (State.reset.withFetchWord 16 0x5328)) = true ∧
      completes (exec (.stw .r0 .r1 .r2) (start .r1 1#32 .r2 0x200#32)) = true ∧
      completes (exec (.bezI .r1 0x80#8) (start .r1 0#32 .r2 0#32)) = true ∧
      completes (exec (.bnzR .r0 .r1 .r2) (start .r1 0#32 .r2 0#32)) = true ∧
      completes (exec .hcf State.reset) = true := by decide
/-- Both ways of the register branches and of the relative BNZ, and BEZ relative not taken (FlowOfControl). -/
theorem witness_FlowOfControl :
    (start .r2 0#32 .r3 0x40#32).reg .r2 = 0#32 ∧ (start .r2 1#32 .r3 0x40#32).reg .r2 ≠ 0#32 ∧
      completes (exec (.bezR .r0 .r2 .r3) (start .r2 0#32 .r3 0x40#32)) = true ∧
      completes (exec (.bezRAsm .r0 .r2 .r3) (start .r2 1#32 .r3 0x40#32)) = true ∧
      completes (exec (.bnzR .r0 .r2 .r3) (start .r2 1#32 .r3 0x40#32)) = true ∧
      completes (exec (.bnzRAsm .r0 .r2 .r3) (start .r2 0#32 .r3 0x40#32)) = true ∧
      completes (exec (.bezI .r2 0x7F#8) (start .r2 1#32 .r3 0#32)) = true ∧
      completes (exec (.bnzI .r2 0xFA#8) (start .r2 1#32 .r3 0#32)) = true ∧
      completes (exec (.bnzI .r2 0xFA#8) (start .r2 0#32 .r3 0#32)) = true := by decide
theorem witness_OnlyStoresChangeMemory :
    State.reset.mem.wf = true ∧
    (match exec (.stb .r0 .r1 .r2) (start .r1 1#32 .r2 0xDFFF#32) with
      | .next t => decide (readByte t.mem 0xDFFF ≠ readByte State.reset.mem 0xDFFF)
      | _ => false) = true := by decide
theorem witness_CountsAndOutputAreNotRead :
    { State.reset with cycles := 5, output := [1#8] } =
      { State.reset with
        cycles := { State.reset with cycles := 5, output := [1#8] }.cycles
        output := { State.reset with cycles := 5, output := [1#8] }.output } ∧
    completes (step State.reset) = true ∧
    faults (step (State.reset.setPc 1#32)) (.misalignedFetch 1#32) = true := by decide
theorem witness_OnlyTheHaltWordHalts :
    (match step (State.reset.withFetchWord 16 3) with
      | .next t => t.halted
      | _ => false) = true := by decide

theorem witness_SetSequences_ComplementSequences : Reg.r1 ≠ Reg.r0 := by decide
/-- Registers that are no `at`, equal values, and values whose signed and unsigned orders differ: each of the ten
comparisons holds on one of the two states and fails on the other or on the first with its registers exchanged. -/
theorem witness_CompareAndBranchSequences :
    Reg.r1 ≠ Reg.r0 ∧ Reg.r2 ≠ Reg.r0 ∧ (start .r1 5#32 .r2 5#32).cfg.xlen = .x16 ∧
      (start .r1 5#32 .r2 5#32).reg .r1 = (start .r1 5#32 .r2 5#32).reg .r2 ∧
      (start .r1 0x8000#32 .r2 0x7FFF#32).reg .r1 ≠ (start .r1 0x8000#32 .r2 0x7FFF#32).reg .r2 ∧
      signedValue .x16 ((start .r1 0x8000#32 .r2 0x7FFF#32).reg .r1) <
        signedValue .x16 ((start .r1 0x8000#32 .r2 0x7FFF#32).reg .r2) ∧
      ((start .r1 0x8000#32 .r2 0x7FFF#32).reg .r2).toNat <
        ((start .r1 0x8000#32 .r2 0x7FFF#32).reg .r1).toNat := by decide
theorem witness_JumpSequences :
    State.reset.cfg.xlen = .x16 ∧ State.reset.reg .r7 ≠ 0#32 ∧ Reg.r5 ≠ Reg.r6 := by decide
/-- sp one word above address 0, and sp at MEM_SIZE. -/
theorem witness_PushThenPop :
    State.reset.cfg.WellFormed ∧
      State.reset.mem.wf = true ∧ Reg.r1 ≠ Reg.r7 ∧
      ((start .r7 2#32 .r0 0#32).reg .r7).toNat % 2 = 0 ∧
      XLen.x16.wordBytes ≤ ((start .r7 2#32 .r0 0#32).reg .r7).toNat ∧
      ((start .r7 0xE000#32 .r0 0#32).reg .r7).toNat ≤ Config.reference.memSize :=
  ⟨witness_reference_wellFormed, by decide⟩
theorem witness_AssemblerBuildsTheEncodersWords :
    operandValue (symbols []) "sr".toList = some (regIndex .r5 : Int) ∧
      operandValue (symbols []) "at".toList = some (regIndex .r0 : Int) ∧
      operandValue (symbols []) "-6".toList = some (-6) ∧
      operandValue (symbols []) "r0".toList = some 0 := by decide

end Sys2Proof.Machine.Tests
end

section
/-! PROOFS. The computation class (41_computation.md R100 to R115). The word of a table row and the answer of a
computation are said once; each statement then needs only the value its operation computes, as bits or as a
number. -/

namespace Sys2Proof.Machine

/-! ### Words -/

/-- An instruction without a fixed register field has the word the encoder gives it, if the opcode bits of that
word lead the decoder back to it. -/
theorem hasWord_encode {i : Instr} (hd : decodeFields (encode i) = some i) (hf : i.fixedFieldsZero = true) :
    HasWord i (encode i).toNat := by
  refine ⟨rfl, fun strict => ?_⟩
  rw [BitVec.ofNat_toNat, BitVec.setWidth_eq, decode_ok]
  exact ⟨hd, by rw [Instr.wellFormed, hf, Bool.or_true]⟩

/-- The word of a row of R79. -/
theorem hasWord_rFormat (opc : BitVec 4) (op2 : BitVec 2) {mk : Reg → Reg → Reg → Instr} {rst rsa rsb : Reg}
    (hrow : rFormatRow op2 opc = some mk) (henc : encode (mk rst rsa rsb) = encodeR opc op2 rst rsa rsb)
    (hhcf : opc ≠ 0#4 ∨ op2 ≠ 3#2) (hf : (mk rst rsa rsb).fixedFieldsZero = true) :
    HasWord (mk rst rsa rsb) (rWord (opc.toNat * 4096 + op2.toNat) rst rsa rsb) := by
  have hd : decodeFields (encode (mk rst rsa rsb)) = some (mk rst rsa rsb) := by
    rw [henc, decodeFields_encodeR _ _ _ _ _ hhcf, hrow]; rfl
  have hw : (encode (mk rst rsa rsb)).toNat = rWord (opc.toNat * 4096 + op2.toNat) rst rsa rsb := by
    rw [henc, encodeR_toNat, rWord]
    simp only [fieldOfReg_toNat]
    omega
  exact hw ▸ hasWord_encode hd hf

/-- The word of a row of R78. -/
theorem hasWord_iFormat (opc : BitVec 4) {mk : Reg → Imm8 → Instr} {rst : Reg} {imm8 : Imm8}
    (hrow : iFormatRow opc = some mk) (henc : encode (mk rst imm8) = encodeI opc rst imm8)
    (hf : (mk rst imm8).fixedFieldsZero = true) :
    HasWord (mk rst imm8) (iWord (opc.toNat * 4096 + 2048) rst imm8) := by
  have hd : decodeFields (encode (mk rst imm8)) = some (mk rst imm8) := by
    rw [henc, decodeFields_encodeI, hrow]; rfl
  have hw : (encode (mk rst imm8)).toNat = iWord (opc.toNat * 4096 + 2048) rst imm8 := by
    rw [henc, encodeI_toNat, iWord, fieldOfReg_toNat]
  exact hw ▸ hasWord_encode hd hf

/-- Opcodes 1000 and 1001 have no row in the R-format table (R80). -/
theorem rFormatRow_constantLoads (op2 : BitVec 2) : rFormatRow op2 8#4 = none ∧ rFormatRow op2 9#4 = none := by
  revert op2; decide

/-- A word with Imm 0 and an Opcode of the constant loads is no instruction. -/
theorem decode_constantLoads_imm_zero {w : Code} (hopc : w.toNat / 4096 = 8 ∨ w.toNat / 4096 = 9)
    (himm : w.toNat / 2048 % 2 = 0) (strict : Bool) (i : Instr) : decode strict w ≠ .ok i := by
  have hopc : fieldOpcode w = 8#4 ∨ fieldOpcode w = 9#4 := by
    rw [← fieldOpcode_toNat] at hopc
    exact hopc.imp BitVec.eq_of_toNat_eq BitVec.eq_of_toNat_eq
  have himm : fieldImm w = 0#1 := BitVec.eq_of_toNat_eq ((fieldImm_toNat w).trans himm)
  have hnone : decodeFields w = none := by
    obtain ⟨h8, h9⟩ := rFormatRow_constantLoads (fieldOp2 w)
    rw [← encodeR_fields w himm]
    obtain h | h := hopc <;> rw [h, decodeFields_encodeR _ _ _ _ _ (.inl (by decide))]
    · rw [h8]; rfl
    · rw [h9]; rfl
  intro h
  rw [decode_ok, hnone] at h
  exact absurd h.1 (by simp)

/-! ### The answer of a computation -/

/-- An instruction that computes `v` completes, changes r[rst] and pc only, and leaves `v mod 2^XLEN` in r[rst]
(R119). -/
theorem compute_completes {i : Instr} {rst : Reg} {v : Word} {s : State} (hi : exec i s = compute rst v s) :
    ∃ t : State, exec i s = .next t ∧ ComputeFrame rst s t ∧ t.reg rst = trim s.cfg.xlen v :=
  ⟨_, hi, computeFrame_setReg rst v s, reg_computed_same rst v s⟩

/-! ### Bits -/

theorem trim_and (x : XLen) (a b : Word) : trim x (a &&& b) = trim x a &&& trim x b := by
  simp [trim]

theorem trim_or (x : XLen) (a b : Word) : trim x (a ||| b) = trim x a ||| trim x b := by
  simp [trim]

theorem trim_xor (x : XLen) (a b : Word) : trim x (a ^^^ b) = trim x a ^^^ trim x b := by
  simp [trim]

/-- A zero-extended immediate fits both widths. -/
@[simp] theorem trim_zext8 (x : XLen) (v : BitVec 8) : trim x (zext8 v) = zext8 v := by
  have hv := v.isLt
  apply trim_of_lt
  rw [toNat_zext8]
  cases x <;> simp only [XLen.bits] <;> omega

@[simp] theorem trim_sext8 (x : XLen) (v : BitVec 8) : trim x (sext8 x v) = sext8 x v := trim_trim x _

@[simp] theorem State.trim_zeroImm (s : State) (v : Imm8) : trim s.cfg.xlen (s.zeroImm v) = s.zeroImm v :=
  trim_zext8 _ v

@[simp] theorem State.trim_signImm (s : State) (v : Imm8) : trim s.cfg.xlen (s.signImm v) = s.signImm v :=
  trim_sext8 _ v

theorem State.getLsbD_zeroImm (s : State) (v : Imm8) (k : Nat) :
    (s.zeroImm v).getLsbD k = (decide (k < 8) && v.getLsbD k) := by
  by_cases hk : k < 8
  · simp [State.zeroImm, zext8, hk, show k < 32 by omega]
  · have hv : v.getLsbD k = false := BitVec.getLsbD_of_ge v k (by omega)
    simp [State.zeroImm, zext8, hv]

theorem State.getLsbD_signImm (s : State) (v : Imm8) {k : Nat} (hk : k < s.cfg.xlen.bits) :
    (s.signImm v).getLsbD k = sextBit v k := getLsbD_sext8 _ v hk

/-- Settles O18: the sources are XLEN-bit values, so the reduction mod 2^XLEN changes no bit of the result. -/
theorem logicalRegisterForms : Obligations.LogicalRegisterForms := by
  intro rst rsa rsb s
  refine ⟨hasWord_rFormat 0#4 0#2 rfl rfl (by decide) rfl,
    hasWord_rFormat 1#4 0#2 rfl rfl (by decide) rfl,
    hasWord_rFormat 2#4 0#2 rfl rfl (by decide) rfl, ?_, ?_, ?_⟩
  · obtain ⟨t, hx, hf, hv⟩ := compute_completes (i := .andR rst rsa rsb) (s := s) rfl
    refine ⟨t, hx, hf, fun k => ?_⟩
    rw [hv, trim_and, State.trim_reg, State.trim_reg, BitVec.getLsbD_and]
  · obtain ⟨t, hx, hf, hv⟩ := compute_completes (i := .orR rst rsa rsb) (s := s) rfl
    refine ⟨t, hx, hf, fun k => ?_⟩
    rw [hv, trim_or, State.trim_reg, State.trim_reg, BitVec.getLsbD_or]
  · obtain ⟨t, hx, hf, hv⟩ := compute_completes (i := .xorR rst rsa rsb) (s := s) rfl
    refine ⟨t, hx, hf, fun k => ?_⟩
    rw [hv, trim_xor, State.trim_reg, State.trim_reg, BitVec.getLsbD_xor]

/-- Settles O19: both extensions of the immediate fit XLEN bits, so the result is its bitwise combination with r[rst]. -/
theorem logicalImmediateForms : Obligations.LogicalImmediateForms := by
  intro rst imm8 s
  refine ⟨hasWord_iFormat 0#4 rfl rfl rfl, hasWord_iFormat 1#4 rfl rfl rfl,
    hasWord_iFormat 2#4 rfl rfl rfl, ?_, ?_, ?_⟩
  · obtain ⟨t, hx, hf, hv⟩ := compute_completes (i := .andI rst imm8) (s := s) rfl
    refine ⟨t, hx, hf, fun k => ?_⟩
    rw [hv, trim_and, State.trim_reg, State.trim_zeroImm, BitVec.getLsbD_and, State.getLsbD_zeroImm]
  · obtain ⟨t, hx, hf, hv⟩ := compute_completes (i := .orI rst imm8) (s := s) rfl
    refine ⟨t, hx, hf, fun k => ?_⟩
    rw [hv, trim_or, State.trim_reg, State.trim_zeroImm, BitVec.getLsbD_or, State.getLsbD_zeroImm]
  · obtain ⟨t, hx, hf, hv⟩ := compute_completes (i := .xorI rst imm8) (s := s) rfl
    refine ⟨t, hx, hf, fun k hk => ?_⟩
    rw [hv, trim_xor, State.trim_reg, State.trim_signImm, BitVec.getLsbD_xor, State.getLsbD_signImm s imm8 hk]

/-! ### Comparisons -/

theorem lessSigned_reg (s : State) (a b : Reg) :
    lessSigned s.cfg.xlen (s.reg a) (s.reg b) =
      decide (signedValue s.cfg.xlen (s.reg a) < signedValue s.cfg.xlen (s.reg b)) := by
  rw [lessSigned, signed_reg, signed_reg]

theorem lessSigned_signImm (s : State) (a : Reg) (v : Imm8) :
    lessSigned s.cfg.xlen (s.reg a) (s.signImm v) =
      decide (signedValue s.cfg.xlen (s.reg a) < v.toInt) := by
  rw [lessSigned, signed_reg, signed_signImm]

theorem lessUnsigned_reg (s : State) (a b : Reg) :
    lessUnsigned s.cfg.xlen (s.reg a) (s.reg b) = decide ((s.reg a).toNat < (s.reg b).toNat) := by
  rw [lessUnsigned, State.trim_reg, State.trim_reg]

/-- SLTU sign-extends its immediate and then reads it as unsigned (R109). -/
theorem lessUnsigned_signImm (s : State) (a : Reg) (v : Imm8) :
    lessUnsigned s.cfg.xlen (s.reg a) (s.signImm v) =
      decide (((s.reg a).toNat : Int) < v.toInt % 2 ^ s.cfg.xlen.bits) := by
  rw [lessUnsigned, State.trim_reg, State.trim_signImm, State.signImm, ← toNat_sext8]
  simp only [Int.ofNat_lt]

/-- Settles O20: the model's comparisons of two registers are those of their signed and unsigned readings. -/
theorem compareRegisterForms : Obligations.CompareRegisterForms := by
  intro rst rsa rsb s
  refine ⟨hasWord_rFormat 3#4 0#2 rfl rfl (by decide) rfl,
    hasWord_rFormat 4#4 0#2 rfl rfl (by decide) rfl, ?_, ?_⟩
  · obtain ⟨t, hx, hf, hv⟩ := compute_completes (i := .sltR rst rsa rsb) (s := s) rfl
    exact ⟨t, hx, hf, by rw [hv, toNat_truthWord, lessSigned_reg]⟩
  · obtain ⟨t, hx, hf, hv⟩ := compute_completes (i := .sltuR rst rsa rsb) (s := s) rfl
    exact ⟨t, hx, hf, by rw [hv, toNat_truthWord, lessUnsigned_reg]⟩

/-- Settles O21: the sign-extended immediate reads as its signed value, and unsigned as that value mod 2^XLEN. -/
theorem compareImmediateForms : Obligations.CompareImmediateForms := by
  intro rst imm8 s
  refine ⟨hasWord_iFormat 3#4 rfl rfl rfl, hasWord_iFormat 4#4 rfl rfl rfl, ?_, ?_⟩
  · obtain ⟨t, hx, hf, hv⟩ := compute_completes (i := .sltI rst imm8) (s := s) rfl
    exact ⟨t, hx, hf, by rw [hv, toNat_truthWord, lessSigned_signImm]⟩
  · obtain ⟨t, hx, hf, hv⟩ := compute_completes (i := .sltuI rst imm8) (s := s) rfl
    exact ⟨t, hx, hf, by rw [hv, toNat_truthWord, lessUnsigned_signImm]⟩

/-! ### Sums and differences -/

/-- Settles O22: the 32-bit sum and difference reduce to those mod 2^XLEN. -/
theorem arithmeticRegisterForms : Obligations.ArithmeticRegisterForms := by
  intro rst rsa rsb s
  refine ⟨hasWord_rFormat 5#4 0#2 rfl rfl (by decide) rfl,
    hasWord_rFormat 6#4 0#2 rfl rfl (by decide) rfl, ?_, ?_⟩
  · obtain ⟨t, hx, hf, hv⟩ := compute_completes (i := .addR rst rsa rsb) (s := s) rfl
    exact ⟨t, hx, hf, by rw [hv, toNat_trim_add]⟩
  · obtain ⟨t, hx, hf, hv⟩ := compute_completes (i := .subR rst rsa rsb) (s := s) rfl
    exact ⟨t, hx, hf, by rw [hv, toNat_trim_sub]⟩

/-- Adding the sign-extended immediate adds its signed value, mod 2^XLEN. -/
theorem toNat_trim_add_signImm (s : State) (a : Word) (v : Imm8) :
    ((trim s.cfg.xlen (a + s.signImm v)).toNat : Int) = (a.toNat + v.toInt) % 2 ^ s.cfg.xlen.bits := by
  rw [toNat_trim_add, State.signImm, toNat_sext8, Int.add_emod_emod]

/-- Subtracting the sign-extended immediate subtracts its signed value, mod 2^XLEN. -/
theorem toNat_trim_sub_signImm (s : State) (a : Word) (v : Imm8) :
    ((trim s.cfg.xlen (a - s.signImm v)).toNat : Int) = (a.toNat - v.toInt) % 2 ^ s.cfg.xlen.bits := by
  rw [toNat_trim_sub, State.signImm, toNat_sext8, Int.sub_emod_emod]

/-- Settles O23: the sign-extended immediate is congruent to its signed value mod 2^XLEN. -/
theorem arithmeticImmediateForms : Obligations.ArithmeticImmediateForms := by
  intro rst imm8 s
  refine ⟨hasWord_iFormat 5#4 rfl rfl rfl, hasWord_iFormat 6#4 rfl rfl rfl, ?_, ?_⟩
  · obtain ⟨t, hx, hf, hv⟩ := compute_completes (i := .addI rst imm8) (s := s) rfl
    exact ⟨t, hx, hf, by rw [hv, toNat_trim_add_signImm]⟩
  · obtain ⟨t, hx, hf, hv⟩ := compute_completes (i := .subI rst imm8) (s := s) rfl
    exact ⟨t, hx, hf, by rw [hv, toNat_trim_sub_signImm]⟩

/-! ### Constants -/

/-- The sign-extended immediate has the immediate's signed value. -/
theorem signedValue_signImm (s : State) (v : Imm8) : signedValue s.cfg.xlen (s.signImm v) = v.toInt := by
  have hlt : (s.signImm v).toNat < 2 ^ s.cfg.xlen.bits := toNat_trim_lt _ _
  rw [← signed_eq_signedValue _ _ hlt, signed_signImm]

/-- The shift leaves the low 8 bits 0, so adding the immediate carries nowhere (R115). -/
theorem toNat_trim_shl_add_zext8 (x : XLen) (a : Word) (v : Imm8) :
    (trim x ((a <<< 8) + zext8 v)).toNat = a.toNat * 256 % 2 ^ x.bits + v.toNat := by
  have hv := v.isLt
  rw [toNat_trim, BitVec.toNat_add, BitVec.toNat_shiftLeft, Nat.shiftLeft_eq, toNat_zext8]
  cases x <;> simp only [XLen.bits] <;> omega

/-- Settles O24: no row of R79 has Opcode 1000 or 1001, LDR keeps the immediate's signed value, and the shift of
LDC leaves room for the immediate. -/
theorem constantLoads : Obligations.ConstantLoads := by
  intro rst imm8 s
  refine ⟨hasWord_iFormat 8#4 rfl rfl rfl, hasWord_iFormat 9#4 rfl rfl rfl,
    fun strict _ i hopc himm => decode_constantLoads_imm_zero hopc himm strict i, ?_, ?_⟩
  · obtain ⟨t, hx, hf, hv⟩ := compute_completes (i := .ldr rst imm8) (s := s) rfl
    exact ⟨t, hx, hf, by rw [hv, State.trim_signImm, signedValue_signImm]⟩
  · obtain ⟨t, hx, hf, hv⟩ := compute_completes (i := .ldc rst imm8) (s := s) rfl
    exact ⟨t, hx, hf, by rw [hv, State.zeroImm, toNat_trim_shl_add_zext8]⟩

end Sys2Proof.Machine
end

section
/-! PROOFS. The encoding (30_encoding.md R70 to R86). The encoder and the decoder are compared once on the opcode map:
the encoded word of every instruction leads back to its row, and every row encodes to the word's own fields. The
reserved set is the complement of the rows, format by format. -/

namespace Sys2Proof.Machine

/-! ### Decode after encode -/

/-- Every instruction's word leads back to the instruction, its fixed fields not yet checked. -/
theorem decodeFields_encode (i : Instr) : decodeFields (encode i) = some i := by
  cases i with
  | hcf => exact if_pos rfl
  | andI d v | orI d v | xorI d v | sltI d v | sltuI d v | addI d v | subI d v | ldr d v | ldc d v | bezI d v
  | bnzI d v => exact decodeFields_encodeI _ d v
  | _ d a b => exact decodeFields_encodeR _ _ d a b (by decide)

theorem decode_encode {strict : Bool} {i : Instr} (h : i.wellFormed strict = true) :
    decode strict (encode i) = .ok i :=
  decode_ok.2 ⟨decodeFields_encode i, h⟩

/-- The two bytes of a legal word are read as its instruction, whatever follows them. -/
theorem decodeBytes_bytesOfCode {strict : Bool} {w : Code} {i : Instr} (h : decode strict w = .ok i)
    (rest : List Byte) : decodeBytes strict (bytesOfCode w ++ rest) = .ok (i, rest) := by
  simp [decodeBytes, bytesOfCode, h]

/-- Settles O2: the encoder's word has the fields that select the instruction's own row of R78 or R79. -/
theorem decodeInvertsEncode : Obligations.DecodeInvertsEncode := fun _ _ rest hi =>
  ⟨decode_encode hi, decodeBytes_bytesOfCode (decode_encode hi) rest⟩

/-! ### Encode after decode -/

/-- A row of R79 encodes to the Opcode and Op2 it stands at. -/
theorem encode_rFormatRow {op2 : BitVec 2} {opc : BitVec 4} {mk : Reg → Reg → Reg → Instr}
    (h : rFormatRow op2 opc = some mk) (d a b : Reg) : encode (mk d a b) = encodeR opc op2 d a b := by
  unfold rFormatRow at h
  split at h <;> cases h
  all_goals
    next hop2 hopc =>
      show encodeR _ _ d a b = encodeR opc op2 d a b
      rw [(BitVec.toNat_eq_nat.1 hopc).2, (BitVec.toNat_eq_nat.1 hop2).2]

/-- A row of R78 encodes to the Opcode it stands at. -/
theorem encode_iFormatRow {opc : BitVec 4} {mk : Reg → Imm8 → Instr} (h : iFormatRow opc = some mk)
    (d : Reg) (v : Imm8) : encode (mk d v) = encodeI opc d v := by
  unfold iFormatRow at h
  split at h <;> cases h
  all_goals
    next hopc =>
      show encodeI _ d v = encodeI opc d v
      rw [(BitVec.toNat_eq_nat.1 hopc).2]


theorem fieldImm_cases (w : Code) : fieldImm w = 0#1 ∨ fieldImm w = 1#1 := by
  generalize fieldImm w = f
  revert f
  decide

/-- The three ways a word can have the opcode bits of an instruction: it is the HCF word, or its fields name a row of
R79, or a row of R78. -/
theorem decodeFields_some {w : Code} {i : Instr} :
    decodeFields w = some i ↔
    (w = hcfWord ∧ i = .hcf) ∨
    (w ≠ hcfWord ∧ fieldImm w = 0#1 ∧ ∃ mk, rFormatRow (fieldOp2 w) (fieldOpcode w) = some mk ∧
      i = mk (regOfField (fieldRst w)) (regOfField (fieldRsA w)) (regOfField (fieldRsB w))) ∨
    (fieldImm w = 1#1 ∧ ∃ mk, iFormatRow (fieldOpcode w) = some mk ∧
      i = mk (regOfField (fieldRst w)) (fieldImm8 w)) := by
  constructor
  · intro h
    unfold decodeFields at h
    split at h
    · next hw => exact .inl ⟨hw, by simpa using h.symm⟩
    next hw =>
    split at h
    · next hi =>
      obtain ⟨mk, hmk, rfl⟩ := Option.map_eq_some_iff.1 h
      exact .inr (.inr ⟨hi, mk, hmk, rfl⟩)
    · next hi =>
      obtain ⟨mk, hmk, rfl⟩ := Option.map_eq_some_iff.1 h
      exact .inr (.inl ⟨hw, (fieldImm_cases w).resolve_right hi, mk, hmk, rfl⟩)
  · rintro (⟨rfl, rfl⟩ | ⟨hw, hi, mk, hmk, rfl⟩ | ⟨hi, mk, hmk, rfl⟩)
    · rfl
    · simp [decodeFields, hw, hi, hmk]
    · have hw : w ≠ hcfWord := by rintro rfl; exact absurd hi (by decide)
      simp [decodeFields, hw, hi, hmk]

/-- The encoder puts the fields of a decoded word back where they stood. -/
theorem encode_of_decodeFields {w : Code} {i : Instr} (h : decodeFields w = some i) : encode i = w := by
  obtain ⟨rfl, rfl⟩ | ⟨-, hi, mk, hmk, rfl⟩ | ⟨hi, mk, hmk, rfl⟩ := decodeFields_some.1 h
  · rfl
  · rw [encode_rFormatRow hmk, encodeR_fields w hi]
  · rw [encode_iFormatRow hmk, encodeI_fields w hi]

/-- Settles O3: a decoded word is rebuilt from the fields it was read from. -/
theorem encodeInvertsDecode : Obligations.EncodeInvertsDecode := by
  intro strict w i h
  obtain ⟨hf, hw⟩ := decode_ok.1 h
  exact ⟨encode_of_decodeFields hf, hw⟩

/-- Settles O1: each printed word is the encoder's word of the instruction it is printed for. -/
theorem decodeKnownWords : Obligations.DecodeKnownWords :=
  ⟨decode_encode (i := .andR .r2 .r3 .r4) rfl, decode_encode (i := .sltI .r4 10#8) rfl,
    decode_encode (i := .ldc .r3 10#8) rfl, decode_encode (i := .lsr .r5 .r3 .r0) rfl,
    decode_encode (i := .ldb .r3 .r0 .r2) rfl, decode_encode (i := .stw .r0 .r1 .r7) rfl,
    decode_encode (i := .bezR .r0 .r2 .r3) rfl, decode_encode (i := .bnzRAsm .r0 .r7 .r6) rfl,
    decode_encode (i := .bnzI .r2 0xFA#8) rfl, decode_encode (i := .hcf) rfl⟩

/-! ### Fixed fields (R82) -/

/-- Under the switch the word of an instruction with a non-zero fixed field is refused by that name. -/
theorem decode_encode_fixedField {i : Instr} (h : i.fixedFieldsZero = false) :
    decode true (encode i) = .error (.fixedField (encode i)) := by
  simp [decode, decodeFields_encode, Instr.wellFormed, h]

/-- The word of an instruction with a non-zero fixed field decodes to nothing under the switch. -/
theorem decode_encode_ne_ok {i : Instr} (h : i.fixedFieldsZero = false) (j : Instr) :
    decode true (encode i) ≠ .ok j := by
  rw [decode_encode_fixedField h]
  exact nofun

/-- Settles O5: the switch decides about the field in the decoder, and no meaning reads it. -/
theorem fixedFieldSwitch : Obligations.FixedFieldSwitch :=
  ⟨fun _ h => ⟨decode_encode rfl, decode_encode_fixedField h⟩,
    fun _ _ _ _ => ⟨rfl, rfl, rfl, rfl, rfl, rfl, rfl, rfl, rfl, rfl⟩⟩

/-- The words of the register branches in both encodings (R160, R162, R81). -/
theorem hasWord_registerBranches (a b : Reg) :
    HasWord (.bezR .r0 a b) (rWord 0xA003 .r0 a b) ∧ HasWord (.bezRAsm .r0 a b) (rWord 0xA000 .r0 a b) ∧
    HasWord (.bnzR .r0 a b) (rWord 0xB003 .r0 a b) ∧ HasWord (.bnzRAsm .r0 a b) (rWord 0xB000 .r0 a b) :=
  ⟨hasWord_rFormat 10#4 3#2 rfl rfl (by decide) rfl, hasWord_rFormat 10#4 0#2 rfl rfl (by decide) rfl,
    hasWord_rFormat 11#4 3#2 rfl rfl (by decide) rfl, hasWord_rFormat 11#4 0#2 rfl rfl (by decide) rfl⟩

/-- Settles O6: the two rows of each register branch share one meaning. -/
theorem registerBranchesHaveTwoEncodings : Obligations.RegisterBranchesHaveTwoEncodings := by
  intro a b s
  obtain ⟨hbez, hbezAsm, hbnz, hbnzAsm⟩ := hasWord_registerBranches a b
  exact ⟨hbez, hbezAsm, hbnz, hbnzAsm, rfl, rfl, rfl, rfl⟩

/-! ### The reserved set (R83) -/

/-- The register field read as r0 is the field 000. -/
theorem regOfField_eq_r0 (f : BitVec 3) : regOfField f = .r0 ↔ f.toNat = 0 := by
  revert f; decide

/-- The rows of R78, none of which has a fixed field. -/
theorem iFormat_legal_iff (opc : BitVec 4) (d : Reg) (v : Imm8) :
    (∃ mk, iFormatRow opc = some mk ∧ (mk d v).fixedFieldsZero = true) ↔
      ¬ (opc.toNat = 7 ∨ 12 ≤ opc.toNat) := by
  have hopc := opc.isLt
  unfold iFormatRow
  split <;> simp [Instr.fixedFieldsZero, *]
  grind

/-- The rows of R79 and their fixed fields (R82), against the reserved set's list for Imm 0. -/
theorem rFormat_legal_iff (op2 : BitVec 2) (opc : BitVec 4) (d a b : BitVec 3) :
    (∃ mk, rFormatRow op2 opc = some mk ∧
      (mk (regOfField d) (regOfField a) (regOfField b)).fixedFieldsZero = true) ↔
    ((op2.toNat = 0 ∧ (opc.toNat < 7 ∨ ((opc.toNat = 10 ∨ opc.toNat = 11) ∧ d.toNat = 0))) ∨
      (op2.toNat = 1 ∧ opc.toNat < 2 ∧ b.toNat = 0) ∨
      (op2.toNat = 2 ∧ ((opc.toNat = 0 ∨ opc.toNat = 4) ∧ a.toNat = 0 ∨
        (opc.toNat = 1 ∨ opc.toNat = 5) ∧ d.toNat = 0)) ∨
      (op2.toNat = 3 ∧ (opc.toNat = 10 ∨ opc.toNat = 11) ∧ d.toNat = 0)) := by
  unfold rFormatRow
  split <;> simp [Instr.fixedFieldsZero, regOfField_eq_r0, *]
  grind


/-- A word is legal under the switch when it is the HCF word, or its fields name a row whose fixed fields are r0. -/
theorem legal_iff_row (w : Code) :
    (∃ i, decode true w = .ok i) ↔
    w = hcfWord ∨
    (w ≠ hcfWord ∧ fieldImm w = 0#1 ∧ ∃ mk, rFormatRow (fieldOp2 w) (fieldOpcode w) = some mk ∧
      (mk (regOfField (fieldRst w)) (regOfField (fieldRsA w)) (regOfField (fieldRsB w))).fixedFieldsZero = true) ∨
    (fieldImm w = 1#1 ∧ ∃ mk, iFormatRow (fieldOpcode w) = some mk ∧
      (mk (regOfField (fieldRst w)) (fieldImm8 w)).fixedFieldsZero = true) := by
  constructor
  · rintro ⟨i, h⟩
    obtain ⟨hf, hz⟩ := decode_ok.1 h
    obtain ⟨hw, -⟩ | ⟨hw, hi, mk, hmk, rfl⟩ | ⟨hi, mk, hmk, rfl⟩ := decodeFields_some.1 hf
    · exact .inl hw
    · exact .inr (.inl ⟨hw, hi, mk, hmk, hz⟩)
    · exact .inr (.inr ⟨hi, mk, hmk, hz⟩)
  · rintro (hw | ⟨hw, hi, mk, hmk, hz⟩ | ⟨hi, mk, hmk, hz⟩)
    · exact ⟨_, decode_ok.2 ⟨decodeFields_some.2 (.inl ⟨hw, rfl⟩), rfl⟩⟩
    · exact ⟨_, decode_ok.2 ⟨decodeFields_some.2 (.inr (.inl ⟨hw, hi, mk, hmk, rfl⟩)), hz⟩⟩
    · exact ⟨_, decode_ok.2 ⟨decodeFields_some.2 (.inr (.inr ⟨hi, mk, hmk, rfl⟩)), hz⟩⟩

/-- A word is legal under the switch exactly when the spec's list of the reserved set leaves it out. -/
theorem legal_iff_not_reserved (w : Code) : (∃ i, decode true w = .ok i) ↔ ¬ IsReserved w.toNat := by
  have hw : w = hcfWord ↔ w.toNat = 3 := by rw [← BitVec.toNat_inj]; rfl
  have h0 : fieldImm w = 0#1 ↔ w.toNat / 2048 % 2 = 0 := by rw [← BitVec.toNat_inj, fieldImm_toNat]; rfl
  have h1 : fieldImm w = 1#1 ↔ w.toNat / 2048 % 2 = 1 := by rw [← BitVec.toNat_inj, fieldImm_toNat]; rfl
  rw [legal_iff_row, iFormat_legal_iff, rFormat_legal_iff, ne_eq, hw, h0, h1]
  simp only [fieldOpcode_toNat, fieldOp2_toNat, fieldRst_toNat, fieldRsA_toNat, fieldRsB_toNat, IsReserved]
  have h3 : w.toNat = 3 → w.toNat / 2048 % 2 = 0 ∧ w.toNat % 4 = 3 := by omega
  have himm : w.toNat / 2048 % 2 < 2 := Nat.mod_lt _ (by decide)
  have hop2 : w.toNat % 4 < 4 := Nat.mod_lt _ (by decide)
  generalize w.toNat / 4096 = opc, w.toNat / 2048 % 2 = imm, w.toNat / 256 % 8 = rst, w.toNat / 32 % 8 = rsa,
    w.toNat / 4 % 8 = rsb, w.toNat % 4 = op2 at *
  -- Imm and Op2 select the clause of the list
  interval_cases imm
  · interval_cases op2 <;> simp at h3 ⊢ <;> omega
  · simp at h3 ⊢
    omega

theorem reserved_iff (w : Code) : IsReserved w.toNat ↔ ∀ i, decode true w ≠ .ok i := by
  rw [← not_exists, legal_iff_not_reserved, not_not]

/-- A fetched word that decodes to nothing stops the run (R83, R86). -/
theorem step_of_illegal {s : State} {w : Code} (he : s.ending = none) (hf : fetch s = .ok w)
    (hd : ∀ i, decode s.cfg.strictFixedFields w ≠ .ok i) : step s = .fault (.illegalInstruction w) := by
  have hdec : decodeStep s w = .error (.illegalInstruction w) := by
    unfold decodeStep
    split
    · next h => exact absurd h (hd _)
    · rfl
  simp only [step, he, hf, hdec]

/-- Settles O4: the rows of R78 and R79 with their fixed fields are the complement of the list of R83. -/
theorem reservedWordsAreIllegal : Obligations.ReservedWordsAreIllegal := by
  refine fun w => ⟨reserved_iff w, fun s he hs hf hr => ?_⟩
  refine step_of_illegal he hf ?_
  rw [hs]
  exact (reserved_iff w).1 hr

end Sys2Proof.Machine
end

section
/-! PROOFS. Invariants and whole-machine rules (10_state.md, 60_exceptions.md section 4). What one instruction does to
each part of the state is read off `exec_next` once; what a step adds is `step_next_cases`. Each rule is then a short
use of the two. -/

namespace Sys2Proof.Machine

/-! ### What one instruction does to each part of the state -/

/-- An instruction leaves the environment as it is; HCF alone sets `halted`. -/
theorem exec_environment {i : Instr} {s t : State} (h : exec i s = .next t) :
    t.cfg = s.cfg ∧ t.stackLimitHit = s.stackLimitHit ∧ t.fault = s.fault ∧ t.stackLimit = s.stackLimit ∧
      t.cycles = s.cycles ∧ (i ≠ .hcf → t.halted = s.halted) := by
  obtain ⟨d, v, -, -, -, rfl⟩ | ⟨rst, -, -, -, rest, v, -, -, -, rfl⟩ | ⟨-, -, -, -, -, rfl⟩ | ⟨-, -, -, -, -, rfl⟩ |
    ⟨-, -, -, bs, -, -, rfl⟩ | ⟨-, rfl | ⟨-, -, -, -, rfl⟩ | ⟨-, -, -, rfl⟩⟩ | ⟨rfl, rfl⟩ := exec_next h
  case inr.inr.inr.inr.inr.inr => exact ⟨rfl, rfl, rfl, rfl, rfl, fun hne => absurd rfl hne⟩
  all_goals exact ⟨rfl, rfl, rfl, rfl, rfl, fun _ => rfl⟩

/-- An instruction writes at most one register, with an XLEN-bit value; no store and no branch writes one. -/
theorem exec_regs {i : Instr} {s t : State} (h : exec i s = .next t) :
    t.regs = s.regs ∨
      (isStore i = false ∧ isBranch i = false ∧ ∃ d v, t.regs = s.regs.set d (trim s.cfg.xlen v)) := by
  obtain ⟨d, v, -, hb, hs, rfl⟩ | ⟨rst, -, -, -, rest, v, rfl, -, -, rfl⟩ | ⟨-, -, -, -, -, rfl⟩ |
    ⟨-, -, -, -, -, rfl⟩ | ⟨-, -, -, bs, -, -, rfl⟩ | ⟨-, rfl | ⟨-, -, -, -, rfl⟩ | ⟨-, -, -, rfl⟩⟩ |
    ⟨-, rfl⟩ := exec_next h
  · exact .inr ⟨hs, hb, d, v, rfl⟩
  · exact .inr ⟨rfl, rfl, rst, v, rfl⟩
  all_goals exact .inl rfl

/-- Memory is changed by the two stores only, which write their own bytes, and these lie in RAM. -/
theorem exec_mem {i : Instr} {s t : State} (h : exec i s = .next t) :
    t.mem = s.mem ∨ ∃ rst rsa rsb n,
      (i = .stb rst rsa rsb ∧ n = 1 ∨ i = .stw rst rsa rsb ∧ n = s.cfg.xlen.wordBytes) ∧
      (s.reg rsb).toNat + n ≤ s.cfg.memSize ∧ t.mem = writeBytes s.mem (s.reg rsb).toNat n (s.reg rsa) := by
  obtain ⟨d, v, -, -, -, rfl⟩ | ⟨rst, -, -, -, rest, v, -, -, -, rfl⟩ | ⟨rst, rsa, rsb, rfl, hr, rfl⟩ |
    ⟨rst, rsa, rsb, rfl, hr, rfl⟩ | ⟨-, -, -, bs, -, -, rfl⟩ | ⟨-, rfl | ⟨-, -, -, -, rfl⟩ | ⟨-, -, -, rfl⟩⟩ |
    ⟨-, rfl⟩ := exec_next h
  case inr.inr.inl => exact .inr ⟨rst, rsa, rsb, 1, .inl ⟨rfl, rfl⟩, hr, rfl⟩
  case inr.inr.inr.inl => exact .inr ⟨rst, rsa, rsb, _, .inr ⟨rfl, rfl⟩, hr, rfl⟩
  all_goals exact .inl rfl

/-- An instruction that is no store leaves memory as it is. -/
theorem exec_mem_eq {i : Instr} {s t : State} (h : exec i s = .next t) (hi : isStore i = false) : t.mem = s.mem := by
  obtain hm | ⟨_, _, _, _, ⟨rfl, -⟩ | ⟨rfl, -⟩, -, -⟩ := exec_mem h
  · exact hm
  · cases hi
  · cases hi

/-- An instruction leaves pc or sets it to an XLEN-bit value. -/
theorem exec_pc {i : Instr} {s t : State} (h : exec i s = .next t) :
    t.pc = s.pc ∨ ∃ v, t.pc = trim s.cfg.xlen v := by
  obtain ⟨d, v, -, -, -, rfl⟩ | ⟨rst, -, -, -, rest, v, -, -, -, rfl⟩ | ⟨-, -, -, -, -, rfl⟩ | ⟨-, -, -, -, -, rfl⟩ |
    ⟨-, -, -, bs, -, -, rfl⟩ | ⟨-, rfl | ⟨-, -, -, -, rfl⟩ | ⟨-, -, -, rfl⟩⟩ | ⟨-, rfl⟩ := exec_next h
  case inr.inr.inr.inr.inr.inr => exact .inl rfl
  all_goals exact .inr ⟨_, rfl⟩

/-- An instruction that is neither a branch nor HCF ends with pc + 2 (R27). -/
theorem exec_pcAdvanced {i : Instr} {s t : State} (h : exec i s = .next t) (hh : i ≠ .hcf)
    (hb : isBranch i = false) : PcAdvanced s t := by
  obtain ⟨d, v, -, -, -, rfl⟩ | ⟨rst, -, -, -, rest, v, -, -, -, rfl⟩ | ⟨-, -, -, -, -, rfl⟩ | ⟨-, -, -, -, -, rfl⟩ |
    ⟨-, -, -, bs, -, -, rfl⟩ | ⟨hb', -⟩ | ⟨hi, -⟩ := exec_next h
  · exact pcAdvanced_advance (s.setReg d v)
  · exact pcAdvanced_advance ((s.setInput rest).setReg rst v)
  · exact pcAdvanced_advance (s.setMem _)
  · exact pcAdvanced_advance (s.setMem _)
  · exact pcAdvanced_advance (s.emit bs)
  · rw [hb] at hb'; cases hb'
  · exact absurd hi hh

/-! ### Around an instruction -/

/-- A step that answers a next state either ran the HCF word and only halted, or ran another instruction, counted it
and latched the stack check. -/
theorem step_next_cases {s t : State} (h : step s = .next t) :
    s.ending = none ∧
    ((fetch s = .ok hcfWord ∧ t = s.halt) ∨
      ∃ i u, i ≠ .hcf ∧ exec i s = .next u ∧ t = u.count.latchStackLimit (stackCheckFires u)) := by
  obtain ⟨w, i, u, he, hf, hd, hx, rfl⟩ := step_next h
  refine ⟨he, ?_⟩
  by_cases hi : i = .hcf
  · subst hi
    have hw : hcfWord = w := (encodeInvertsDecode _ _ _ hd).1
    cases hx
    exact .inl ⟨hw ▸ hf, rfl⟩
  · exact .inr ⟨i, u, hi, hx, retire_of_ne hi u⟩

/-! ### The invariant -/

/-- What an instruction keeps of the invariant, the two clauses about the ending apart. -/
theorem exec_keeps_ranges {i : Instr} {s t : State} (hs : s.Inv) (h : exec i s = .next t) :
    t.mem.wf = true ∧ Memory.below t.cfg.memSize t.mem ∧
      (∀ r : Reg, (t.regs.get r).toNat < 2 ^ t.cfg.xlen.bits) ∧ t.pc.toNat < 2 ^ t.cfg.xlen.bits := by
  rw [(exec_environment h).1]
  refine ⟨?_, ?_, fun r => ?_, ?_⟩
  · obtain hm | ⟨_, _, _, _, -, -, hm⟩ := exec_mem h
    · exact hm ▸ hs.memCanonical
    · exact hm ▸ writeBytes_wf hs.memCanonical _ _ _
  · obtain hm | ⟨_, _, _, _, -, hr, hm⟩ := exec_mem h
    · exact hm ▸ hs.memInRam
    · exact hm ▸ writeBytes_below hr hs.memInRam
  · obtain hr | ⟨-, -, d, v, hr⟩ := exec_regs h
    · exact hr ▸ hs.regsNarrow r
    · rw [hr, RegFile.get_set]
      split
      · exact toNat_trim_lt _ _
      · exact hs.regsNarrow r
  · obtain hp | ⟨v, hp⟩ := exec_pc h
    · exact hp ▸ hs.pcNarrow
    · exact hp ▸ toNat_trim_lt _ _

/-- Settles O41: an instruction keeps the ranges, and retiring it sets the stack-limit end exactly where the check
holds, in a state that is not halted. -/
theorem everyStepKeepsTheInvariant : Obligations.EveryStepKeepsTheInvariant := by
  intro s t hs h
  obtain ⟨he, ⟨-, rfl⟩ | ⟨i, u, hi, hx, rfl⟩⟩ := step_next_cases h
  · obtain ⟨-, -, hhit⟩ := ending_none.1 he
    exact ⟨hs.cfgWellFormed, hs.memCanonical, hs.memInRam, hs.regsNarrow, hs.pcNarrow, hs.limitMeansCheck,
      fun hend => by rw [State.halt_stackLimitHit, hhit] at hend; cases hend.2⟩
  · obtain ⟨-, hrun, -⟩ := ending_none.1 he
    obtain ⟨hcfg, -, -, -, -, hhalt⟩ := exec_environment hx
    obtain ⟨hwf, hbelow, hregs, hpc⟩ := exec_keeps_ranges hs hx
    exact ⟨hcfg ▸ hs.cfgWellFormed, hwf, hbelow, hregs, hpc, fun hhit => hhit,
      fun hend => by rw [State.latchStackLimit_halted, State.count_halted, hhalt hi, hrun] at hend; cases hend.1⟩

/-- The 16-bit column of R9 is an address map. -/
theorem reference_wellFormed : Config.reference.WellFormed where
  ramOfWords := by decide
  ramFits := by decide
  spAligned := by decide
  spInRam := by decide
  deviceAligned := by simp [Config.devices, Config.reference, XLen.wordBytes]
  deviceOutsideRam := by simp [Config.devices, Config.reference]
  deviceNarrow := by simp [Config.devices, Config.reference, XLen.bits]
  devicesDistinct := by decide

/-- The 32-bit column of R9 is an address map. -/
theorem wide_wellFormed : Config.wide.WellFormed where
  ramOfWords := by decide
  ramFits := by decide
  spAligned := by decide
  spInRam := by decide
  deviceAligned := by simp [Config.devices, Config.wide, XLen.wordBytes]
  deviceOutsideRam := by simp [Config.devices, Config.wide]
  deviceNarrow := by simp [Config.devices, Config.wide, XLen.bits]
  devicesDistinct := by decide

/-- r0 to r6 hold 0 and r7 holds SP_INIT (R36). -/
theorem initialRegs_get (c : Config) (r : Reg) :
    (initialRegs c).get r = if r = .r7 then c.spInit else 0#32 := by
  cases r <;> rfl

/-- SP_INIT is an XLEN-bit value, as its word lies in RAM. -/
theorem spInit_lt {c : Config} (h : c.WellFormed) : c.spInit.toNat < 2 ^ c.xlen.bits := by
  have hpos := sizeBytes_pos c.xlen .word
  have hsp := h.spInRam
  have hfits := h.ramFits
  simp only [sizeBytes] at hpos
  omega

theorem initial_inv {cfg : Config} {image : List Code} {input : List Int} {s : State} (hc : cfg.WellFormed)
    (h : State.initial cfg image input = some s) : s.Inv := by
  obtain ⟨hfits, hcfg, hregs, hpc, hmem, hhalted, hhit, -⟩ := initial_some h
  subst hcfg
  refine ⟨hc, initial_mem_wf h, ?_, fun r => ?_, ?_, ?_, ?_⟩
  · rw [hmem]
    exact placeWords_below (by omega) (fun c hmem => by cases hmem)
  · rw [hregs, initialRegs_get]
    split
    · exact spInit_lt hc
    · exact Nat.two_pow_pos _
  · rw [hpc]
    exact Nat.two_pow_pos _
  · rw [hhit]
    exact nofun
  · rw [hhalted]
    exact nofun

/-- Settles O43: an image that fits lies in RAM, and the registers hold 0 or SP_INIT. -/
theorem initialStateMeetsTheInvariant : Obligations.InitialStateMeetsTheInvariant :=
  ⟨reference_wellFormed, wide_wellFormed, fun _ _ _ _ hc h => initial_inv hc h⟩

/-- Settles O45: both are the same record, written field by field from R36. -/
theorem resetIsTheEmptyInitialState : Obligations.ResetIsTheEmptyInitialState :=
  ⟨rfl, rfl, rfl, rfl, rfl, rfl, rfl, rfl, rfl, rfl, rfl⟩

/-- Settles O42: reset is an initial state. -/
theorem resetMeetsTheInvariant : Obligations.ResetMeetsTheInvariant :=
  initial_inv reference_wellFormed resetIsTheEmptyInitialState.1

end Sys2Proof.Machine
end

section
/-! PROOFS. Whole-machine rules (10_state.md, 20_memory.md section 5, 60_exceptions.md section 4,
70_reset_and_hazards.md): the initial state, the stack check, the flow of control, and what no instruction changes. -/

namespace Sys2Proof.Machine

/-! ### The initial state -/

/-- Settles O44: the registers are XLEN-bit values already, and the placed words read back. -/
theorem initialStateAsSpecified : Obligations.InitialStateAsSpecified := by
  refine ⟨rfl, rfl, fun cfg image input hc => ⟨?_, fun s h => ?_⟩⟩
  · have hpos := (memSize_even hc).2
    simp only [State.initial, imageFits, decide_eq_true_eq]
    split
    · simp only [reduceCtorEq, false_iff]; omega
    · simp only [true_iff]; omega
  obtain ⟨-, hcfg, hregs, hpc, hmem, hhalted, hhit, hfault, hlimit, hcycles, hout, hin⟩ := initial_some h
  have hreg : ∀ r, s.reg r = trim cfg.xlen (if r = .r7 then cfg.spInit else 0#32) := fun r => by
    rw [State.reg, hcfg, hregs, initialRegs_get]
  refine ⟨fun r hr => ?_, ?_, hpc, fun i w hi => ?_, fun a ha => ?_, hhalted, hfault, hhit, hlimit, hcycles, hout, hin,
    hcfg⟩
  · rw [hreg, if_neg hr, trim_zero]
  · rw [hreg, if_pos rfl, trim_of_lt (spInit_lt hc)]
  · rw [hmem]
    simpa using readByte_placeWords_inside (m := []) rfl 0 image i w hi
  · rw [hmem, readByte_placeWords_outside rfl 0 image a (by omega)]
    rfl

/-! ### The stack check -/

/-- The line the simulator prints first after a run (R300). -/
theorem closingLines_head (s : State) :
    (closingLines s).head? = some (if s.stackLimitHit then asciiBytes "stack overflow detected!" else []) := by
  unfold closingLines
  split <;> rfl

/-- A state that the stack check ended, and nothing else, shows that end. -/
theorem stackLimit_ends {s : State} (hf : s.fault = none) (hh : s.halted = false) (hhit : s.stackLimitHit = true) :
    outcome s = .stackLimit ∧ step s = .fault .runStackLimit := by
  simp [outcome, step, State.ending, hf, hh, hhit]

/-- Settles O46: a step either halts, uncounted, or latches the check on the state the instruction left. -/
theorem stackCheckAfterEveryStep : Obligations.StackCheckAfterEveryStep := by
  intro s t he h
  obtain ⟨hfault, hhalted, hhit⟩ := ending_none.1 he
  obtain ⟨-, ⟨-, rfl⟩ | ⟨i, u, hi, hx, rfl⟩⟩ := step_next_cases h
  · refine ⟨fun _ => ⟨hhit, rfl⟩, fun h => by simp at h, fun h => ?_, fun h => ?_⟩
    · rw [State.halt_stackLimitHit, hhit] at h; cases h
    · simp [closingLines_head, hhit]
  · obtain ⟨hcfg, -, hfault', hlimit, hcycles, hhalt⟩ := exec_environment hx
    have hrunning := (hhalt hi).trans hhalted
    refine ⟨fun h => ?_, fun _ => ⟨congrArg (· + 1) hcycles, ?_⟩, fun h => ?_, fun h => ?_⟩
    · rw [State.latchStackLimit_halted, State.count_halted, hrunning] at h; cases h
    · simp [stackCheckFires, hcfg, hlimit]
    · obtain ⟨hout, hstep⟩ := stackLimit_ends (s := u.count.latchStackLimit (stackCheckFires u))
        (hfault'.trans hfault) hrunning h
      exact ⟨hout, hstep, by rw [closingLines_head, h]; rfl⟩
    · rw [closingLines_head, h]; rfl

/-- Settles O47: an instruction leaves all four, and retiring it adds one to the count. -/
theorem parametersNeverChange : Obligations.ParametersNeverChange := by
  intro s t h
  obtain ⟨-, ⟨-, rfl⟩ | ⟨i, u, hi, hx, rfl⟩⟩ := step_next_cases h
  · exact ⟨rfl, rfl, rfl, Nat.le_refl _, Nat.le_succ _⟩
  · obtain ⟨hcfg, -, hfault, hlimit, hcycles, -⟩ := exec_environment hx
    refine ⟨hcfg, hlimit, hfault, ?_⟩
    rw [State.latchStackLimit_cycles, State.count_cycles, hcycles]
    omega

/-- Settles O53: only HCF sets `halted`, and only the HCF word decodes to it. -/
theorem onlyTheHaltWordHalts : Obligations.OnlyTheHaltWordHalts := by
  intro s t h hhalted
  obtain ⟨he, ⟨hf, -⟩ | ⟨i, u, hi, hx, rfl⟩⟩ := step_next_cases h
  · exact hf
  · obtain ⟨-, hrunning, -⟩ := ending_none.1 he
    obtain ⟨-, -, -, -, -, hhalt⟩ := exec_environment hx
    rw [State.latchStackLimit_halted, State.count_halted, hhalt hi, hrunning] at hhalted
    cases hhalted

/-! ### The flow of control -/

/-- The state a branch leaves. -/
theorem branch_next_eq {taken : Bool} {target : Word} {s t : State} (h : branch taken target s = .next t) :
    t = if taken then s.setPc target else s.advance := by
  cases h; rfl

/-- A register branch goes to the base register if taken, which is an XLEN-bit value already, else to pc + 2. -/
theorem branch_to_reg {taken : Bool} {rsb : Reg} {s t : State} (h : branch taken (s.reg rsb) s = .next t) :
    if taken then t.pc = s.reg rsb else PcAdvanced s t := by
  rw [branch_next_eq h]
  cases taken
  · exact pcAdvanced_advance s
  · exact s.trim_reg rsb

/-- The target of a relative branch, reduced mod 2^XLEN (R164). -/
theorem toNat_trim_relativeTarget (s : State) (v : Imm8) :
    ((trim s.cfg.xlen (relativeTarget s v)).toNat : Int) = (s.pc.toNat + 2 + v.toInt) % 2 ^ s.cfg.xlen.bits := by
  have h := s.pc.isLt
  rw [relativeTarget, toNat_trim_add_signImm, BitVec.toNat_add]
  cases s.cfg.xlen <;> simp only [XLen.bits, BitVec.toNat_ofNat] <;> omega

/-- A relative branch goes to pc + 2 and the immediate if taken, else to pc + 2. -/
theorem branch_relative {taken : Bool} {v : Imm8} {s t : State}
    (h : branch taken (relativeTarget s v) s = .next t) :
    if taken then (t.pc.toNat : Int) = (s.pc.toNat + 2 + v.toInt) % 2 ^ s.cfg.xlen.bits else PcAdvanced s t := by
  rw [branch_next_eq h]
  cases taken
  · exact pcAdvanced_advance s
  · exact toNat_trim_relativeTarget s v

theorem isZero_iff (v : Word) : isZero v = true ↔ v = 0#32 := beq_iff_eq

theorem not_isZero_iff (v : Word) : (!isZero v) = true ↔ v ≠ 0#32 := by simp [isZero]

/-- Settles O48: every arm of `exec` but HCF ends in `advance` or in a branch. -/
theorem flowOfControl : Obligations.FlowOfControl := by
  refine fun i s t h => ⟨?_, fun hh hb => exec_pcAdvanced h hh hb, ?_, ?_, ?_, ?_⟩
  · rintro rfl; cases h; rfl
  · rintro rst rsa rsb (rfl | rfl) <;> simpa only [isZero_iff] using branch_to_reg h
  · rintro rst rsa rsb (rfl | rfl) <;> simpa only [not_isZero_iff] using branch_to_reg h
  · rintro rst imm8 rfl; simpa only [isZero_iff] using branch_relative h
  · rintro rst imm8 rfl; simpa only [not_isZero_iff] using branch_relative h

/-! ### What no instruction changes -/

/-- Settles O49: the one register an instruction writes is not written by a store or a branch. -/
theorem storesAndBranchesWriteNoRegister : Obligations.StoresAndBranchesWriteNoRegister := by
  intro i s t hi h r
  obtain hr | ⟨hs, hb, -⟩ := exec_regs h
  · rw [hr]
  · rw [hs, hb] at hi; simp at hi

/-- Settles O50: the register is the one of `exec_regs`. -/
theorem atMostOneRegisterWritten : Obligations.AtMostOneRegisterWritten := by
  intro i s t h
  obtain hr | ⟨-, -, d, v, hr⟩ := exec_regs h
  · exact ⟨.r0, fun _ _ => by rw [hr]⟩
  · exact ⟨d, fun r hne => by rw [hr, RegFile.get_set_other _ _ hne]⟩

/-- Settles O51: a byte outside the bytes a store writes reads as before. -/
theorem onlyStoresChangeMemory : Obligations.OnlyStoresChangeMemory := by
  intro i s t k hwf h hk
  obtain hm | ⟨rst, rsa, rsb, n, hi, hr, hm⟩ := exec_mem h
  · exact absurd (by rw [hm]) hk
  have hin : (s.reg rsb).toNat ≤ k ∧ k < (s.reg rsb).toNat + n := by
    by_contra hout
    exact hk (by rw [hm]; exact readByte_writeBytes_outside hwf _ _ _ (by omega))
  refine ⟨by omega, rst, rsa, rsb, ?_⟩
  obtain ⟨rfl, rfl⟩ | ⟨rfl, rfl⟩ := hi
  · exact .inl ⟨rfl, by omega⟩
  · exact .inr ⟨rfl, hin⟩

/-- Settles O17: of the ways an instruction completes, only a word store to a device emits and only a word load from one
consumes. -/
theorem onlyDeviceAccessesTouchIO : Obligations.OnlyDeviceAccessesTouchIO := by
  intro i s t h
  obtain ⟨d, v, -, -, -, rfl⟩ | ⟨rst, rsa, rsb, n, rest, v, rfl, hd, hin, rfl⟩ | ⟨-, -, -, -, -, rfl⟩ |
    ⟨-, -, -, -, -, rfl⟩ | ⟨rst, rsa, rsb, bs, rfl, hd, rfl⟩ | ⟨-, rfl | ⟨-, -, -, -, rfl⟩ | ⟨-, -, -, rfl⟩⟩ |
    ⟨-, rfl⟩ := exec_next h
  case inr.inl =>
    exact ⟨fun hne => absurd rfl hne, fun _ => ⟨rst, rsa, rsb, n, rfl, hd, hin⟩, [], (List.append_nil _).symm⟩
  case inr.inr.inr.inr.inl =>
    exact ⟨fun _ => ⟨rst, rsa, rsb, rfl, hd⟩, fun hne => absurd rfl hne, bs, rfl⟩
  all_goals exact ⟨fun hne => absurd rfl hne, fun hne => absurd rfl hne, [], (List.append_nil _).symm⟩

end Sys2Proof.Machine
end

section
/-! PROOFS. The step (30_encoding.md section 4, 60_exceptions.md section 2, 70_reset_and_hazards.md section 2): what a
step answers on a state whose run has ended, on a placed instruction, and on one that faults; and that no step reads
the count or the output. -/

namespace Sys2Proof.Machine

/-! ### Answers of a step -/

/-- Settles O35: `step` is `exec` and then `retire`, whose fields are read off. -/
theorem stepRunsDecodedInstruction : Obligations.StepRunsDecodedInstruction := by
  intro s w i he hf hd
  have hstep := step_of_decode he hf hd
  refine ⟨fun t hx => by rw [hstep, hx], fun f hx => by rw [hstep, hx], exec_not_refused i s,
    fun t => ⟨?_, fun hi => ?_⟩⟩
  · rintro rfl; rfl
  · rw [retire_of_ne hi]
    exact ⟨fun _ => rfl, fun _ => rfl, ⟨rfl, rfl⟩, rfl, rfl, rfl, rfl, rfl, rfl, rfl⟩

/-- No step is refused. -/
theorem step_not_refused (s : State) (r : Refusal) : step s ≠ .refused r := by
  intro h
  unfold step at h
  repeat' split at h
  all_goals cases h
  exact exec_not_refused _ _ _ ‹_›

/-- Settles O38: a step that does not complete fails in fetch, in decode, or in one of the four memory instructions. -/
theorem runningStepsNextOrModelFault : Obligations.RunningStepsNextOrModelFault := by
  intro s he
  cases h : step s with
  | next t => exact .inl ⟨t, rfl⟩
  | refused r => exact absurd h (step_not_refused s r)
  | fault f =>
    obtain hend | ⟨-, hf | ⟨w, -, -, rfl⟩ | ⟨w, i, -, -, hx⟩⟩ := step_fault h
    · rw [he] at hend; cases hend
    · obtain rfl | rfl := fetch_error hf
      · exact .inr (.inl ⟨_, .inl rfl⟩)
      · exact .inr (.inl ⟨_, .inr (.inl rfl)⟩)
    · exact .inr (.inr (.inl ⟨w, rfl⟩))
    · obtain ⟨-, ⟨a, rfl | rfl⟩ | rfl⟩ := exec_fault hx
      · exact .inr (.inl ⟨a, .inr (.inr rfl)⟩)
      · exact .inr (.inl ⟨a, .inr (.inl rfl)⟩)
      · exact .inr (.inr (.inr rfl))

/-! ### Ended runs -/

theorem step_of_ending {s : State} {f : Fault} (h : s.ending = some f) : step s = .fault f := by
  simp only [step, h]

theorem run_of_ending {s : State} {f : Fault} (h : s.ending = some f) (n : Nat) : run n s = s := by
  cases n <;> simp only [run, h]

/-- A run of a state whose step answers a next state is that step and the rest of the run. -/
theorem run_succ_of_next {s t : State} (he : s.ending = none) (h : step s = .next t) (n : Nat) :
    run (n + 1) s = run n t := by
  simp only [run, he, h]

/-- A run of a state whose step faults ends there, with the fault recorded. -/
theorem run_succ_of_fault {s : State} {f : Fault} (he : s.ending = none) (h : step s = .fault f) (n : Nat) :
    run (n + 1) s = { s with fault := some f } := by
  simp only [run, he, h]

/-- Settles O39: `outcome` and `State.ending` look at the same three fields in the same order. -/
theorem endedRunsStay : Obligations.EndedRunsStay := by
  refine fun s => ⟨fun f hf => ⟨step_of_ending hf, run_of_ending hf⟩, ?_, fun f => ?_, fun hf => ?_,
    fun he t h => run_succ_of_next he h⟩
  · unfold outcome State.ending
    cases s.fault <;> cases s.halted <;> cases s.stackLimitHit <;> simp
  · unfold outcome
    cases s.fault <;> cases s.halted <;> cases s.stackLimitHit <;> simp
  · simp only [outcome, hf]
    cases s.halted <;> cases s.stackLimitHit <;> simp

/-- Settles O40: `run` records the fault in the state the step was asked about. -/
theorem faultKeepsTheState : Obligations.FaultKeepsTheState := by
  intro s f n he h
  rw [run_succ_of_fault he h]
  exact ⟨rfl, rfl⟩

/-! ### HCF -/

/-- Opcode 0000 has no row with Op2 11 (R79, R85). -/
theorem rFormatRow_opcode_zero_op2_three : rFormatRow 3#2 0#4 = none := rfl

/-- Of the words with Opcode 0000, Imm 0 and Op2 11 only the HCF word decodes. -/
theorem decode_ne_ok_of_hcf_fields {w : Code} (hw : w ≠ hcfWord) (hopc : w.toNat / 4096 = 0)
    (himm : w.toNat / 2048 % 2 = 0) (hop2 : w.toNat % 4 = 3) (strict : Bool) (i : Instr) :
    decode strict w ≠ .ok i := by
  intro h
  have hopc : fieldOpcode w = 0#4 := BitVec.eq_of_toNat_eq ((fieldOpcode_toNat w).trans hopc)
  have himm : fieldImm w = 0#1 := BitVec.eq_of_toNat_eq ((fieldImm_toNat w).trans himm)
  have hop2 : fieldOp2 w = 3#2 := BitVec.eq_of_toNat_eq ((fieldOp2_toNat w).trans hop2)
  obtain ⟨hw', -⟩ | ⟨-, -, mk, hmk, -⟩ | ⟨himm', -⟩ := decodeFields_some.1 (decode_ok.1 h).1
  · exact hw hw'
  · rw [hop2, hopc, rFormatRow_opcode_zero_op2_three] at hmk; cases hmk
  · rw [himm] at himm'; cases himm'

/-- A step that fetches the HCF word sets `halted` and nothing else. -/
theorem step_hcf {s : State} (he : s.ending = none) (hf : fetch s = .ok hcfWord) : step s = .next s.halt :=
  step_of_decode (i := .hcf) he hf (decode_encode (i := .hcf) (by cases s.cfg.strictFixedFields <;> rfl))

/-- Settles O34: HCF only sets `halted`, `retire` adds nothing to it, and `halted` alone decides what follows. -/
theorem haltEndsTheRun : Obligations.HaltEndsTheRun := by
  refine ⟨fun strict => decode_encode (i := .hcf) (by cases strict <;> rfl),
    fun strict w hw hopc himm hop2 i => decode_ne_ok_of_hcf_fields hw hopc himm hop2 strict i,
    fun s => ⟨s.halt, rfl, rfl, fun _ => rfl, fun _ => rfl, ⟨rfl, rfl⟩, rfl, rfl, rfl, rfl, rfl, rfl⟩,
    fun s he hf => ⟨s.halt, step_hcf he hf, rfl, ?_, ?_, ?_⟩⟩
  all_goals obtain ⟨hfault, -, hhit⟩ := ending_none.1 he
  · simp [outcome, hfault]
  · exact step_of_ending (by simp [State.ending, hfault])
  · simp [closingLines, hhit]

/-! ### A placed instruction (log entry 8) -/

/-- Where an instruction is placed lies even and in RAM. -/
theorem fetchAddress_fetchable (s : State) (h : 2 ≤ s.cfg.memSize) :
    (fetchAddress s).toNat % 2 = 0 ∧ (fetchAddress s).toNat + 2 ≤ s.cfg.memSize := by
  unfold fetchAddress
  split
  · next hp => exact ⟨hp.1, (inRam_iff ..).1 hp.2⟩
  · exact ⟨rfl, by simpa using h⟩

/-- The memory of a state with a placed word. -/
theorem withFetchWord_mem (s : State) (w : Code) :
    (s.withFetchWord 16 w.toNat).mem = placeBytes s.mem (fetchAddress s).toNat (bytesOfCode w) := by
  have hw : BitVec.ofNat 16 (w.toNat % 2 ^ 16) = w := by
    apply BitVec.eq_of_toNat_eq
    have := w.isLt
    simp only [BitVec.toNat_ofNat]
    omega
  simp only [State.withFetchWord, hw]

theorem readByte_placeBytes_code {m : Memory} (h : m.wf = true) (a : Nat) (w : Code) (k : Nat) :
    readByte (placeBytes m a (bytesOfCode w)) k =
      if k = a + 1 then w.extractLsb' 0 8 else if k = a then w.extractLsb' 8 8 else readByte m k := by
  simp only [bytesOfCode, placeBytes, readByte_writeByte (writeByte_wf h _ _), readByte_writeByte h]

/-- The placed word is the one fetched. -/
theorem fetch_withFetchWord {s : State} (hc : s.cfg.WellFormed) (hm : s.mem.wf = true) (w : Code) :
    fetch (s.withFetchWord 16 w.toNat) = .ok w := by
  obtain ⟨heven, hram⟩ := fetchAddress_fetchable s (memSize_even hc).2
  refine fetch_ok.2 ⟨heven, hram, ?_⟩
  rw [withFetchWord_mem, readCode]
  show w = codeOfBytes (readByte _ (fetchAddress s).toNat) (readByte _ ((fetchAddress s).toNat + 1))
  rw [readByte_placeBytes_code hm, readByte_placeBytes_code hm]
  simp

/-- A pc that a fetch accepts is where the word is placed. -/
theorem fetchAddress_of_fetchable {s : State} (h1 : fetch s ≠ .error (.misalignedFetch s.pc))
    (h2 : fetch s ≠ .error (.accessFault s.pc)) : fetchAddress s = s.pc := by
  cases h : fetch s with
  | error f => obtain rfl | rfl := fetch_error h <;> contradiction
  | ok w =>
    obtain ⟨heven, hram, -⟩ := fetch_ok.1 h
    exact if_pos ⟨heven, (inRam_iff ..).2 hram⟩

/-- Settles O36: the placed word is fetched and decodes to the instruction, and its two bytes are all that is placed. -/
theorem placedWordRuns : Obligations.PlacedWordRuns := by
  intro s i hc hm hi
  have hstep := step_of_decode (s := s.withFetchWord 16 (encode i).toNat) rfl (fetch_withFetchWord hc hm _)
    (decode_encode hi)
  refine ⟨fun _ => rfl, ⟨rfl, rfl⟩, rfl, fun k hk => ?_, fetchAddress_of_fetchable, fun t hx => by rw [hstep, hx],
    fun f hx => by rw [hstep, hx]⟩
  change k < (fetchAddress s).toNat ∨ (fetchAddress s).toNat + 2 ≤ k at hk
  rw [withFetchWord_mem, readByte_placeBytes_code hm, if_neg (by omega), if_neg (by omega)]

/-! ### The count and the output are not read (D24) -/

/-- The state with another count and another output. -/
def State.recount (s : State) (n : Nat) (out : List Byte) : State := { s with cycles := n, output := out }

section recount
variable (s : State) (n : Nat) (out : List Byte)

@[simp] theorem State.recount_cfg : (s.recount n out).cfg = s.cfg := rfl
@[simp] theorem State.recount_mem : (s.recount n out).mem = s.mem := rfl
@[simp] theorem State.recount_input : (s.recount n out).input = s.input := rfl
@[simp] theorem State.recount_reg (r : Reg) : (s.recount n out).reg r = s.reg r := rfl
@[simp] theorem State.recount_ending : (s.recount n out).ending = s.ending := rfl

end recount

theorem readCharDevice_recount (s : State) (n : Nat) (out : List Byte) :
    readCharDevice (s.recount n out) = (readCharDevice s).map fun p => (p.1, p.2.recount n out) := by
  simp only [readCharDevice, State.recount_input]
  cases s.input <;> rfl

theorem readIntDevice_recount (s : State) (n : Nat) (out : List Byte) :
    readIntDevice (s.recount n out) = (readIntDevice s).map fun p => (p.1, p.2.recount n out) := by
  simp only [readIntDevice, State.recount_input]
  cases s.input <;> rfl

/-- A read sees neither the count nor the output. -/
theorem memRead_recount (s : State) (n : Nat) (out : List Byte) (sz : Size) (a : Word) :
    memRead (s.recount n out) sz a = (memRead s sz a).map fun p => (p.1, p.2.recount n out) := by
  unfold memRead
  rw [readCharDevice_recount, readIntDevice_recount]
  simp only [apply_ite (Except.map _)]
  rfl

/-- A write sees neither the count nor the output; to an output register it appends the same bytes. -/
theorem memWrite_recount (s : State) (n : Nat) (out : List Byte) (sz : Size) (a v : Word) :
    ∃ out', memWrite (s.recount n out) sz a v = (memWrite s sz a v).map fun t => t.recount n out' := by
  by_cases hm : misaligned s.cfg.xlen sz a = true
  · exact ⟨out, by simp only [memWrite, State.recount_cfg, hm, if_true]; rfl⟩
  by_cases hc : sz = .word ∧ a = s.cfg.outChar
  · obtain ⟨rfl, rfl⟩ := hc
    exact ⟨_, by simp only [memWrite, State.recount_cfg, hm, and_self, if_true]; rfl⟩
  by_cases hi : sz = .word ∧ a = s.cfg.outInt
  · obtain ⟨rfl, rfl⟩ := hi
    have hc : s.cfg.outInt ≠ s.cfg.outChar := fun h => hc ⟨rfl, h⟩
    exact ⟨_, by simp only [memWrite, State.recount_cfg, hm, hc, and_false, and_self, if_true, if_false]; rfl⟩
  refine ⟨out, ?_⟩
  simp only [memWrite, State.recount_cfg, State.recount_mem, hm, hc, hi, if_false, apply_ite (Except.map _)]
  rfl

/-- The answer with another count and another output in its next state. -/
def recountResult (n : Nat) (out : List Byte) : Result → Result
  | .next t => .next (t.recount n out)
  | .fault f => .fault f
  | .refused r => .refused r

theorem load_recount (s : State) (n : Nat) (out : List Byte) (sz : Size) (f : Word → Word) (rst rsb : Reg) :
    load sz f rst rsb (s.recount n out) = recountResult n out (load sz f rst rsb s) := by
  simp only [load, State.recount_reg, memRead_recount]
  cases memRead s sz (s.reg rsb) <;> rfl

theorem store_recount (s : State) (n : Nat) (out : List Byte) (sz : Size) (rsa rsb : Reg) :
    ∃ out', store sz rsa rsb (s.recount n out) = recountResult n out' (store sz rsa rsb s) := by
  obtain ⟨out', h⟩ := memWrite_recount s n out sz (s.reg rsb) (s.reg rsa)
  refine ⟨out', ?_⟩
  simp only [store, State.recount_reg, h]
  cases memWrite s sz (s.reg rsb) (s.reg rsa) <;> rfl

theorem branch_recount (s : State) (n : Nat) (out : List Byte) (taken : Bool) (target : Word) :
    branch taken target (s.recount n out) = recountResult n out (branch taken target s) := by
  cases taken <;> rfl

/-- An instruction does the same whatever the count and the output are. -/
theorem exec_recount (i : Instr) (s : State) (n : Nat) (out : List Byte) :
    ∃ out', exec i (s.recount n out) = recountResult n out' (exec i s) := by
  cases i with
  | ldb d _ b => exact ⟨out, load_recount s n out .byte _ d b⟩
  | ldw d _ b => exact ⟨out, load_recount s n out .word _ d b⟩
  | stb _ a b => exact store_recount s n out .byte a b
  | stw _ a b => exact store_recount s n out .word a b
  | bezR _ a b | bezRAsm _ a b | bnzR _ a b | bnzRAsm _ a b => exact ⟨out, branch_recount s n out _ (s.reg b)⟩
  | bezI d v | bnzI d v => exact ⟨out, branch_recount s n out _ (relativeTarget s v)⟩
  | _ => exact ⟨out, rfl⟩

theorem retire_recount (i : Instr) (s : State) (n : Nat) (out : List Byte) :
    ∃ n', retire i (s.recount n out) = (retire i s).recount n' out := by
  unfold retire
  split
  · exact ⟨n, rfl⟩
  · exact ⟨n + 1, rfl⟩

/-- A step does the same whatever the count and the output are. -/
theorem step_recount (s : State) (n : Nat) (out : List Byte) :
    ∃ n' out', step (s.recount n out) = recountResult n' out' (step s) := by
  have hfetch : fetch (s.recount n out) = fetch s := rfl
  have hdecode : ∀ w, decodeStep (s.recount n out) w = decodeStep s w := fun _ => rfl
  simp only [step, State.recount_ending, hfetch, hdecode]
  cases s.ending with
  | some f => exact ⟨n, out, rfl⟩
  | none =>
    dsimp only
    cases fetch s with
    | error f => exact ⟨n, out, rfl⟩
    | ok w =>
      dsimp only
      cases decodeStep s w with
      | error f => exact ⟨n, out, rfl⟩
      | ok i =>
        obtain ⟨out', hx⟩ := exec_recount i s n out
        simp only [hx]
        cases exec i s with
        | next t =>
          obtain ⟨n', hr⟩ := retire_recount i t n out'
          exact ⟨n', out', congrArg Host.Outcome.next hr⟩
        | fault f => exact ⟨n, out', rfl⟩
        | refused r => exact ⟨n, out', rfl⟩

/-- Settles O52: a step of the one state is a step of the other, but for count and output. -/
theorem countsAndOutputAreNotRead : Obligations.CountsAndOutputAreNotRead := by
  intro s s' hs
  obtain ⟨n', out', hstep⟩ := step_recount s s'.cycles s'.output
  change s' = s.recount s'.cycles s'.output at hs
  rw [← hs] at hstep
  exact ⟨fun t h => ⟨t.recount n' out', by rw [hstep, h]; rfl, rfl⟩, fun f h => by rw [hstep, h]; rfl⟩

end Sys2Proof.Machine
end

section
/-! PROOFS. Memory and its accesses (20_memory.md): the canonical form, byte lanes, fetch, and what an access outside
RAM or at a misaligned address answers. -/

namespace Sys2Proof.Machine

/-! ### The canonical form -/

theorem readByte_cons_self (k : Nat) (b : Byte) (m : Memory) : readByte ((k, b) :: m) k = b := if_pos rfl

theorem readByte_cons_below {k a : Nat} (b : Byte) (m : Memory) (h : a < k) :
    readByte ((k, b) :: m) a = unlistedByte := by
  rw [readByte, if_neg (by omega), if_pos h]

theorem readByte_cons_above {k a : Nat} (b : Byte) (m : Memory) (h : k < a) :
    readByte ((k, b) :: m) a = readByte m a := by
  rw [readByte, if_neg (by omega), if_neg (by omega)]

/-- Two canonical memories that read alike have their first cells at the same address: the lower of the two addresses
would read as unlisted in the other. -/
theorem head_le_of_reads {k k' : Nat} {b b' : Byte} {m m' : Memory} (hb : b ≠ unlistedByte)
    (h : ∀ a, readByte ((k, b) :: m) a = readByte ((k', b') :: m') a) : k' ≤ k := by
  by_contra hlt
  have hk := h k
  rw [readByte_cons_self, readByte_cons_below _ _ (by omega)] at hk
  exact hb hk

/-- Settles O7, by induction on the two lists: equal reads give equal first cells, and equal reads of the rest. -/
theorem equalReadsMakeEqualMemories : Obligations.EqualReadsMakeEqualMemories := by
  intro m
  induction m with
  | nil =>
    rintro (_ | ⟨⟨k, b⟩, m'⟩) - hwf' h
    · rfl
    · have hk := h k
      rw [readByte_cons_self] at hk
      exact absurd hk.symm (Memory.wf_cons.1 hwf').1
  | cons c m ih =>
    obtain ⟨k, b⟩ := c
    rintro (_ | ⟨⟨k', b'⟩, m'⟩) hwf hwf' h
    · have hk := h k
      rw [readByte_cons_self] at hk
      exact absurd hk (Memory.wf_cons.1 hwf).1
    obtain ⟨hb, hm⟩ := Memory.wf_cons.1 hwf
    obtain ⟨hb', hm'⟩ := Memory.wf_cons.1 hwf'
    obtain rfl : k = k' := Nat.le_antisymm (head_le_of_reads hb' fun a => (h a).symm) (head_le_of_reads hb h)
    obtain rfl : b = b' := by simpa only [readByte_cons_self] using h k
    have htail : ∀ a, readByte m a = readByte m' a := fun a => by
      by_cases ha : a ≤ k
      · rw [readByte_of_cellsAbove hm ha, readByte_of_cellsAbove hm' ha]
      · simpa only [readByte_cons_above _ _ (Nat.lt_of_not_le ha)] using h a
    rw [ih m' (Memory.wf_of_cellsAbove hm) (Memory.wf_of_cellsAbove hm') htail]

/-! ### Byte lanes (R43) -/

/-- Two adjacent bytes of a value are its half word. -/
theorem codeOfBytes_lanes (v : Word) (k : Nat) :
    codeOfBytes (v.extractLsb' (k + 8) 8) (v.extractLsb' k 8) = v.extractLsb' k 16 := by
  apply BitVec.eq_of_toNat_eq
  simp only [codeOfBytes_toNat, BitVec.extractLsb'_toNat, Nat.shiftRight_eq_div_pow, Nat.pow_add,
    ← Nat.div_div_eq_div_mul]
  omega

/-- A word written to memory reads back mod 2^XLEN. -/
theorem readBytes_writeBytes {m : Memory} (h : m.wf = true) (x : XLen) (a : Nat) (v : Word) :
    readBytes (writeBytes m a x.wordBytes v) a x.wordBytes = trim x v := by
  have hv := v.isLt
  have hlane := fun {k} (hk : k < x.wordBytes) => readByte_writeBytes_lane h a x.wordBytes v hk
  apply BitVec.eq_of_toNat_eq
  cases x
  · have h0 := hlane (k := 0) (by decide)
    have h1 := hlane (k := 1) (by decide)
    simp only [XLen.wordBytes, Nat.add_zero] at h0 h1 ⊢
    rw [readBytes_two_toNat, h0, h1, toNat_trim]
    simp only [BitVec.extractLsb'_toNat, Nat.shiftRight_eq_div_pow, XLen.bits]
    omega
  · have h0 := hlane (k := 0) (by decide)
    have h1 := hlane (k := 1) (by decide)
    have h2 := hlane (k := 2) (by decide)
    have h3 := hlane (k := 3) (by decide)
    simp only [XLen.wordBytes, Nat.add_zero] at h0 h1 h2 h3 ⊢
    rw [readBytes_four_toNat, h0, h1, h2, h3, toNat_trim]
    simp only [BitVec.extractLsb'_toNat, Nat.shiftRight_eq_div_pow, XLen.bits]
    omega

/-- The lanes of R43 for both widths. -/
theorem word_lanes {m : Memory} (h : m.wf = true) (x : XLen) (a : Nat) (v : Word) :
    (x = .x16 →
      readByte (writeBytes m a x.wordBytes v) a = v.extractLsb' 8 8 ∧
      readByte (writeBytes m a x.wordBytes v) (a + 1) = v.extractLsb' 0 8) ∧
    (x = .x32 →
      readByte (writeBytes m a x.wordBytes v) a = v.extractLsb' 24 8 ∧
      readByte (writeBytes m a x.wordBytes v) (a + 1) = v.extractLsb' 16 8 ∧
      readByte (writeBytes m a x.wordBytes v) (a + 2) = v.extractLsb' 8 8 ∧
      readByte (writeBytes m a x.wordBytes v) (a + 3) = v.extractLsb' 0 8) := by
  have hlane := fun {k} (hk : k < x.wordBytes) => readByte_writeBytes_lane h a x.wordBytes v hk
  constructor
  · rintro rfl
    exact ⟨hlane (k := 0) (by decide), hlane (k := 1) (by decide)⟩
  · rintro rfl
    exact ⟨hlane (k := 0) (by decide), hlane (k := 1) (by decide), hlane (k := 2) (by decide),
      hlane (k := 3) (by decide)⟩

theorem misaligned_word {x : XLen} {a : Word} : misaligned x .word a = false ↔ a.toNat % x.wordBytes = 0 := by
  simp [misaligned]

/-- A byte read in RAM. -/
theorem memRead_byte {s : State} {a : Word} (h : a.toNat < s.cfg.memSize) :
    memRead s .byte a = .ok ((readByte s.mem a.toNat).setWidth 32, s) := by
  rw [memRead_ram (sz := .byte) nofun rfl h]
  simp only [sizeBytes, readBytes_one]

/-- A byte write in RAM. -/
theorem memWrite_byte {s : State} {a : Word} (v : Word) (h : a.toNat < s.cfg.memSize) :
    memWrite s .byte a v = .ok (s.setMem (writeByte s.mem a.toNat (v.setWidth 8))) :=
  memWrite_ram (sz := .byte) v nofun rfl h

/-- An address inside RAM and an offset that stays there do not wrap. -/
theorem toNat_add_ofNat {a : Word} {k : Nat} (h : a.toNat + k < 2 ^ 32) :
    (a + BitVec.ofNat 32 k).toNat = a.toNat + k := by
  simp only [BitVec.toNat_add, BitVec.toNat_ofNat]
  omega

/-- Settles O8: a word write stores its lanes, and a byte access at a lane sees that lane. -/
theorem wordLanes : Obligations.WordLanes := by
  intro s a v hc hwf ha hr
  have hwf' : (writeBytes s.mem a.toNat s.cfg.xlen.wordBytes v).wf = true := writeBytes_wf hwf _ _ _
  obtain ⟨hx16, hx32⟩ := word_lanes hwf s.cfg.xlen a.toNat v
  refine ⟨s.setMem (writeBytes s.mem a.toNat s.cfg.xlen.wordBytes v),
    memWrite_ram (sz := .word) v (fun _ => hc) (misaligned_word.2 ha) hr, hx16, hx32, ?_, fun k b hk => ?_⟩
  · refine Eq.trans (memRead_ram (sz := .word) (fun _ => hc) (misaligned_word.2 ha) hr) ?_
    simp only [State.setMem_cfg, State.setMem_mem, sizeBytes, readBytes_writeBytes hwf]
  · have hsize := memSize_le hc
    have hk' : (a + BitVec.ofNat 32 k).toNat = a.toNat + k := toNat_add_ofNat (by omega)
    have hin : (a + BitVec.ofNat 32 k).toNat < s.cfg.memSize := by omega
    refine ⟨?_, _, memWrite_byte b hin, fun j hj => ?_⟩
    · rw [← hk']
      exact memRead_byte hin
    · rw [hk', State.setMem_mem, State.setMem_mem, readByte_writeByte hwf']
      simp only [Nat.add_left_cancel_iff]

/-! ### Fetch -/

/-- Jumping to an even XLEN-bit address with two bytes in RAM and fetching gives the code there. -/
theorem fetch_setPc {s : State} {a : Word} (hlt : a.toNat < 2 ^ s.cfg.xlen.bits) (heven : a.toNat % 2 = 0)
    (hr : a.toNat + 2 ≤ s.cfg.memSize) : fetch (s.setPc a) = .ok (readCode s.mem a.toNat) := by
  refine fetch_ok.2 ?_
  rw [State.setPc_pc, trim_of_lt hlt]
  exact ⟨heven, hr, rfl⟩

/-- The same from the state a store to RAM leaves. -/
theorem fetch_stored {s : State} (m : Memory) {a : Word} (hlt : a.toNat < 2 ^ s.cfg.xlen.bits)
    (heven : a.toNat % 2 = 0) (hr : a.toNat + 2 ≤ s.cfg.memSize) :
    fetch ((s.setMem m).advance.setPc a) = .ok (readCode m a.toNat) :=
  fetch_setPc (s := (s.setMem m).advance) hlt heven hr

theorem fetch_odd {s : State} (h : s.pc.toNat % 2 = 1) : fetch s = .error (.misalignedFetch s.pc) :=
  if_pos (by omega)

theorem fetch_outside {s : State} (h : s.pc.toNat % 2 = 0) (hr : s.cfg.memSize < s.pc.toNat + 2) :
    fetch s = .error (.accessFault s.pc) := by
  have hr : ¬ inRam s.cfg s.pc 2 = true := by rw [inRam_iff]; omega
  rw [fetch, if_neg (by omega), if_neg hr]

/-- Settles O11: the three clauses are the three branches of `fetch`; a word of 4 bytes is two codes. -/
theorem fetchRule : Obligations.FetchRule := by
  refine fun s => ⟨fetch_odd, fun h hr => fetch_outside h (by omega), fun h hr => ?_, fun hc hx a ha hr => ?_⟩
  · exact ⟨_, fetch_ok.2 ⟨h, by omega, rfl⟩, readCode_toNat _ _⟩
  · have hsize := memSize_le hc
    have hword : s.cfg.xlen.wordBytes = 4 := by rw [hx]; rfl
    have hbits : s.cfg.xlen.bits = 32 := by rw [hx]; rfl
    have h2 : (a + 2#32).toNat = a.toNat + 2 := toNat_add_ofNat (by omega)
    have hread := memRead_ram (s := s) (sz := .word) (a := a) (fun _ => hc)
      (misaligned_word.2 (by rw [hword]; exact ha)) (by simp only [sizeBytes, hword]; exact hr)
    simp only [sizeBytes, hword] at hread
    refine ⟨_, readCode s.mem a.toNat, readCode s.mem (a.toNat + 2), hread,
      fetch_setPc (by rw [hbits]; omega) (by omega) (by omega), ?_, ?_⟩
    · rw [← h2]
      exact fetch_setPc (by rw [hbits]; omega) (by omega) (by omega)
    · rw [readBytes_four_toNat, readCode_toNat, readCode_toNat, show a.toNat + 2 + 1 = a.toNat + 3 from rfl]
      omega

/-! ### Accesses that fault -/

theorem memRead_misaligned {s : State} {sz : Size} {a : Word} (h : misaligned s.cfg.xlen sz a = true) :
    memRead s sz a = .error (.misalignedAccess a) := if_pos h

theorem memWrite_misaligned {s : State} {sz : Size} {a : Word} (v : Word) (h : misaligned s.cfg.xlen sz a = true) :
    memWrite s sz a v = .error (.misalignedAccess a) := if_pos h

/-- A read that is neither of RAM nor of an input register faults. -/
theorem memRead_outside {s : State} {sz : Size} {a : Word} (hm : misaligned s.cfg.xlen sz a = false)
    (ha : s.cfg.memSize ≤ a.toNat) (hd : sz = .word → a ≠ s.cfg.inChar ∧ a ≠ s.cfg.inInt) :
    memRead s sz a = .error (.accessFault a) := by
  have hs := sizeBytes_pos s.cfg.xlen sz
  have hr : ¬ inRam s.cfg a (sizeBytes s.cfg.xlen sz) = true := by rw [inRam_iff]; omega
  rw [memRead, if_neg (by simp [hm]), if_neg fun h => (hd h.1).1 h.2, if_neg fun h => (hd h.1).2 h.2, if_neg hr]

/-- A write that is neither to RAM nor to an output register faults. -/
theorem memWrite_outside {s : State} {sz : Size} {a : Word} (v : Word) (hm : misaligned s.cfg.xlen sz a = false)
    (ha : s.cfg.memSize ≤ a.toNat) (hd : sz = .word → a ≠ s.cfg.outChar ∧ a ≠ s.cfg.outInt) :
    memWrite s sz a v = .error (.accessFault a) := by
  have hs := sizeBytes_pos s.cfg.xlen sz
  have hr : ¬ inRam s.cfg a (sizeBytes s.cfg.xlen sz) = true := by rw [inRam_iff]; omega
  rw [memWrite, if_neg (by simp [hm]), if_neg fun h => (hd h.1).1 h.2, if_neg fun h => (hd h.1).2 h.2, if_neg hr]

/-- A write that completes was aligned. -/
theorem memWrite_aligned {s t : State} {sz : Size} {a v : Word} (h : memWrite s sz a v = .ok t) :
    misaligned s.cfg.xlen sz a = false := by
  by_contra hm
  rw [memWrite_misaligned v (by simpa using hm)] at h
  cases h

section shapes
variable {s t : State} {sz : Size} {f : Fault} {rst rsa rsb : Reg}

theorem load_of_error (extend : Word → Word) (h : memRead s sz (s.reg rsb) = .error f) :
    load sz extend rst rsb s = .fault f := by simp only [load, h, raise]

theorem load_of_ok (extend : Word → Word) {v : Word} (h : memRead s sz (s.reg rsb) = .ok (v, t)) :
    load sz extend rst rsb s = .next ((t.setReg rst (extend v)).advance) := by simp only [load, h]

theorem store_of_error (h : memWrite s sz (s.reg rsb) (s.reg rsa) = .error f) :
    store sz rsa rsb s = .fault f := by simp only [store, h, raise]

theorem store_of_ok (h : memWrite s sz (s.reg rsb) (s.reg rsa) = .ok t) :
    store sz rsa rsb s = .next t.advance := by simp only [store, h]

end shapes

/-- Settles O9: alignment is checked before anything else. -/
theorem misalignedWordAccessFaults : Obligations.MisalignedWordAccessFaults := by
  intro s rst rsa rsb h
  have hm : misaligned s.cfg.xlen .word (s.reg rsb) = true := by simpa [misaligned] using h
  exact ⟨load_of_error id (memRead_misaligned hm), store_of_error (memWrite_misaligned _ hm)⟩

/-- Settles O10: outside RAM only a word access of the right direction to a device register completes. -/
theorem dataAccessOutsideFaults : Obligations.DataAccessOutsideFaults := by
  refine fun s rst rsa rsb h => ⟨load_of_error _ (memRead_outside rfl h nofun),
    store_of_error (memWrite_outside _ rfl h nofun), fun ha => ⟨fun h1 h2 => ?_, fun h1 h2 => ?_⟩⟩
  · exact load_of_error id (memRead_outside (misaligned_word.2 ha) h fun _ => ⟨h1, h2⟩)
  · exact store_of_error (memWrite_outside _ (misaligned_word.2 ha) h fun _ => ⟨h1, h2⟩)

/-! ### Stores seen by fetches (R59) -/

/-- The state that an STW with a base register in RAM leaves. -/
theorem stw_next_ram {s t : State} {rst rsa rsb : Reg} (hc : s.cfg.WellFormed)
    (hr : (s.reg rsb).toNat < s.cfg.memSize) (h : exec (.stw rst rsa rsb) s = .next t) :
    (s.reg rsb).toNat % s.cfg.xlen.wordBytes = 0 ∧
      t = (s.setMem (writeBytes s.mem (s.reg rsb).toNat s.cfg.xlen.wordBytes (s.reg rsa))).advance := by
  obtain ⟨u, hm, rfl⟩ := store_next h
  refine ⟨misaligned_word.1 (memWrite_aligned hm), ?_⟩
  obtain ⟨-, rfl⟩ | ⟨-, hd, -⟩ := memWrite_ok hm
  · rfl
  · obtain ⟨h1, h2, -⟩ := memSize_le_devices hc
    obtain hd | hd := hd <;> rw [hd] at hr <;> omega

/-- The state that an STB leaves. -/
theorem stb_next_ram {s t : State} {rst rsa rsb : Reg} (h : exec (.stb rst rsa rsb) s = .next t) :
    t = (s.setMem (writeByte s.mem (s.reg rsb).toNat ((s.reg rsa).setWidth 8))).advance := by
  obtain ⟨u, hm, rfl⟩ := store_next h
  obtain ⟨-, rfl⟩ | ⟨hsz, -⟩ := memWrite_ok hm
  · rfl
  · cases hsz

theorem extractLsb'_zero_eight (v : Word) : v.extractLsb' 0 8 = v.setWidth 8 := by
  apply BitVec.eq_of_toNat_eq
  simp

/-- The code at an address after STW: the half word of the source that its two lanes hold. -/
theorem fetch_after_stw {s t : State} {rst rsa rsb : Reg} (hc : s.cfg.WellFormed) (hwf : s.mem.wf = true)
    (hr : (s.reg rsb).toNat < s.cfg.memSize) (h : exec (.stw rst rsa rsb) s = .next t) :
    (s.cfg.xlen = .x16 → fetch (t.setPc (s.reg rsb)) = .ok ((s.reg rsa).extractLsb' 0 16)) ∧
    (s.cfg.xlen = .x32 →
      fetch (t.setPc (s.reg rsb)) = .ok ((s.reg rsa).extractLsb' 16 16) ∧
      fetch (t.setPc (s.reg rsb + 2#32)) = .ok ((s.reg rsa).extractLsb' 0 16)) := by
  obtain ⟨ha, rfl⟩ := stw_next_ram hc hr h
  have hfit := aligned_fits hc _ ha hr
  have hlt := s.reg_lt rsb
  obtain ⟨hx16, hx32⟩ := word_lanes hwf s.cfg.xlen (s.reg rsb).toNat (s.reg rsa)
  constructor <;> intro hx
  · obtain ⟨h0, h1⟩ := hx16 hx
    rw [show s.cfg.xlen.wordBytes = 2 by rw [hx]; rfl] at ha hfit
    rw [fetch_stored _ hlt ha hfit, readCode, h0, h1]
    exact congrArg _ (codeOfBytes_lanes _ 0)
  · obtain ⟨h0, h1, h2, h3⟩ := hx32 hx
    rw [show s.cfg.xlen.wordBytes = 4 by rw [hx]; rfl] at ha hfit
    have hsize := memSize_le hc
    have hnext : (s.reg rsb + 2#32).toNat = (s.reg rsb).toNat + 2 := toNat_add_ofNat (by omega)
    have hbits : s.cfg.xlen.bits = 32 := by rw [hx]; rfl
    have hfits := hc.ramFits
    constructor
    · rw [fetch_stored _ hlt (by omega) (by omega), readCode, h0, h1]
      exact congrArg _ (codeOfBytes_lanes _ 16)
    · rw [fetch_stored _ (by omega) (by omega) (by omega), readCode, hnext, h2, h3]
      exact congrArg _ (codeOfBytes_lanes _ 0)

/-- The code that holds a byte, after STB: that byte is replaced, at an even and at an odd address. -/
theorem fetch_after_stb {s t : State} {rst rsa rsb : Reg} (hc : s.cfg.WellFormed) (hwf : s.mem.wf = true)
    (hr : (s.reg rsb).toNat < s.cfg.memSize) (h : exec (.stb rst rsa rsb) s = .next t) :
    ((s.reg rsb).toNat % 2 = 0 →
      fetch (t.setPc (s.reg rsb)) =
        .ok (codeOfBytes ((s.reg rsa).extractLsb' 0 8) (readByte s.mem ((s.reg rsb).toNat + 1)))) ∧
    ((s.reg rsb).toNat % 2 = 1 →
      fetch (t.setPc (s.reg rsb - 1#32)) =
        .ok (codeOfBytes (readByte s.mem ((s.reg rsb).toNat - 1)) ((s.reg rsa).extractLsb' 0 8))) := by
  obtain rfl := stb_next_ram h
  have hlt := s.reg_lt rsb
  obtain ⟨heven, -⟩ := memSize_even hc
  constructor <;> intro ha
  · rw [fetch_stored _ hlt ha (by omega), readCode, readByte_writeByte_same hwf,
      readByte_writeByte_other hwf _ (by omega), extractLsb'_zero_eight]
  · have hprev : (s.reg rsb - 1#32).toNat = (s.reg rsb).toNat - 1 := by
      have := (s.reg rsb).isLt
      rw [BitVec.toNat_sub, BitVec.toNat_ofNat]
      omega
    rw [fetch_stored _ (by omega) (by omega) (by omega), readCode, hprev,
      show (s.reg rsb).toNat - 1 + 1 = (s.reg rsb).toNat by omega, readByte_writeByte_same hwf,
      readByte_writeByte_other hwf _ (by omega), extractLsb'_zero_eight]

/-- Settles O12: the fetch reads the lanes that the store wrote. -/
theorem storedCodeIsFetched : Obligations.StoredCodeIsFetched := fun _ _ _ _ _ hc hwf hr =>
  ⟨fetch_after_stw hc hwf hr, fetch_after_stb hc hwf hr⟩

end Sys2Proof.Machine
end

section
/-! PROOFS. The devices (60_exceptions.md section 3), the four memory instructions (43_load_store.md) and the priority
of faults (60_exceptions.md section 2). An access to a device register is the device's own operation; everything else
about a load or a store follows from the access it makes. -/

namespace Sys2Proof.Machine

/-! ### Device accesses -/

section devices
variable {s : State} (hc : s.cfg.WellFormed)
include hc

theorem memWrite_outChar (v : Word) : memWrite s .word s.cfg.outChar v = .ok (writeCharDevice s v) := by
  obtain ⟨ha, -, -, -⟩ := device_aligned hc
  simp [memWrite, ha]

theorem memWrite_outInt (v : Word) : memWrite s .word s.cfg.outInt v = .ok (writeIntDevice s v) := by
  obtain ⟨-, ha, -, -⟩ := device_aligned hc
  obtain ⟨hne, -⟩ := devices_distinct hc
  simp [memWrite, ha, hne.symm]

theorem memRead_inChar : memRead s .word s.cfg.inChar = readCharDevice s := by
  obtain ⟨-, -, ha, -⟩ := device_aligned hc
  simp [memRead, ha]

theorem memRead_inInt : memRead s .word s.cfg.inInt = readIntDevice s := by
  obtain ⟨-, -, -, ha⟩ := device_aligned hc
  obtain ⟨-, -, -, -, -, hne⟩ := devices_distinct hc
  simp [memRead, ha, hne.symm]

end devices

/-- Appending to the output and advancing pc changes nothing else. -/
theorem outputFrame_emit (s : State) (bs : List Byte) :
    SameRegisters s (s.emit bs).advance ∧ SameMemory s (s.emit bs).advance ∧
      SameEnvironment s (s.emit bs).advance ∧ PcAdvanced s (s.emit bs).advance :=
  ⟨fun _ => rfl, fun _ => rfl, ⟨rfl, rfl, rfl, rfl, rfl, rfl⟩, pcAdvanced_advance (s.emit bs)⟩

/-- Settles O13: the device appends the low byte. -/
theorem characterOutput : Obligations.CharacterOutput := by
  intro s rst rsa rsb hc h
  obtain ⟨hregs, hmem, henv, hpc⟩ := outputFrame_emit s [(s.reg rsa).setWidth 8]
  have hwrite := h ▸ memWrite_outChar hc (s.reg rsa)
  refine ⟨_, store_of_ok hwrite, ?_, rfl, hregs, hmem, henv, hpc⟩
  rw [extractLsb'_zero_eight]
  rfl

theorem decimalText_of_nonneg {z : Int} (h : 0 ≤ z) : IsDecimalText z.toNat (decimalText z) := by
  rw [decimalText, if_neg (by omega), show z.natAbs = z.toNat by omega]
  exact decimalDigits_spec _ _ (Nat.lt_succ_self _)

theorem decimalText_of_neg {z : Int} (h : z < 0) :
    ∃ digits, decimalText z = 0x2D#8 :: digits ∧ IsDecimalText (-z).toNat digits := by
  refine ⟨_, if_pos h, ?_⟩
  rw [show (-z).toNat = z.natAbs by omega]
  exact decimalDigits_spec _ _ (Nat.lt_succ_self _)

/-- Settles O14: the device appends the decimal text of the signed value. -/
theorem integerOutput : Obligations.IntegerOutput := by
  intro s rst rsa rsb hc h
  obtain ⟨hregs, hmem, henv, hpc⟩ := outputFrame_emit s (decimalText (signed s.cfg.xlen (s.reg rsa)))
  have hwrite := h ▸ memWrite_outInt hc (s.reg rsa)
  refine ⟨_, _, store_of_ok hwrite, rfl, rfl, fun hz => ?_, fun hz => ?_, hregs, hmem, henv, hpc⟩ <;> rw [signed_reg]
  · exact decimalText_of_nonneg hz
  · exact decimalText_of_neg hz

/-- Settles O15: the device consumes the head of the input and gives it mod 256. -/
theorem characterInput : Obligations.CharacterInput := by
  refine fun s rst rsa rsb hc h => ⟨fun hi => ?_, fun n rest hi => ?_⟩
  · exact load_of_error id (by rw [h, memRead_inChar hc]; simp only [readCharDevice, hi])
  · have hread : memRead s .word (s.reg rsb) = .ok (zext8 (BitVec.ofInt 8 n), s.setInput rest) := by
      rw [h, memRead_inChar hc]; simp only [readCharDevice, hi]
    obtain ⟨hregs, hmem, henv, hpc⟩ := inputFrame_setInput s rest rst (zext8 (BitVec.ofInt 8 n))
    refine ⟨_, load_of_ok id hread, ?_, rfl, rfl, hregs, hmem, henv, hpc⟩
    rw [reg_computed_same, id, trim_zext8, toNat_zext8, BitVec.toNat_ofInt]
    omega

/-- An integer reduced to 32 bits and then to XLEN bits is the integer mod 2^XLEN. -/
theorem toNat_trim_ofInt (x : XLen) (n : Int) :
    ((trim x (BitVec.ofInt 32 n)).toNat : Int) = n % 2 ^ x.bits := by
  rw [toNat_trim, BitVec.toNat_ofInt]
  cases x <;> simp only [XLen.bits] <;> omega

/-- Settles O16: the device consumes the head of the input and gives it mod 2^XLEN. -/
theorem integerInput : Obligations.IntegerInput := by
  refine fun s rst rsa rsb hc h => ⟨fun hi => ?_, fun n rest hi => ?_⟩
  · exact load_of_error id (by rw [h, memRead_inInt hc]; simp only [readIntDevice, hi])
  · have hread : memRead s .word (s.reg rsb) = .ok (trim s.cfg.xlen (BitVec.ofInt 32 n), s.setInput rest) := by
      rw [h, memRead_inInt hc]; simp only [readIntDevice, hi]
    obtain ⟨hregs, hmem, henv, hpc⟩ := inputFrame_setInput s rest rst (trim s.cfg.xlen (BitVec.ofInt 32 n))
    refine ⟨_, load_of_ok id hread, ?_, rfl, rfl, hregs, hmem, henv, hpc⟩
    rw [reg_computed_same, id, State.setInput_cfg, trim_trim, toNat_trim_ofInt]

/-! ### Loads and stores -/

theorem signedValue_sext8 (x : XLen) (b : Byte) : signedValue x (sext8 x b) = b.toInt := by
  have hr := imm8_range b
  exact signedValue_of_mod _ _ _ (toNat_sext8 x b) (by omega)

/-- Settles O28: the byte read is sign-extended. -/
theorem loadByte : Obligations.LoadByte := by
  refine fun rst rsa rsb s => ⟨hasWord_rFormat 0#4 2#2 rfl rfl (by decide) rfl,
    fun hne => decode_encode_ne_ok (by simpa [Instr.fixedFieldsZero] using hne), fun _ => ⟨rfl, rfl⟩, fun hr => ?_,
    fun hr => (dataAccessOutsideFaults s rst rsa rsb hr).1⟩
  refine ⟨_, load_of_ok _ (memRead_byte hr), computeFrame_setReg _ _ s, ?_⟩
  rw [reg_computed_same, trim_sext8, signedValue_sext8]
  simp

/-- Settles O29: one byte is written. -/
theorem storeByte : Obligations.StoreByte := by
  refine fun rst rsa rsb s hwf => ⟨hasWord_rFormat 1#4 2#2 rfl rfl (by decide) rfl,
    fun hne => decode_encode_ne_ok (by simpa [Instr.fixedFieldsZero] using hne), fun _ => ⟨rfl, rfl⟩, fun hr => ?_,
    fun hr => (dataAccessOutsideFaults s rst rsa rsb hr).2.1⟩
  refine ⟨_, store_of_ok (memWrite_byte _ hr), storeFrame_writeBytes s hwf _ 1 _, ?_⟩
  rw [State.advance_mem, State.setMem_mem, readByte_writeByte_same hwf, extractLsb'_zero_eight]

/-- A big-endian word of RAM is an XLEN-bit value. -/
theorem trim_readBytes (x : XLen) (m : Memory) (a : Nat) :
    trim x (readBytes m a x.wordBytes) = readBytes m a x.wordBytes := by
  apply trim_of_lt
  cases x
  · exact readBytes_toNat_lt m a 2 (by decide)
  · exact readBytes_toNat_lt m a 4 (by decide)

/-- An aligned word load in RAM. -/
theorem memRead_word {s : State} {a : Word} (hc : s.cfg.WellFormed) (ha : a.toNat % s.cfg.xlen.wordBytes = 0)
    (hr : a.toNat < s.cfg.memSize) :
    memRead s .word a = .ok (readBytes s.mem a.toNat s.cfg.xlen.wordBytes, s) :=
  memRead_ram (sz := .word) (fun _ => hc) (misaligned_word.2 ha) (aligned_fits hc _ ha hr)

/-- An aligned word store in RAM. -/
theorem memWrite_word {s : State} {a : Word} (hc : s.cfg.WellFormed) (ha : a.toNat % s.cfg.xlen.wordBytes = 0)
    (hr : a.toNat < s.cfg.memSize) (v : Word) :
    memWrite s .word a v = .ok (s.setMem (writeBytes s.mem a.toNat s.cfg.xlen.wordBytes v)) :=
  memWrite_ram (sz := .word) v (fun _ => hc) (misaligned_word.2 ha) (aligned_fits hc _ ha hr)

/-- Settles O30: the word read fills the register as it is. -/
theorem loadWordFromRam : Obligations.LoadWordFromRam := by
  refine fun rst rsa rsb s => ⟨hasWord_rFormat 4#4 2#2 rfl rfl (by decide) rfl, fun hc ha hr => ?_⟩
  have hreg := reg_computed_same rst (readBytes s.mem (s.reg rsb).toNat s.cfg.xlen.wordBytes) s
  rw [trim_readBytes] at hreg
  refine ⟨_, load_of_ok id (memRead_word hc ha hr), computeFrame_setReg _ _ s, fun hx => ?_, fun hx => ?_⟩
  all_goals rw [id, hreg, hx]
  · exact readBytes_two_toNat _ _
  · exact readBytes_four_toNat _ _

/-- Settles O31: the lanes of the word are written, and nothing else. -/
theorem storeWordToRam : Obligations.StoreWordToRam := by
  refine fun rst rsa rsb s hwf => ⟨hasWord_rFormat 5#4 2#2 rfl rfl (by decide) rfl, fun hc ha hr => ?_⟩
  exact ⟨_, store_of_ok (memWrite_word hc ha hr _), storeFrame_writeBytes s hwf _ _ _, word_lanes hwf _ _ _⟩

/-! ### Priority of faults (D23) -/

section priority
variable {s : State}

theorem step_of_fetch_error {f : Fault} (he : s.ending = none) (h : fetch s = .error f) : step s = .fault f := by
  simp only [step, he, h]

variable {w : Code} {i : Instr} (he : s.ending = none) (hf : fetch s = .ok w)
  (hd : decode s.cfg.strictFixedFields w = .ok i)
include he hf hd

/-- Past fetch and decode, the faults of a step are those of the instruction. -/
theorem step_fault_iff_exec_fault (f : Fault) : step s = .fault f ↔ exec i s = .fault f := by
  rw [step_of_decode he hf hd]
  cases exec i s <;> simp

theorem step_completes_of_exec {t : State} (h : exec i s = .next t) : ∃ u, step s = .next u :=
  ⟨retire i t, by rw [step_of_decode he hf hd, h]⟩

end priority

/-- A byte access faults exactly outside RAM. -/
theorem byteAccess_fault_iff (s : State) {i : Instr} {rst rsa rsb : Reg}
    (hi : i = .ldb rst rsa rsb ∨ i = .stb rst rsa rsb) :
    exec i s = .fault (.accessFault (s.reg rsb)) ↔ s.cfg.memSize ≤ (s.reg rsb).toNat := by
  constructor
  · intro h
    by_contra hr
    have hr : (s.reg rsb).toNat < s.cfg.memSize := by omega
    obtain rfl | rfl := hi
    · have hx : exec (.ldb rst rsa rsb) s = _ := load_of_ok _ (memRead_byte hr)
      rw [hx] at h; cases h
    · have hx : exec (.stb rst rsa rsb) s = _ := store_of_ok (memWrite_byte _ hr)
      rw [hx] at h; cases h
  · intro hr
    obtain ⟨hldb, hstb, -⟩ := dataAccessOutsideFaults s rst rsa rsb hr
    obtain rfl | rfl := hi
    · exact hldb
    · exact hstb

/-- An aligned LDW that is not an AccessFault fails exactly at an input register with no input left. -/
theorem ldw_inputExhausted_iff {s : State} {rst rsa rsb : Reg} (hc : s.cfg.WellFormed)
    (ha : (s.reg rsb).toNat % s.cfg.xlen.wordBytes = 0)
    (hd : ¬ (s.cfg.memSize ≤ (s.reg rsb).toNat ∧ s.reg rsb ≠ s.cfg.inChar ∧ s.reg rsb ≠ s.cfg.inInt)) :
    exec (.ldw rst rsa rsb) s = .fault .inputExhausted ↔ s.cfg.memSize ≤ (s.reg rsb).toNat ∧ s.input = [] := by
  by_cases hr : (s.reg rsb).toNat < s.cfg.memSize
  · have hx : exec (.ldw rst rsa rsb) s = _ := load_of_ok id (memRead_word hc ha hr)
    rw [hx]
    simp only [reduceCtorEq, false_iff]
    omega
  have hr : s.cfg.memSize ≤ (s.reg rsb).toNat := by omega
  simp only [hr, true_and]
  have hdev : (s.input = [] → exec (.ldw rst rsa rsb) s = .fault .inputExhausted) ∧
      ∀ n rest, s.input = n :: rest → ∃ t, exec (.ldw rst rsa rsb) s = .next t := by
    by_cases h1 : s.reg rsb = s.cfg.inChar
    · obtain ⟨hnil, hcons⟩ := characterInput s rst rsa rsb hc h1
      exact ⟨hnil, fun n rest hi => (hcons n rest hi).imp fun _ h => h.1⟩
    · have h2 : s.reg rsb = s.cfg.inInt := by
        by_contra h2
        exact hd ⟨hr, h1, h2⟩
      obtain ⟨hnil, hcons⟩ := integerInput s rst rsa rsb hc h2
      exact ⟨hnil, fun n rest hi => (hcons n rest hi).imp fun _ h => h.1⟩
  refine ⟨fun h => ?_, hdev.1⟩
  cases hi : s.input with
  | nil => rfl
  | cons n rest =>
    obtain ⟨t, hx⟩ := hdev.2 n rest hi
    rw [hx] at h; cases h

/-- An aligned STW faults exactly at an address that is neither RAM nor an output register. -/
theorem stw_accessFault_iff {s : State} {rst rsa rsb : Reg} (hc : s.cfg.WellFormed)
    (ha : (s.reg rsb).toNat % s.cfg.xlen.wordBytes = 0) :
    exec (.stw rst rsa rsb) s = .fault (.accessFault (s.reg rsb)) ↔
      s.cfg.memSize ≤ (s.reg rsb).toNat ∧ s.reg rsb ≠ s.cfg.outChar ∧ s.reg rsb ≠ s.cfg.outInt := by
  constructor
  · intro h
    refine ⟨?_, fun h1 => ?_, fun h2 => ?_⟩
    · by_contra hr
      have hx : exec (.stw rst rsa rsb) s = _ := store_of_ok (memWrite_word hc ha (by omega) _)
      rw [hx] at h; cases h
    · obtain ⟨t, hx, -⟩ := characterOutput s rst rsa rsb hc h1
      rw [hx] at h; cases h
    · obtain ⟨t, -, hx, -⟩ := integerOutput s rst rsa rsb hc h2
      rw [hx] at h; cases h
  · rintro ⟨hr, h1, h2⟩
    exact ((dataAccessOutsideFaults s rst rsa rsb hr).2.2 ha).2 h1 h2

/-- An instruction that is none of the four memory instructions completes. -/
theorem exec_completes {i : Instr} {s : State}
    (hi : ∀ rst rsa rsb : Reg, i ≠ .ldb rst rsa rsb ∧ i ≠ .stb rst rsa rsb ∧ i ≠ .ldw rst rsa rsb ∧
      i ≠ .stw rst rsa rsb) : ∃ t, exec i s = .next t := by
  cases hx : exec i s with
  | next t => exact ⟨t, rfl⟩
  | refused r => exact absurd hx (exec_not_refused i s r)
  | fault f =>
    obtain ⟨⟨rst, rsa, rsb, hmem⟩, -⟩ := exec_fault hx
    obtain ⟨h1, h2, h3, h4⟩ := hi rst rsa rsb
    obtain h | h | h | h := hmem <;> contradiction

/-- Settles O37: the causes are excluded one after the other in the order in which `fetch`, the decoder and the access
look at them. -/
theorem faultPriority : Obligations.FaultPriority := by
  intro s hc he
  split_ifs with hodd hout
  · exact step_of_fetch_error he (fetch_odd hodd)
  · exact step_of_fetch_error he (fetch_outside (by omega) hout)
  refine ⟨_, fetch_ok.2 ⟨by omega, by omega, rfl⟩, ?_⟩
  have hf : fetch s = .ok (readCode s.mem s.pc.toNat) := fetch_ok.2 ⟨by omega, by omega, rfl⟩
  split
  · next hd => exact step_of_illegal he hf fun i h => by rw [hd] at h; cases h
  next i hd =>
  simp only [step_fault_iff_exec_fault he hf hd]
  refine ⟨fun rst rsa rsb hi => byteAccess_fault_iff s hi, ?_, ?_, fun hi => ?_⟩
  · rintro rst rsa rsb rfl
    split_ifs with ha hd
    · exact (misalignedWordAccessFaults s rst rsa rsb ha).1
    · obtain ⟨hr, h1, h2⟩ := hd
      exact ((dataAccessOutsideFaults s rst rsa rsb hr).2.2 (by omega)).1 h1 h2
    · exact ldw_inputExhausted_iff hc (by omega) hd
  · rintro rst rsa rsb rfl
    split_ifs with ha
    · exact (misalignedWordAccessFaults s rst rsa rsb ha).2
    · exact stw_accessFault_iff hc (by omega)
  · obtain ⟨t, hx⟩ := exec_completes (s := s) hi
    exact step_completes_of_exec he hf hd hx

end Sys2Proof.Machine
end

section
/-! PROOFS. The comparison signals (41_computation.md section 1), the shifts (42_shift.md), the constant-loading
sequences (41_computation.md section 10) and the branches (44_branch.md). -/

namespace Sys2Proof.Machine

/-! ### The comparison signals (R117) -/

/-- The sign bit of an XLEN-bit value says that its signed value is negative. -/
theorem signBit_eq {x : XLen} {v : Word} (h : v.toNat < 2 ^ x.bits) :
    signBit x v = decide (signedValue x v < 0) := by
  rw [signBit, BitVec.getLsbD, Nat.testBit_eq_decide_div_mod_eq, decide_eq_decide]
  cases x <;> simp only [XLen.bits] at h ⊢
  · rw [signedValue_x16]; split <;> omega
  · rw [signedValue_x32]; split <;> omega

theorem signedValue_range {x : XLen} {v : Word} (h : v.toNat < 2 ^ x.bits) :
    -2 ^ (x.bits - 1) ≤ signedValue x v ∧ signedValue x v < 2 ^ (x.bits - 1) := by
  cases x <;> simp only [XLen.bits] at h ⊢
  · rw [signedValue_x16]; split <;> omega
  · rw [signedValue_x32]; split <;> omega

/-- The signed value of a difference is the difference of the signed values, or wraps once past either end. -/
theorem signedValue_sub {x : XLen} {a b : Word} (ha : a.toNat < 2 ^ x.bits) (hb : b.toNat < 2 ^ x.bits) :
    signedValue x (trim x (a - b)) = signedValue x a - signedValue x b ∨
    signedValue x (trim x (a - b)) = signedValue x a - signedValue x b + 2 * 2 ^ (x.bits - 1) ∨
    signedValue x (trim x (a - b)) = signedValue x a - signedValue x b - 2 * 2 ^ (x.bits - 1) := by
  have hd := toNat_trim_sub x a b
  generalize trim x (a - b) = d at hd
  cases x <;> simp only [XLen.bits] at ha hb hd ⊢
  · simp only [signedValue_x16]; split_ifs <;> omega
  · simp only [signedValue_x32]; split_ifs <;> omega

/-- Settles O25: with operands of XLEN bits the signed difference is off by 2^XLEN exactly when the operands differ in
sign and the result's sign is not the first one's. -/
theorem comparisonsAgreeWithAluSignals : Obligations.ComparisonsAgreeWithAluSignals := by
  intro x a b ha hb
  have hra := signedValue_range ha
  have hrb := signedValue_range hb
  have hrd := signedValue_range (toNat_trim_lt x (a - b))
  have hsub := signedValue_sub ha hb
  have hN : aluN x a b = decide (signedValue x (trim x (a - b)) < 0) := signBit_eq (toNat_trim_lt _ _)
  have hV : aluV x a b =
      decide (signedValue x (trim x (a - b)) ≠ signedValue x a - signedValue x b) := by
    rw [aluV, aluDifference, signBit_eq ha, signBit_eq hb, signBit_eq (toNat_trim_lt _ _), Bool.eq_iff_iff]
    simp only [Bool.and_eq_true, bne_iff_ne, ne_eq, decide_eq_decide, decide_eq_true_eq]
    omega
  have hNV : (aluN x a b ^^ aluV x a b) = decide (signedValue x a < signedValue x b) := by
    rw [hN, hV, Bool.eq_iff_iff]
    simp only [← Bool.bne_eq_xor, bne_iff_ne, ne_eq, decide_eq_decide, decide_eq_true_eq]
    omega
  have hC : aluC x a b = decide (a.toNat < b.toNat) := by
    rw [aluC, trim_of_lt ha, trim_of_lt hb, decide_eq_decide]
    omega
  refine ⟨hN, hV, hNV, ?_, hC, ?_⟩
  · rw [hNV, lessSigned, signed_eq_signedValue x a ha, signed_eq_signedValue x b hb]
  · rw [hC, lessUnsigned, trim_of_lt ha, trim_of_lt hb]

/-! ### Shifts -/

theorem toNat_shiftRightLogical {x : XLen} {v : Word} (h : v.toNat < 2 ^ x.bits) :
    (shiftRightLogical x v).toNat = v.toNat / 2 := by
  have hv := v.isLt
  simp only [shiftRightLogical, BitVec.toNat_setWidth, BitVec.toNat_ushiftRight, Nat.mod_eq_of_lt h,
    Nat.shiftRight_eq_div_pow]
  omega

theorem trim_shiftRightLogical {x : XLen} {v : Word} (h : v.toNat < 2 ^ x.bits) :
    trim x (shiftRightLogical x v) = shiftRightLogical x v := by
  apply trim_of_lt
  rw [toNat_shiftRightLogical h]
  omega

theorem getLsbD_shiftRightLogical {x : XLen} {v : Word} (h : v.toNat < 2 ^ x.bits) (k : Nat) :
    (shiftRightLogical x v).getLsbD k = v.getLsbD (k + 1) := by
  rw [BitVec.getLsbD, BitVec.getLsbD, toNat_shiftRightLogical h, Nat.testBit_succ]

/-- The arithmetic shift halves the signed value, rounding down. -/
theorem signed_shiftRightArithmetic (x : XLen) (v : Word) :
    signed x (shiftRightArithmetic x v) = signed x v / 2 := by
  rw [signed, shiftRightArithmetic, BitVec.setWidth_setWidth_of_le _ (bits_le x), BitVec.setWidth_eq,
    BitVec.toInt_sshiftRight, Int.shiftRight_eq_div_pow]
  rfl

/-- The arithmetic shift moves every bit down by one and keeps the sign bit. -/
theorem getLsbD_shiftRightArithmetic {x : XLen} (v : Word) {k : Nat} (hk : k < x.bits) :
    (shiftRightArithmetic x v).getLsbD k = v.getLsbD (min (k + 1) (x.bits - 1)) := by
  have hx := bits_le x
  have hmsb : (v.setWidth x.bits).msb = v.getLsbD (x.bits - 1) := by
    rw [BitVec.msb_eq_getLsbD_last, BitVec.getLsbD_setWidth]
    simp only [show x.bits - 1 < x.bits by omega, decide_true, Bool.true_and]
  rw [shiftRightArithmetic, BitVec.getLsbD_setWidth, BitVec.getLsbD_sshiftRight, hmsb, BitVec.getLsbD_setWidth]
  simp only [show k < 32 by omega, show ¬ x.bits ≤ k by omega, decide_true, decide_false, Bool.not_false,
    Bool.true_and]
  split
  · next h => rw [show min (k + 1) (x.bits - 1) = 1 + k by omega]; simp [h]
  · next h => rw [show min (k + 1) (x.bits - 1) = x.bits - 1 by omega]

/-- Settles O27: the source has XLEN bits, so the shifts are those of its value and of its signed value. -/
theorem shiftsByOne : Obligations.ShiftsByOne := by
  intro rst rsa rsb s
  refine ⟨hasWord_rFormat 0#4 1#2 rfl rfl (by decide) rfl, hasWord_rFormat 1#4 1#2 rfl rfl (by decide) rfl,
    fun hne i => ⟨decode_encode_ne_ok (by simpa [Instr.fixedFieldsZero] using hne) i,
      decode_encode_ne_ok (by simpa [Instr.fixedFieldsZero] using hne) i⟩, rfl, rfl, ?_, ?_⟩
  · obtain ⟨t, hx, hf, hv⟩ := compute_completes (i := .lsr rst rsa rsb) (s := s) rfl
    rw [trim_shiftRightLogical (s.reg_lt rsa)] at hv
    exact ⟨t, hx, hf, by rw [hv, toNat_shiftRightLogical (s.reg_lt rsa)],
      fun k => by rw [hv, getLsbD_shiftRightLogical (s.reg_lt rsa)]⟩
  · obtain ⟨t, hx, hf, hv⟩ := compute_completes (i := .asr rst rsa rsb) (s := s) rfl
    have hbit : ∀ k, k < s.cfg.xlen.bits →
        (t.reg rst).getLsbD k = (s.reg rsa).getLsbD (min (k + 1) (s.cfg.xlen.bits - 1)) := fun k hk => by
      rw [hv, getLsbD_trim, getLsbD_shiftRightArithmetic _ hk, decide_eq_true hk, Bool.true_and]
    refine ⟨t, hx, hf, ?_, ?_, fun k hk => ?_⟩
    · rw [hv, ← signed_eq_signedValue _ _ (toNat_trim_lt _ _), signed_trim, signed_shiftRightArithmetic, signed_reg]
    · rw [hbit _ (by cases s.cfg.xlen <;> decide), min_eq_right (by omega)]
    · rw [hbit k (by omega), min_eq_left (by omega)]

/-! ### Constant-loading sequences (R120) -/

/-- A sequence goes on from the state its first instruction leaves. -/
theorem execAll_cons {i : Instr} {s t : State} (h : exec i s = .next t) (is : List Instr) :
    execAll (i :: is) s = execAll is t := by
  rw [execAll, h]

theorem ldc_completes (s : State) (r : Reg) (v : Imm8) : ∃ t : State, exec (.ldc r v) s = .next t ∧
    t.cfg = s.cfg ∧ (t.reg r).toNat = (s.reg r).toNat * 256 % 2 ^ s.cfg.xlen.bits + v.toNat := by
  obtain ⟨-, -, -, -, t, hx, ⟨-, -, -, ⟨hcfg, -⟩, -⟩, hv⟩ := constantLoads r v s
  exact ⟨t, hx, hcfg, hv⟩

/-- LDR then LDC load a 16-bit constant with a signed high byte. -/
theorem ldr_ldc_completes (s : State) (r : Reg) (b1 b0 : Imm8) :
    ∃ t : State, execAll [.ldr r b1, .ldc r b0] s = .next t ∧
      signedValue s.cfg.xlen (t.reg r) = b1.toInt * 256 + b0.toNat := by
  obtain ⟨t, hx, ⟨-, -, -, ⟨hcfg, -⟩, -⟩, hv⟩ := compute_completes (i := .ldr r b1) (s := s) rfl
  obtain ⟨u, hx', -, hv'⟩ := ldc_completes t r b0
  refine ⟨u, by rw [execAll_cons hx, execAll_cons hx']; rfl, ?_⟩
  have hhigh : ((t.reg r).toNat : Int) = b1.toInt % 2 ^ s.cfg.xlen.bits := by
    rw [hv, State.trim_signImm]
    exact toNat_sext8 _ _
  have hb1 := imm8_range b1
  have hb0 := b0.isLt
  refine signedValue_of_mod _ _ _ ?_ (by omega)
  rw [hv', hcfg]
  cases hx : s.cfg.xlen <;> simp only [hx, XLen.bits] at hhigh ⊢ <;> omega

/-- Settles O26: every LDC shifts the register by a byte, so the old value is shifted out. -/
theorem constantSequences : Obligations.ConstantSequences := by
  refine fun s r b3 b2 b1 b0 => ⟨fun hx => ?_, fun hx => ?_, ldr_ldc_completes s r b1 b0, ?_, ?_⟩
  · obtain ⟨t1, hx1, hc1, hv1⟩ := ldc_completes s r b1
    obtain ⟨t0, hx0, -, hv0⟩ := ldc_completes t1 r b0
    refine ⟨t0, by rw [execAll_cons hx1, execAll_cons hx0]; rfl, ?_⟩
    simp only [hc1, hx, XLen.bits] at hv1 hv0
    omega
  · obtain ⟨t3, hx3, hc3, hv3⟩ := ldc_completes s r b3
    obtain ⟨t2, hx2, hc2, hv2⟩ := ldc_completes t3 r b2
    obtain ⟨t1, hx1, hc1, hv1⟩ := ldc_completes t2 r b1
    obtain ⟨t0, hx0, -, hv0⟩ := ldc_completes t1 r b0
    refine ⟨t0, by rw [execAll_cons hx3, execAll_cons hx2, execAll_cons hx1, execAll_cons hx0]; rfl, ?_⟩
    simp only [hc1, hc2, hc3, hx, XLen.bits] at hv3 hv2 hv1 hv0
    omega
  · obtain ⟨t, hx, hv⟩ := ldr_ldc_completes s r (-122#8) 159#8
    exact ⟨t, hx, hv.trans (by decide)⟩
  · obtain ⟨-, -, -, ⟨t, hx, -, hv⟩, -⟩ := constantLoads r (-1#8) s
    exact ⟨t, hx, hv.trans (by decide)⟩

/-! ### Branches -/

/-- A register branch completes, changes pc only, and goes to the base register if taken. -/
theorem registerBranch_completes (taken : Bool) (rsb : Reg) (s : State) :
    ∃ t : State, branch taken (s.reg rsb) s = .next t ∧ BranchFrame s t ∧
      t.pc.toNat = if taken then (s.reg rsb).toNat else (s.pc.toNat + 2) % 2 ^ s.cfg.xlen.bits := by
  obtain ⟨t, hx, hf, hpc⟩ := branch_frame taken (s.reg rsb) s
  refine ⟨t, hx, hf, ?_⟩
  rw [hpc, State.trim_reg]
  cases taken
  · exact pcAdvanced_advance s
  · rfl

/-- A relative branch completes, changes pc only, and goes to pc + 2 and the immediate if taken. -/
theorem relativeBranch_completes (taken : Bool) (v : Imm8) (s : State) :
    ∃ t : State, branch taken (relativeTarget s v) s = .next t ∧ BranchFrame s t ∧
      (t.pc.toNat : Int) =
        (if taken then s.pc.toNat + 2 + v.toInt else s.pc.toNat + 2 : Int) % 2 ^ s.cfg.xlen.bits := by
  obtain ⟨t, hx, hf, hpc⟩ := branch_frame taken (relativeTarget s v) s
  refine ⟨t, hx, hf, ?_⟩
  rw [hpc]
  cases taken
  · have hadv : s.advance.pc.toNat = (s.pc.toNat + 2) % 2 ^ s.cfg.xlen.bits := pcAdvanced_advance s
    simp only [Bool.false_eq_true, if_false, hadv]
    push_cast
    rfl
  · exact toNat_trim_relativeTarget s v

theorem isZero_iff_toNat (v : Word) : isZero v = true ↔ v.toNat = 0 := by rw [isZero_eq, decide_eq_true_eq]

theorem not_isZero_iff_toNat (v : Word) : (!isZero v) = true ↔ v.toNat ≠ 0 := by simp [isZero_eq]

/-- Settles O32: both constructors of a branch are one call of `branch`. -/
theorem registerBranches : Obligations.RegisterBranches := by
  intro rst rsa rsb s
  obtain ⟨hbez, hbezAsm, hbnz, hbnzAsm⟩ := hasWord_registerBranches rsa rsb
  refine ⟨hbez, hbezAsm, hbnz, hbnzAsm, rfl, rfl, fun hne j => ?_, ?_, ?_⟩
  · have hfix : (rst == Reg.r0) = false := by simpa using hne
    exact ⟨decode_encode_ne_ok (i := .bezR rst rsa rsb) hfix j,
      decode_encode_ne_ok (i := .bezRAsm rst rsa rsb) hfix j,
      decode_encode_ne_ok (i := .bnzR rst rsa rsb) hfix j,
      decode_encode_ne_ok (i := .bnzRAsm rst rsa rsb) hfix j⟩
  · have h := registerBranch_completes (isZero (s.reg rsa)) rsb s
    simp only [isZero_iff_toNat] at h
    rintro i (rfl | rfl) <;> exact h
  · have h := registerBranch_completes (!isZero (s.reg rsa)) rsb s
    simp only [not_isZero_iff_toNat] at h
    rintro i (rfl | rfl) <;> exact h

/-- Settles O33: the target is pc + 2 and the signed immediate, mod 2^XLEN. -/
theorem relativeBranches : Obligations.RelativeBranches := by
  intro rst imm8 s
  refine ⟨hasWord_iFormat 10#4 rfl rfl rfl, hasWord_iFormat 11#4 rfl rfl rfl, ?_, ?_⟩
  · have h := relativeBranch_completes (isZero (s.reg rst)) imm8 s
    simp only [isZero_iff_toNat] at h
    exact h
  · have h := relativeBranch_completes (!isZero (s.reg rst)) imm8 s
    simp only [not_isZero_iff_toNat] at h
    exact h

end Sys2Proof.Machine
end

section
/-! PROOFS. The pseudo-operations as sequences (46_pseudo_ops.md; 47_assembler_abi.md section 3). Each sequence is run
instruction by instruction with the statements about the single instructions; what a sequence leaves unchanged is the
composition of their frames. -/

namespace Sys2Proof.Machine

/-! ### Sequences and frames -/

/-- A sequence after another one goes on from the state the first one leaves. -/
theorem execAll_append {is : List Instr} {s t : State} (h : execAll is s = .next t) (js : List Instr) :
    execAll (is ++ js) s = execAll js t := by
  induction is generalizing s with
  | nil => cases h; rfl
  | cons i is ih =>
    rw [execAll] at h
    split at h
    · next u hx => rw [List.cons_append, execAll_cons hx, ih h]
    · cases h
    · cases h

theorem execAll_singleton {i : Instr} {s t : State} (h : exec i s = .next t) : execAll [i] s = .next t := by
  rw [execAll_cons h, execAll]

theorem execAll_pair {i j : Instr} {s t u : State} (hi : exec i s = .next t) (hj : exec j t = .next u) :
    execAll [i, j] s = .next u := by
  rw [execAll_cons hi, execAll_singleton hj]

/-- `n` bytes of straight-line code that touch no memory, no I/O and no environment. -/
def StraightLine (n : Nat) (s t : State) : Prop :=
  SameMemory s t ∧ SameIO s t ∧ t.cfg = s.cfg ∧ t.pc.toNat = (s.pc.toNat + n) % 2 ^ s.cfg.xlen.bits

section frames
variable {s t u : State} {d r : Reg}

theorem SameMemory.trans (h : SameMemory s t) (h' : SameMemory t u) : SameMemory s u :=
  fun a => (h' a).trans (h a)

theorem SameIO.trans (h : SameIO s t) (h' : SameIO t u) : SameIO s u :=
  ⟨h'.1.trans h.1, h'.2.trans h.2⟩

theorem OnlyRegister.trans (h : OnlyRegister d s t) (h' : OnlyRegister d t u) : OnlyRegister d s u :=
  fun i hi => (h' i hi).trans (h i hi)

theorem StraightLine.trans {m n : Nat} (h : StraightLine m s t) (h' : StraightLine n t u) :
    StraightLine (m + n) s u := by
  obtain ⟨hmem, hio, hcfg, hpc⟩ := h
  obtain ⟨hmem', hio', hcfg', hpc'⟩ := h'
  refine ⟨hmem.trans hmem', hio.trans hio', hcfg'.trans hcfg, ?_⟩
  rw [hpc', hcfg, hpc, Nat.mod_add_mod, Nat.add_assoc]

theorem StraightLine.cfg_eq {n : Nat} (h : StraightLine n s t) : t.cfg = s.cfg := by
  obtain ⟨-, -, hcfg, -⟩ := h
  exact hcfg

theorem OnlyRegister.trans_same (h : OnlyRegister d s t) (h' : SameRegisters t u) : OnlyRegister d s u :=
  fun i hi => (h' i).trans (h i hi)

theorem OnlyRegister.reg_eq (h : OnlyRegister d s t) (hcfg : t.cfg = s.cfg) (hr : r ≠ d) : t.reg r = s.reg r := by
  rw [State.reg, State.reg, hcfg, h r hr]

theorem SameRegisters.reg_eq (h : SameRegisters s t) (hcfg : t.cfg = s.cfg) (r : Reg) : t.reg r = s.reg r := by
  rw [State.reg, State.reg, hcfg, h r]

theorem ComputeFrame.only (h : ComputeFrame d s t) : OnlyRegister d s t := h.1

theorem ComputeFrame.straightLine (h : ComputeFrame d s t) : StraightLine 2 s t := by
  obtain ⟨-, hmem, hio, ⟨hcfg, -⟩, hpc⟩ := h
  exact ⟨hmem, hio, hcfg, hpc⟩

theorem ComputeFrame.cfg_eq (h : ComputeFrame d s t) : t.cfg = s.cfg := h.straightLine.cfg_eq

theorem ComputeFrame.reg_eq (h : ComputeFrame d s t) (hr : r ≠ d) : t.reg r = s.reg r :=
  h.only.reg_eq h.cfg_eq hr

theorem BranchFrame.reg_eq (h : BranchFrame s t) (r : Reg) : t.reg r = s.reg r := by
  obtain ⟨hregs, -, -, ⟨hcfg, -⟩⟩ := h
  exact hregs.reg_eq hcfg r

end frames

/-! ### Complements (R191 to R193) -/

/-- The sign-extended immediate 0xFF is a word of ones. -/
theorem setWidth_sext8_ones (x : XLen) : (sext8 x 0xFF#8).setWidth x.bits = BitVec.allOnes x.bits := by
  cases x <;> rfl

theorem toNat_trim_xor_ones {x : XLen} {v : Word} (h : v.toNat < 2 ^ x.bits) :
    (trim x (v ^^^ sext8 x 0xFF#8)).toNat = 2 ^ x.bits - 1 - v.toNat := by
  rw [trim, BitVec.setWidth_xor, setWidth_sext8_ones, BitVec.xor_allOnes, BitVec.toNat_setWidth, BitVec.toNat_not,
    BitVec.toNat_setWidth, Nat.mod_eq_of_lt h]
  have hx : 2 ^ x.bits ≤ 2 ^ 32 := Nat.pow_le_pow_right (by decide) (bits_le x)
  exact Nat.mod_eq_of_lt (by omega)

/-- `xor a,-1` complements the register. -/
theorem complement_completes (s : State) (a : Reg) : ∃ t : State, exec (.xorI a 0xFF#8) s = .next t ∧
    ComputeFrame a s t ∧ (t.reg a).toNat = 2 ^ s.cfg.xlen.bits - 1 - (s.reg a).toNat := by
  obtain ⟨t, hx, hf, hv⟩ := compute_completes (i := .xorI a 0xFF#8) (s := s) rfl
  exact ⟨t, hx, hf, by rw [hv]; exact toNat_trim_xor_ones (s.reg_lt a)⟩

/-- `xor r,r,r` clears the register. -/
theorem clear_completes (s : State) (r : Reg) : ∃ t : State, exec (.xorR r r r) s = .next t ∧
    ComputeFrame r s t ∧ t.reg r = 0#32 := by
  obtain ⟨t, hx, hf, hv⟩ := compute_completes (i := .xorR r r r) (s := s) rfl
  exact ⟨t, hx, hf, by rw [hv, BitVec.xor_self, trim_zero]⟩

theorem subR_completes (s : State) (rst rsa rsb : Reg) : ∃ t : State, exec (.subR rst rsa rsb) s = .next t ∧
    ComputeFrame rst s t ∧
    ((t.reg rst).toNat : Int) = ((s.reg rsa).toNat - (s.reg rsb).toNat : Int) % 2 ^ s.cfg.xlen.bits := by
  obtain ⟨-, -, -, h⟩ := arithmeticRegisterForms rst rsa rsb s
  exact h

/-- Settles O54: the complement plus 1 is the negation mod 2^XLEN. -/
theorem complementSequences : Obligations.ComplementSequences := by
  refine fun s a => ⟨?_, ?_, ?_, fun ha => ?_⟩
  · obtain ⟨t, hx, hf, hv⟩ := compute_completes (i := .andR .r0 .r0 .r0) (s := s) rfl
    rw [BitVec.and_self, State.trim_reg] at hv
    obtain ⟨hmem, hio, -, hpc⟩ := hf.straightLine
    refine ⟨t, execAll_singleton hx, fun r => ?_, hmem, hio, hpc⟩
    by_cases hr : r = .r0
    · rw [hr, hv]
    · exact hf.reg_eq hr
  · obtain ⟨t, hx, hf, hv⟩ := complement_completes s a
    exact ⟨t, execAll_singleton hx, hf.only, hv⟩
  · obtain ⟨t, hx, hf, hv⟩ := complement_completes s a
    obtain ⟨-, -, ⟨u, hx', hf', hv'⟩, -⟩ := arithmeticImmediateForms a 1#8 t
    refine ⟨u, execAll_pair hx hx', hf.only.trans hf'.only, ?_⟩
    have hlt := s.reg_lt a
    rw [hv', hf.cfg_eq, hv, show (1#8 : Imm8).toInt = 1 from rfl]
    cases h : s.cfg.xlen <;> simp only [h, XLen.bits] at hlt ⊢ <;> omega
  · obtain ⟨t, hx, hf, hv⟩ := clear_completes s .r0
    obtain ⟨u, hx', hf', hv'⟩ := subR_completes t a .r0 a
    refine ⟨u, execAll_pair hx hx', (hf'.reg_eq ha.symm).trans hv, ?_⟩
    rw [hv', hf.cfg_eq, hv, hf.reg_eq ha, BitVec.toNat_zero]
    simp

/-! ### Set sequences (R213 to R216, R223 to R226) -/

/-- `sltu a,0,c` after the difference of two XLEN-bit values: it is zero exactly where they are equal. -/
theorem sub_emod_eq_zero_iff {x : XLen} {b c : Word} (hb : b.toNat < 2 ^ x.bits) (hc : c.toNat < 2 ^ x.bits) :
    (b.toNat - c.toNat : Int) % 2 ^ x.bits = 0 ↔ b = c := by
  rw [← BitVec.toNat_inj]
  cases x <;> simp only [XLen.bits] at hb hc ⊢ <;> omega

theorem sltR_completes (s : State) (rst rsa rsb : Reg) : ∃ t : State, exec (.sltR rst rsa rsb) s = .next t ∧
    ComputeFrame rst s t ∧ (t.reg rst).toNat =
      boolValue (decide (signedValue s.cfg.xlen (s.reg rsa) < signedValue s.cfg.xlen (s.reg rsb))) := by
  obtain ⟨-, -, h, -⟩ := compareRegisterForms rst rsa rsb s
  exact h

theorem sltuR_completes (s : State) (rst rsa rsb : Reg) : ∃ t : State, exec (.sltuR rst rsa rsb) s = .next t ∧
    ComputeFrame rst s t ∧ (t.reg rst).toNat = boolValue (decide ((s.reg rsa).toNat < (s.reg rsb).toNat)) := by
  obtain ⟨-, -, -, h⟩ := compareRegisterForms rst rsa rsb s
  exact h

/-- `ldr r,1` loads 1. -/
theorem loadOne_completes (s : State) (r : Reg) : ∃ t : State, exec (.ldr r 1#8) s = .next t ∧
    ComputeFrame r s t ∧ t.reg r = 1#32 := by
  obtain ⟨t, hx, hf, hv⟩ := compute_completes (i := .ldr r 1#8) (s := s) rfl
  exact ⟨t, hx, hf, by rw [hv, State.trim_signImm, State.signImm]; cases s.cfg.xlen <;> rfl⟩

/-- SEQ leaves 1 exactly where the two registers are equal. -/
theorem seq_completes (s : State) (a b c : Reg) : ∃ t : State, execAll (expand (.seq a b c)) s = .next t ∧
    OnlyRegister a s t ∧ (t.reg a).toNat = boolValue (decide (s.reg b = s.reg c)) := by
  obtain ⟨t, hx, hf, hv⟩ := subR_completes s a b c
  obtain ⟨-, -, -, u, hx', hf', hv'⟩ := compareImmediateForms a 1#8 t
  refine ⟨u, execAll_pair hx hx', hf.only.trans hf'.only, ?_⟩
  have hiff := sub_emod_eq_zero_iff (s.reg_lt b) (s.reg_lt c)
  have hone : (1#8 : Imm8).toInt % 2 ^ t.cfg.xlen.bits = 1 := by cases t.cfg.xlen <;> rfl
  rw [hv', hone, hv]
  congr 1
  rw [decide_eq_decide, ← hiff]
  have := Int.emod_nonneg ((s.reg b).toNat - (s.reg c).toNat : Int)
    (b := 2 ^ s.cfg.xlen.bits) (by cases s.cfg.xlen <;> decide)
  omega

/-- SNE leaves 1 exactly where the two registers differ, and 0 in at. -/
theorem sne_completes (s : State) {a : Reg} (b c : Reg) (ha : a ≠ .r0) :
    ∃ t : State, execAll (expand (.sne a b c)) s = .next t ∧ t.reg .r0 = 0#32 ∧
      (t.reg a).toNat = boolValue (decide (s.reg b ≠ s.reg c)) := by
  obtain ⟨t, hx, hf, hv⟩ := subR_completes s a b c
  obtain ⟨u, hx', hf', hv'⟩ := clear_completes t .r0
  obtain ⟨w, hx'', hf'', hv''⟩ := sltuR_completes u a .r0 a
  refine ⟨w, by rw [expand, execAll_cons hx, execAll_pair hx' hx''], (hf''.reg_eq ha.symm).trans hv', ?_⟩
  have hiff := sub_emod_eq_zero_iff (s.reg_lt b) (s.reg_lt c)
  rw [hv'', hv', hf'.reg_eq ha]
  congr 1
  rw [decide_eq_decide, ne_eq, ← hiff, ← hv]
  simp only [BitVec.toNat_zero]
  omega

/-- The negation of a 0-or-1 result is 1 minus the result. -/
theorem boolValue_of_not {p q : Prop} [Decidable p] [Decidable q] (h : ¬ p ↔ q) :
    (boolValue (decide q) : Int) = 1 - boolValue (decide p) ∧ boolValue (decide p) ≤ 1 := by
  by_cases hp : p <;> simp [boolValue, ← h, hp]

/-- After a comparison, `ldr at,1` and `sub a,at,a` leave the comparison's negation, and 1 in at. -/
theorem notLess_completes {s t : State} {cmp : Reg → Reg → Reg → Instr} {a b c : Reg} {p q : Prop} [Decidable p]
    [Decidable q] (ha : a ≠ .r0) (hx : exec (cmp a b c) s = .next t) (hv : (t.reg a).toNat = boolValue (decide p))
    (hq : ¬ p ↔ q) :
    ∃ u : State, execAll (notLess cmp a b c) s = .next u ∧ u.reg .r0 = 1#32 ∧
      (u.reg a).toNat = boolValue (decide q) := by
  obtain ⟨u, hx', hf', hv'⟩ := loadOne_completes t .r0
  obtain ⟨w, hx'', hf'', hv''⟩ := subR_completes u a .r0 a
  refine ⟨w, by rw [notLess, execAll_cons hx, execAll_pair hx' hx''], (hf''.reg_eq ha.symm).trans hv', ?_⟩
  obtain ⟨hnot, hle⟩ := boolValue_of_not hq
  rw [hv', hf'.reg_eq ha, hv, BitVec.toNat_ofNat] at hv''
  cases hx : u.cfg.xlen <;> simp only [hx, XLen.bits] at hv'' <;> omega

/-- Settles O55: the five sequences through at negate a comparison; the others are the comparison itself. -/
theorem setSequences : Obligations.SetSequences := by
  refine fun s a b c => ⟨seq_completes s a b c, sne_completes s b c, fun ha => ?_, fun ha => ?_, ?_, fun ha => ?_, ?_,
    fun ha => ?_⟩
  · obtain ⟨t, hx, -, hv⟩ := sltR_completes s a b c
    exact notLess_completes ha hx hv not_lt
  · obtain ⟨t, hx, -, hv⟩ := sltuR_completes s a b c
    exact notLess_completes ha hx hv not_lt
  · obtain ⟨t, hx, hf, hv⟩ := sltR_completes s a c b
    exact ⟨t, execAll_singleton hx, hf.only, hv⟩
  · obtain ⟨t, hx, -, hv⟩ := sltR_completes s a c b
    exact notLess_completes ha hx hv not_lt
  · obtain ⟨t, hx, hf, hv⟩ := sltuR_completes s a c b
    exact ⟨t, execAll_singleton hx, hf.only, hv⟩
  · obtain ⟨t, hx, -, hv⟩ := sltuR_completes s a c b
    exact notLess_completes ha hx hv not_lt

/-! ### Constants and jumps in the 16-bit variant (R196, R217 to R235) -/

/-- `ldi` loads a 16-bit constant, whatever the register held, and touches nothing else. -/
theorem ldi_completes {s : State} (hx : s.cfg.xlen = .x16) (r : Reg) (const : Code) :
    ∃ t : State, execAll (ldi r const) s = .next t ∧ (t.reg r).toNat = const.toNat ∧ OnlyRegister r s t ∧
      StraightLine 4 s t := by
  obtain ⟨-, -, -, -, t, hx1, hf1, hv1⟩ := constantLoads r (const.extractLsb' 8 8) s
  obtain ⟨-, -, -, -, u, hx0, hf0, hv0⟩ := constantLoads r (const.extractLsb' 0 8) t
  refine ⟨u, execAll_pair hx1 hx0, ?_, hf1.only.trans hf0.only, hf1.straightLine.trans hf0.straightLine⟩
  have hlt := const.isLt
  rw [hf1.cfg_eq] at hv0
  simp only [hx, XLen.bits, BitVec.extractLsb'_toNat, Nat.shiftRight_eq_div_pow] at hv0 hv1
  omega

/-- From every state that differs from `s` in pc and at alone, `test` computes into `d` a word that is zero exactly
where `q`. -/
def TestsInto (test : Instr) (d : Reg) (s : State) (q : Prop) : Prop :=
  ∀ u : State, u.cfg = s.cfg → (∀ r : Reg, r ≠ .r0 → u.reg r = s.reg r) →
    ∃ t : State, exec test u = .next t ∧ ComputeFrame d u t ∧ ((t.reg d).toNat = 0 ↔ q)

theorem subR_testsInto {s : State} {a b : Reg} (ha : a ≠ .r0) (hb : b ≠ .r0) :
    TestsInto (.subR a a b) a s (s.reg a = s.reg b) := by
  intro u hcfg hregs
  obtain ⟨t, hx, hf, hv⟩ := subR_completes u a a b
  refine ⟨t, hx, hf, ?_⟩
  rw [← sub_emod_eq_zero_iff (s.reg_lt a) (s.reg_lt b), ← hregs a ha, ← hregs b hb, ← hcfg, ← hv]
  omega

theorem boolValue_eq_zero_iff {p : Prop} [Decidable p] : boolValue (decide p) = 0 ↔ ¬ p := by
  by_cases hp : p <;> simp [boolValue, hp]

theorem sltR_testsInto {s : State} (d : Reg) {a b : Reg} (ha : a ≠ .r0) (hb : b ≠ .r0) :
    TestsInto (.sltR d a b) d s (¬ signedValue s.cfg.xlen (s.reg a) < signedValue s.cfg.xlen (s.reg b)) := by
  intro u hcfg hregs
  obtain ⟨t, hx, hf, hv⟩ := sltR_completes u d a b
  exact ⟨t, hx, hf, by rw [hv, boolValue_eq_zero_iff, hcfg, hregs a ha, hregs b hb]⟩

theorem sltuR_testsInto {s : State} (d : Reg) {a b : Reg} (ha : a ≠ .r0) (hb : b ≠ .r0) :
    TestsInto (.sltuR d a b) d s (¬ (s.reg a).toNat < (s.reg b).toNat) := by
  intro u hcfg hregs
  obtain ⟨t, hx, hf, hv⟩ := sltuR_completes u d a b
  exact ⟨t, hx, hf, by rw [hv, boolValue_eq_zero_iff, hregs a ha, hregs b hb]⟩

/-- `bez` and `bnz` on `d` are branches to at that are taken exactly where `holds`. -/
theorem jump_on_test {t : State} {d : Reg} {q : Prop} {jump : Instr} {holds : Bool} (ht : (t.reg d).toNat = 0 ↔ q)
    (hj : jump = bezTo d rAt ∧ (holds = true ↔ q) ∨ jump = bnzTo d rAt ∧ (holds = true ↔ ¬ q)) :
    exec jump t = branch holds (t.reg .r0) t := by
  obtain ⟨rfl, hq⟩ | ⟨rfl, hq⟩ := hj
  · have htaken : isZero (t.reg d) = holds := Bool.eq_iff_iff.2 (by rw [isZero_iff_toNat, ht, hq])
    rw [← htaken]; rfl
  · have htaken : (!isZero (t.reg d)) = holds := Bool.eq_iff_iff.2 (by rw [not_isZero_iff_toNat, ne_eq, ht, hq])
    rw [← htaken]; rfl

/-- A compare-and-branch: the label in at, the test in `d`, and the branch on it, taken exactly where `holds`. -/
theorem compareBranch_completes {s : State} (addr : Code) {test jump : Instr} {d : Reg} {q : Prop} {holds : Bool}
    (hx : s.cfg.xlen = .x16) (hd : d ≠ .r0) (htest : TestsInto test d s q)
    (hj : jump = bezTo d rAt ∧ (holds = true ↔ q) ∨ jump = bnzTo d rAt ∧ (holds = true ↔ ¬ q)) :
    ∃ t : State, execAll (compareBranch addr test jump) s = .next t ∧ (t.reg .r0).toNat = addr.toNat ∧
      SameMemory s t ∧ SameIO s t ∧ t.pc.toNat = if holds then addr.toNat else (s.pc.toNat + 8) % 65536 := by
  obtain ⟨u, hxu, hat, honly, hline⟩ := ldi_completes hx .r0 addr
  obtain ⟨v, hxv, hfv, hz⟩ := htest u hline.cfg_eq fun r hr => honly.reg_eq hline.cfg_eq hr
  obtain ⟨w, hxw, hfw, hpcw⟩ := registerBranch_completes holds .r0 v
  obtain ⟨hmem, hio, hcfg, hpc⟩ := hline.trans hfv.straightLine
  have hatv : (v.reg .r0).toNat = addr.toNat := by rw [hfv.reg_eq hd.symm, hat]
  have ⟨_, hmemw, hiow, _⟩ := hfw
  refine ⟨w, by rw [compareBranch, execAll_append hxu, execAll_pair hxv ((jump_on_test hz hj).trans hxw)], ?_,
    hmem.trans hmemw, hio.trans hiow, ?_⟩
  · rw [hfw.reg_eq, hatv]
  · rw [hpcw, hatv, hpc, hcfg, hx]
    split
    · rfl
    · simp only [XLen.bits]; omega

/-- Settles O56: each sequence branches on a difference or on a less-than bit, or on its being 0. -/
theorem compareAndBranchSequences : Obligations.CompareAndBranchSequences := by
  intro s a b addr hx ha hb p holds hp
  have hslt := sltR_testsInto (s := s) a ha hb
  have hslt' := sltR_testsInto (s := s) b hb ha
  have hsltu := sltuR_testsInto (s := s) a ha hb
  have hsltu' := sltuR_testsInto (s := s) b hb ha
  rw [hx] at hslt hslt'
  obtain ⟨rfl, rfl⟩ | ⟨rfl, rfl⟩ | ⟨rfl, rfl⟩ | ⟨rfl, rfl⟩ | ⟨rfl, rfl⟩ | ⟨rfl, rfl⟩ | ⟨rfl, rfl⟩ | ⟨rfl, rfl⟩ |
    ⟨rfl, rfl⟩ | ⟨rfl, rfl⟩ := hp
  · exact compareBranch_completes addr hx ha (subR_testsInto ha hb) (.inl ⟨rfl, decide_eq_true_iff⟩)
  · exact compareBranch_completes addr hx ha (subR_testsInto ha hb) (.inr ⟨rfl, decide_eq_true_iff⟩)
  · exact compareBranch_completes addr hx ha hslt (.inr ⟨rfl, by simp⟩)
  · exact compareBranch_completes addr hx ha hslt (.inl ⟨rfl, by simp⟩)
  · exact compareBranch_completes addr hx ha hsltu (.inr ⟨rfl, by simp⟩)
  · exact compareBranch_completes addr hx ha hsltu (.inl ⟨rfl, by simp⟩)
  · exact compareBranch_completes addr hx hb hslt' (.inr ⟨rfl, by simp⟩)
  · exact compareBranch_completes addr hx hb hslt' (.inl ⟨rfl, by simp⟩)
  · exact compareBranch_completes addr hx hb hsltu' (.inr ⟨rfl, by simp⟩)
  · exact compareBranch_completes addr hx hb hsltu' (.inl ⟨rfl, by simp⟩)

/-- `bnz sp,r` goes to the address in r, as long as sp is not 0. -/
theorem jump_completes {s : State} (hsp : s.reg .r7 ≠ 0#32) (r : Reg) :
    ∃ t : State, exec (bnzTo rSp r) s = .next t ∧ SameRegisters s t ∧ t.cfg = s.cfg ∧ t.pc = s.reg r := by
  obtain ⟨t, hx, ⟨hregs, -, -, hcfg, -⟩, hpc⟩ := registerBranch_completes (!isZero (s.reg .r7)) r s
  rw [if_pos ((not_isZero_iff _).2 hsp)] at hpc
  exact ⟨t, hx, hregs, hcfg, BitVec.eq_of_toNat_eq hpc⟩

/-- Settles O57: the jump is a `bnz` on sp, after the loads that its target and its return address need. -/
theorem jumpSequences : Obligations.JumpSequences := by
  intro s a addr raddr hx hsp
  have hjump := fun r => jump_completes hsp r
  obtain ⟨u, hxu, hvu, honlyu, hlineu⟩ := ldi_completes hx .r0 addr
  have hspu : u.reg .r7 ≠ 0#32 := by rwa [honlyu.reg_eq hlineu.cfg_eq (by decide)]
  refine ⟨?_, ?_, ?_, fun ha => ?_, ?_⟩
  · obtain ⟨t, hxt, hregs, -, hpc⟩ := jump_completes hspu .r0
    exact ⟨t, by rw [expand, execAll_append hxu, execAll_singleton hxt], by rw [hpc, hvu],
      honlyu.trans_same hregs⟩
  · obtain ⟨v, hxv, hvv, honlyv, hlinev⟩ := ldi_completes (by rwa [hlineu.cfg_eq]) .r6 raddr
    have hspv : v.reg .r7 ≠ 0#32 := by rwa [honlyv.reg_eq hlinev.cfg_eq (by decide)]
    obtain ⟨t, hxt, hregs, hcfg, hpc⟩ := jump_completes hspv .r0
    refine ⟨t, ?_, ?_, by rw [hregs.reg_eq hcfg, hvv]⟩
    · rw [expand, execAll_append ((execAll_append hxu _).trans hxv), execAll_singleton hxt]
    · rw [hpc, honlyv.reg_eq hlinev.cfg_eq (by decide), hvu]
  · obtain ⟨t, hxt, hregs, -, hpc⟩ := hjump a
    exact ⟨t, execAll_singleton hxt, hpc, hregs⟩
  · obtain ⟨v, hxv, hvv, honlyv, hlinev⟩ := ldi_completes hx .r6 raddr
    have hspv : v.reg .r7 ≠ 0#32 := by rwa [honlyv.reg_eq hlinev.cfg_eq (by decide)]
    obtain ⟨t, hxt, hregs, hcfg, hpc⟩ := jump_completes hspv a
    exact ⟨t, by rw [expand, execAll_append hxv, execAll_singleton hxt],
      by rw [hpc, honlyv.reg_eq hlinev.cfg_eq ha], by rw [hregs.reg_eq hcfg, hvv], honlyv.trans_same hregs⟩
  · obtain ⟨t, hxt, hregs, -, hpc⟩ := hjump .r6
    exact ⟨t, execAll_singleton hxt, hpc, hregs⟩

/-! ### The stack (R261) -/

theorem wordImm_toInt (x : XLen) : (wordImm x).toInt = x.wordBytes ∧ (-wordImm x).toInt = -x.wordBytes := by
  cases x <;> decide

/-- Both spellings of PUSH lower sp by the same instruction's effect. -/
theorem lower_sp_eq (s : State) (x : XLen) : exec (.addI .r7 (-wordImm x)) s = exec (.subI .r7 (wordImm x)) s := by
  obtain ⟨hpos, hneg⟩ := wordImm_toInt x
  have hv : trim s.cfg.xlen (s.reg .r7 + s.signImm (-wordImm x)) =
      trim s.cfg.xlen (s.reg .r7 - s.signImm (wordImm x)) := by
    apply BitVec.eq_of_toNat_eq
    have hadd := toNat_trim_add_signImm s (s.reg .r7) (-wordImm x)
    have hsub := toNat_trim_sub_signImm s (s.reg .r7) (wordImm x)
    rw [hneg, ← sub_eq_add_neg] at hadd
    rw [hpos] at hsub
    exact Int.ofNat_inj.1 (hadd.trans hsub.symm)
  simp only [exec, execAddI, execSubI, compute, State.setReg, hv]

/-- PUSH lowers sp by one word. -/
theorem lower_sp_completes {s : State} (h : s.cfg.xlen.wordBytes ≤ (s.reg .r7).toNat) :
    ∃ t : State, exec (.subI .r7 (wordImm s.cfg.xlen)) s = .next t ∧ ComputeFrame .r7 s t ∧
      (t.reg .r7).toNat = (s.reg .r7).toNat - s.cfg.xlen.wordBytes := by
  obtain ⟨-, -, -, t, hx, hf, hv⟩ := arithmeticImmediateForms .r7 (wordImm s.cfg.xlen) s
  have hlt : ((s.reg .r7).toNat : Int) < 2 ^ s.cfg.xlen.bits := by exact_mod_cast s.reg_lt .r7
  rw [(wordImm_toInt _).1, Int.emod_eq_of_lt (by omega) (by omega)] at hv
  exact ⟨t, hx, hf, by omega⟩

/-- POP raises sp by one word. -/
theorem raise_sp_completes {s : State} {x : XLen} (hx : s.cfg.xlen = x) :
    ∃ t : State, exec (.addI .r7 (wordImm x)) s = .next t ∧ ComputeFrame .r7 s t ∧
      (t.reg .r7).toNat = ((s.reg .r7).toNat + x.wordBytes) % 2 ^ x.bits := by
  subst hx
  obtain ⟨-, -, ⟨t, hx, hf, hv⟩, -⟩ := arithmeticImmediateForms .r7 (wordImm s.cfg.xlen) s
  rw [(wordImm_toInt _).1] at hv
  exact ⟨t, hx, hf, by exact_mod_cast hv⟩

/-- A register stored at the address in r7 reads back from there, and no register is touched. -/
theorem store_at_sp {s : State} (a : Reg) (hc : s.cfg.WellFormed) (hwf : s.mem.wf = true)
    (ha : (s.reg .r7).toNat % s.cfg.xlen.wordBytes = 0) (hr : (s.reg .r7).toNat < s.cfg.memSize) :
    ∃ t : State, exec (.stw .r0 a .r7) s = .next t ∧ t.cfg = s.cfg ∧ (∀ r, t.reg r = s.reg r) ∧
      memRead t .word (t.reg .r7) = .ok (s.reg a, t) := by
  refine ⟨_, store_of_ok (memWrite_word hc ha hr (s.reg a)), rfl, fun _ => rfl, ?_⟩
  refine Eq.trans (memRead_word hc ha hr) ?_
  simp only [State.advance_mem, State.advance_cfg, State.advance_reg, State.setMem_mem, State.setMem_cfg,
    State.setMem_reg, readBytes_writeBytes hwf, State.trim_reg]

/-- Settles O58: sp and the word below it are all that PUSH changes, and POP reads that word. -/
theorem pushThenPop : Obligations.PushThenPop := by
  intro s a b hc hwf ha hb halign hlow hhigh
  have hpos : 0 < s.cfg.xlen.wordBytes := sizeBytes_pos s.cfg.xlen .word
  obtain ⟨s₁, hx₁, hf₁, hsp₁⟩ := lower_sp_completes hlow
  obtain ⟨t, hxt, hct, hrt, hread⟩ := store_at_sp a (hf₁.cfg_eq ▸ hc) (by rw [exec_mem_eq hx₁ rfl]; exact hwf)
    (by rw [hf₁.cfg_eq, hsp₁, ← Nat.mod_eq_sub_mod hlow, halign]) (by rw [hf₁.cfg_eq, hsp₁]; omega)
  rw [hf₁.reg_eq ha] at hread
  obtain ⟨u₁, hxu₁, hfu₁, hvu₁⟩ : ∃ u₁, exec (.ldw b .r0 .r7) t = .next u₁ ∧ ComputeFrame b t u₁ ∧ u₁.reg b = s.reg a :=
    ⟨_, load_of_ok id hread, computeFrame_setReg b _ t, by
      rw [reg_computed_same, hct, hf₁.cfg_eq, id, State.trim_reg]⟩
  obtain ⟨u, hxu, hfu, hvu⟩ := raise_sp_completes (s := u₁) (x := s.cfg.xlen)
    (by rw [hfu₁.cfg_eq, hct, hf₁.cfg_eq])
  have hsp : u.reg .r7 = s.reg .r7 := by
    apply BitVec.eq_of_toNat_eq
    rw [hvu, hfu₁.reg_eq hb.symm, hrt, hsp₁, Nat.sub_add_cancel hlow, Nat.mod_eq_of_lt (s.reg_lt .r7)]
  refine ⟨t, u, execAll_pair hx₁ hxt, execAll_pair ((lower_sp_eq s _).trans hx₁) hxt, by rw [hrt, hsp₁], hread,
    execAll_pair hxu₁ hxu, by rw [hfu.reg_eq hb, hvu₁], hsp, fun r hr => ?_⟩
  by_cases h7 : r = .r7
  · rw [h7, hsp]
  · rw [hfu.reg_eq h7, hfu₁.reg_eq hr, hrt, hf₁.reg_eq h7]

end Sys2Proof.Machine
end

section
/-! PROOFS. The assembler's words (30_encoding.md R88; 47_assembler_abi.md R244) and the object-code text (R253). The
assembler puts a word together by shifts and ors of disjoint fields, the encoder by concatenation; one lemma for each
format says that these are the same. -/

namespace Sys2Proof.Machine

/-! ### Words (R88, R244) -/

/-- The value of a register operand is the register's field. -/
theorem ofInt_regIndex (r : Reg) : BitVec.ofInt 16 (regIndex r : Int) = (fieldOfReg r).setWidth 16 := by
  cases r <;> rfl

/-- The fields of an R-format word, or'ed into place. -/
theorem or_fields_eq_encodeR (opc : BitVec 4) (op2 : BitVec 2) (rst rsa rsb : Reg) :
    (opc.setWidth 16 <<< 12 ||| op2.setWidth 16) ||| (fieldOfReg rst).setWidth 16 <<< 8 |||
      (fieldOfReg rsa).setWidth 16 <<< 5 ||| (fieldOfReg rsb).setWidth 16 <<< 2 = encodeR opc op2 rst rsa rsb := by
  apply BitVec.eq_of_getLsbD_eq
  intro k hk
  show _ = BitVec.getLsbD (opc ++ 0#1 ++ fieldOfReg rst ++ fieldOfReg rsa ++ fieldOfReg rsb ++ op2) k
  simp only [BitVec.getLsbD_append]
  interval_cases k <;> simp

/-- The fields of an I-format word, or'ed into place. -/
theorem or_fields_eq_encodeI (opc : BitVec 4) (rst : Reg) (imm8 : Imm8) :
    opc.setWidth 16 <<< 12 ||| 0x0800#16 ||| (fieldOfReg rst).setWidth 16 <<< 8 ||| imm8.setWidth 16 =
      encodeI opc rst imm8 := by
  apply BitVec.eq_of_getLsbD_eq
  intro k hk
  show _ = BitVec.getLsbD (opc ++ 1#1 ++ fieldOfReg rst ++ imm8) k
  simp only [BitVec.getLsbD_append]
  interval_cases k <;> simp

/-- Three operands that name registers make the R-format word of the mnemonic's base (R244). -/
theorem operationWord_rFormat {table : List (Text × Int)} {a b c : Text} {rst rsa rsb : Reg}
    (ha : operandValue table a = some (regIndex rst : Int)) (hb : operandValue table b = some (regIndex rsa : Int))
    (hc : operandValue table c = some (regIndex rsb : Int)) {m : String} (opc : BitVec 4) (op2 : BitVec 2)
    (hm : baseWord m = some (opc.setWidth 16 <<< 12 ||| op2.setWidth 16)) :
    operationWord table m [a, b, c] = some (encodeR opc op2 rst rsa rsb) := by
  simp only [operationWord, hm, List.map, ha, hb, hc, ofInt_regIndex, or_fields_eq_encodeR]

/-- A register operand and a value make the I-format word of the mnemonic's base; `ldc0` takes the second byte of the
value (R88, R244). -/
theorem operationWord_iFormat {table : List (Text × Int)} {a d : Text} {rst : Reg} {v : Int}
    (ha : operandValue table a = some (regIndex rst : Int)) (hd : operandValue table d = some v) {m : String}
    (opc : BitVec 4) (hm : baseWord m = some (opc.setWidth 16 <<< 12)) :
    operationWord table m [a, d] =
      some (encodeI opc rst (if m = "ldc0" then BitVec.ofInt 8 (v / 256) else BitVec.ofInt 8 v)) := by
  have hlow : (BitVec.ofInt 16 v).extractLsb' 0 8 = BitVec.ofInt 8 v := by
    apply BitVec.eq_of_toNat_eq
    simp only [BitVec.extractLsb'_toNat, BitVec.toNat_ofInt, Nat.shiftRight_zero]
    omega
  have hhigh : (BitVec.ofInt 16 v).extractLsb' 8 8 = BitVec.ofInt 8 (v / 256) := by
    apply BitVec.eq_of_toNat_eq
    simp only [BitVec.extractLsb'_toNat, BitVec.toNat_ofInt, Nat.shiftRight_eq_div_pow]
    omega
  simp only [operationWord, hm, List.map, ha, hd, ofInt_regIndex, or_fields_eq_encodeI, hlow, hhigh]

/-- Settles O59: every mnemonic's base holds the Opcode and Op2 of its row. -/
theorem assemblerBuildsTheEncodersWords : Obligations.AssemblerBuildsTheEncodersWords := by
  intro rst rsa rsb table a b c d z v ha hb hc hd hz
  have hR := @operationWord_rFormat table a b c rst rsa rsb ha hb hc
  have hI := @operationWord_iFormat table a d rst v ha hd
  refine ⟨hR 0#4 0#2 rfl, hR 1#4 0#2 rfl, hR 2#4 0#2 rfl, hR 3#4 0#2 rfl, hR 4#4 0#2 rfl, hR 5#4 0#2 rfl,
    hR 6#4 0#2 rfl, hR 0#4 1#2 rfl, hR 1#4 1#2 rfl, hR 0#4 2#2 rfl, hR 1#4 2#2 rfl, hR 4#4 2#2 rfl, hR 5#4 2#2 rfl,
    hR 10#4 0#2 rfl, hR 11#4 0#2 rfl, hI 0#4 rfl, hI 1#4 rfl, hI 2#4 rfl, hI 3#4 rfl, hI 4#4 rfl, hI 5#4 rfl,
    hI 6#4 rfl, hI 8#4 rfl, hI 9#4 rfl, hI 9#4 rfl, hI 10#4 rfl, hI 11#4 rfl, hI 9#4 rfl, ?_⟩
  simp only [operationWord, List.map, hz]
  rfl

/-! ### Object-code text (R253, R321) -/

/-- A hexadecimal digit is no white space, no star, and has its value. -/
theorem hexDigit_spec {d : Nat} (h : d < 16) :
    isSpace (hexDigit d) = false ∧ hexDigit d ≠ '*' ∧ digitValue 16 (hexDigit d) = some d := by
  interval_cases d <;> decide

theorem hex4_no_space (n : Nat) : ∀ c ∈ hex4 n, isSpace c = false := by
  intro c hc
  simp only [hex4, List.mem_cons, List.not_mem_nil, or_false] at hc
  obtain rfl | rfl | rfl | rfl := hc <;> exact (hexDigit_spec (by omega)).1

/-- Four hexadecimal digits read as the number mod 65536. -/
theorem digitsValue_hex4 (n : Nat) : digitsValue 16 (hex4 n) = some (n % 65536) := by
  have hdigit : ∀ m, digitValue 16 (hexDigit (m % 16)) = some (m % 16) := fun m => (hexDigit_spec (by omega)).2.2
  simp only [hex4, digitsValue, digitsValueFrom, hdigit, Option.some.injEq]
  omega

theorem hex4_ne_stars (n : Nat) : hex4 n ≠ ['*', '*', '*', '*'] := by
  intro h
  exact (hexDigit_spec (d := n / 4096 % 16) (by omega)).2.1 (List.cons.inj h).1

/-- The line that begins with `l` ends at the first line end. -/
theorem linesOf_line (l rest cur : Text) (h : ∀ c ∈ l, c ≠ '\n') :
    linesOf (l ++ '\n' :: rest) cur = (cur.reverse ++ l) :: linesOf rest [] := by
  induction l generalizing cur with
  | nil => simp [linesOf]
  | cons c l ih =>
    obtain ⟨hc, hl⟩ := List.forall_mem_cons.1 h
    simp [linesOf, hc, ih _ hl]

/-- Characters that are no white space join the field being read. -/
theorem fieldsOf_append (l rest cur : Text) (h : ∀ c ∈ l, isSpace c = false) :
    fieldsOf (l ++ rest) cur = fieldsOf rest (l.reverse ++ cur) := by
  induction l generalizing cur with
  | nil => rfl
  | cons c l ih =>
    obtain ⟨hc, hl⟩ := List.forall_mem_cons.1 h
    simp [fieldsOf, hc, ih _ hl]

/-- Two words without white space, separated by a space, are two fields. -/
theorem fieldsOf_pair {f g : Text} (hf : ∀ c ∈ f, isSpace c = false) (hg : ∀ c ∈ g, isSpace c = false)
    (hf' : f ≠ []) (hg' : g ≠ []) : fieldsOf (f ++ ' ' :: g) [] = [f, g] := by
  have hspace : isSpace ' ' = true := rfl
  rw [fieldsOf_append _ _ _ hf, fieldsOf, if_pos hspace]
  have h := fieldsOf_append g [] [] hg
  simp only [List.append_nil] at h ⊢
  rw [h]
  simp [fieldsOf, hf', hg']

/-- A written line reads back as its word. -/
theorem objectLine_hex4 (a : Nat) (w : Code) : objectLine (hex4 a ++ ' ' :: hex4 w.toNat) = some w := by
  have hw := w.isLt
  have hmod : w.toNat % 65536 = w.toNat := Nat.mod_eq_of_lt hw
  simp only [objectLine, fieldsOf_pair (hex4_no_space a) (hex4_no_space _) (List.cons_ne_nil _ _)
    (List.cons_ne_nil _ _), hex4_ne_stars, or_self, if_false, digitsValue_hex4, hmod, if_pos hw]
  simp

/-- No character of a written line ends it early. -/
theorem hexLine_no_newline (a n : Nat) : ∀ c ∈ hex4 a ++ ' ' :: hex4 n, c ≠ '\n' := by
  have hnl : isSpace '\n' = true := rfl
  intro c hc hcn
  subst hcn
  obtain h | h := List.mem_append.1 hc
  · rw [hex4_no_space a _ h] at hnl; cases hnl
  · obtain h | h := List.mem_cons.1 h
    · exact absurd h (by decide)
    · rw [hex4_no_space n _ h] at hnl; cases hnl

theorem renderLine_word (a : Nat) (w : Code) :
    renderLine (.word a w) = (hex4 a ++ ' ' :: hex4 w.toNat) ++ ['\n'] := rfl

/-- A written line is the first line of the text that begins with it. -/
theorem linesOf_renderLine (a : Nat) (w : Code) (rest : Text) :
    linesOf (renderLine (.word a w) ++ rest) [] = (hex4 a ++ ' ' :: hex4 w.toNat) :: linesOf rest [] := by
  rw [renderLine_word, List.append_assoc, List.singleton_append, linesOf_line _ _ _ (hexLine_no_newline a w.toNat),
    List.reverse_nil, List.nil_append]

/-- Settles O60, by induction on the lines: each rendered line is one line of the text, and reads back as its word. -/
theorem objectTextRoundTrip : Obligations.ObjectTextRoundTrip := by
  intro lines
  induction lines with
  | nil => rfl
  | cons p lines ih =>
    rw [parseObject] at ih ⊢
    rw [List.map_cons, List.flatten_cons, linesOf_renderLine, objectWords, objectLine_hex4, ih]
    rfl

end Sys2Proof.Machine
end
